-- ==== Sys2Proof/Word.lean ====
section
/-! DEFINITION. The word types of the MRE: every register and coefficient is 32 bits (00_scope.md R6), every memory
cell a byte, every slot field 4 bits (30_encoding.md R57). -/

namespace Sys2Proof

/-- A byte of SEED, BUF or an XOF stream. -/
abbrev Byte := BitVec 8

/-- A `u32`: a register, a coefficient, a command word (00_scope.md R6, R9). -/
abbrev Word := BitVec 32

/-- A slot field of a command word, an unsigned 4-bit slot number (30_encoding.md R57). -/
abbrev Slot := BitVec 4

/-- The 32-bit word of a natural number. Every rule's result is below 2^32 (00_scope.md R9). -/
abbrev u32 (n : Nat) : Word := BitVec.ofNat 32 n

end Sys2Proof
end

