-- ==== Sys2Proof/Syntax.lean ====
section
/-! DEFINITION. The 28 commands of the MRE, one constructor per row of spec/opcode_table.json (30_encoding.md R59).
A constructor's arguments are the slot fields its row uses, in the order A, B, C of the command word. -/

namespace Sys2Proof

/-- A command. `a` is a destination slot (or the first of K), `b` a source slot (or the first of K), and `c` a second
source slot or, in VP2R and VDECOMP, the high-part destination slot. -/
inductive Instr where
  /-- NOP, R78. -/
  | nop
  /-- RFULL, R79: reduceFull of ARG0. -/
  | rfull
  /-- RPART, R80: reducePartial of ARG0. -/
  | rpart
  /-- P2R, R81: power2round of ARG0. -/
  | p2r
  /-- DECOMP, R82: decompose of ARG0. -/
  | decomp
  /-- MKHINT, R83: makeHint of ARG0 and ARG1. -/
  | mkhint
  /-- USEHINT, R84: useHint of ARG0 and ARG1. -/
  | usehint
  /-- VRFULL pA, pB, R86. -/
  | vrfull (a b : Slot)
  /-- VRPART pA, pB, R87. -/
  | vrpart (a b : Slot)
  /-- VP2R pA, pC, pB, R88. -/
  | vp2r (a b c : Slot)
  /-- VDECOMP pA, pC, pB, R89. -/
  | vdecomp (a b c : Slot)
  /-- VMKHINT pA, pB, pC, R90. -/
  | vmkhint (a b c : Slot)
  /-- VUSEHINT pA, pB, pC, R91. -/
  | vusehint (a b c : Slot)
  /-- CBD2 pA, R95. -/
  | cbd2 (a : Slot)
  /-- CBD3 pA, R96. -/
  | cbd3 (a : Slot)
  /-- UNIF pA, R98. -/
  | unif (a : Slot)
  /-- PKT1 pB, R106. -/
  | pkt1 (b : Slot)
  /-- UPKT1 pA, R107. -/
  | upkt1 (a : Slot)
  /-- PKT0 pB, R108. -/
  | pkt0 (b : Slot)
  /-- UPKT0 pA, R109. -/
  | upkt0 (a : Slot)
  /-- PKETA pB, R110. -/
  | pketa (b : Slot)
  /-- UPKETA pA, R111. -/
  | upketa (a : Slot)
  /-- PKG1 pB, R112. -/
  | pkg1 (b : Slot)
  /-- UPKG1 pA, R113. -/
  | upkg1 (a : Slot)
  /-- PKHINT pB, R114: packs the K slots from B. -/
  | pkhint (b : Slot)
  /-- UPKHINT pA, R115: unpacks to the K slots from A. -/
  | upkhint (a : Slot)
  /-- PKCHAL pB, R117. -/
  | pkchal (b : Slot)
  /-- UPKCHAL pA, R118. -/
  | upkchal (a : Slot)
  deriving DecidableEq, Repr

end Sys2Proof
end

