-- ==== Sys2Proof/Config.lean ====
section
/-! DEFINITION. What a chip fixes (the parameter record of 00_scope.md R5) and what the spec leaves open (the free
values `any` of R12, the open functions XOF_N and XOF_U, the schedule). An `opaque` constant here has no body, so no
proof can learn a value of it. -/

namespace Sys2Proof

/-- N, the ring degree: 256 on every chip (R5, WF2 of R7). -/
abbrev ringDegree : Nat := 256

/-- TAU, the nonzero count of a challenge: 60 on every chip (R5, WF2 of R7). -/
abbrev tau : Nat := 60

/-- Which partial reduction RP the chip has (40_field_primitives.md R69, R70). -/
inductive PartialReduction where
  /-- RP_REF of R70. -/
  | ref
  /-- A chip whose RP the spec does not give: only the contract of R69 is known of it. -/
  | contractOnly
  deriving DecidableEq, Repr

/-- The parameter record of R5, less the two constants above, the derived entries below, and XOF_N and XOF_U.
`tangle` lists TANGLE(0), …, TANGLE(255). -/
structure Params where
  q         : Nat
  d         : Nat
  gamma1    : Nat
  gamma2    : Nat
  eta       : Nat
  k         : Nat
  omega     : Nat
  ubits     : Nat
  ukeep     : Nat
  seedBytes : Nat
  npoly     : Nat
  bufBytes  : Nat
  rp        : PartialReduction
  tangle    : List Nat
  idValue   : Word
  deriving DecidableEq, Repr

/-- ALPHA = 2·GAMMA2 (R5). -/
def Params.alpha (p : Params) : Nat := 2 * p.gamma2

/-- M = (Q−1)/ALPHA, the number of decompose high parts (R5). -/
def Params.m (p : Params) : Nat := (p.q - 1) / p.alpha

/-- DETA_BITS, the Eta codec width: 3 if 2·ETA ≤ 7, else 4 (R5). -/
def Params.detaBits (p : Params) : Nat := if 2 * p.eta ≤ 7 then 3 else 4

/-- REF, the reference instance of R5. -/
def Params.ref : Params where
  q         := 8380417
  d         := 14
  gamma1    := 523776
  gamma2    := 261888
  eta       := 3
  k         := 5
  omega     := 96
  ubits     := 12
  ukeep     := 12
  seedBytes := 32
  npoly     := 16
  bufBytes  := 4096
  rp        := .ref
  tangle    := List.range 256
  idValue   := 0x4D524537#32

/-- `any` of a 32-bit place (R12): `event` numbers the engine step or host read that draws, `place` says which of that
event's values it is (a port offset, or a field index in a dense pack). Log entry 4. -/
opaque Config.anyWord (event place : Nat) : Word

/-- `any` of a byte of BUF (R12); `place` is its port offset. Log entry 4. -/
opaque Config.anyByte (event place : Nat) : Byte

/-- XOF_N (R5, 41_noise_sampler.md R92): byte `k` of the noise stream of a message. Log entry 3. -/
opaque Config.xofN (msg : List Byte) (k : Nat) : Byte

/-- XOF_U (R5, 41_noise_sampler.md R92): byte `k` of the uniform stream of a message. Log entry 3. -/
opaque Config.xofU (msg : List Byte) (k : Nat) : Byte

/-- The XOF failure draw of a sampler's engine step (41_noise_sampler.md R93, 93_implementation_defined.md I10).
Log entry 5. -/
opaque Config.xofFails (event : Nat) : Bool

/-- On a chip with `contractOnly`, which of the two values x mod Q and x mod Q + Q the contract of R69 allows its RP
returns. Log entry 2. -/
opaque Config.rpHigh (x : Word) : Bool

/-- The schedule (60_exceptions.md R121, 93_implementation_defined.md I22): how many host steps come before the
engine's next step, a finite number (weak fairness). Log entry 6. -/
opaque Config.engineDelay (event : Nat) : Nat

/-- MRE_BASE (20_memory.md R40), the platform's. The model names every place by its offset from it. Log entry 18. -/
opaque Config.mreBase : Nat

end Sys2Proof
end

