-- ==== Sys2Proof/WellFormed.lean ====
section
/-! DEFINITION. Which parameter records are chips (00_scope.md R7) and which commands are legal as syntax
(30_encoding.md R60 (d)). -/

namespace Sys2Proof

/-- A record is admissible (R7); the field names are the clauses WF1 to WF11. WF2 (N = 256, TAU = 60) holds by
`ringDegree` and `tau`. WF10 is decided by RP: `contractOnly` meets it by its definition, and RP_REF meets it exactly
where Q is 2^23 − 2^13 + 1 (40_field_primitives.md R70). -/
structure Params.WF (p : Params) : Prop where
  wf1  : p.q.Prime ∧ p.q % 2 = 1 ∧ 2 ^ 20 ≤ p.q ∧ p.q < 2 ^ 24
  wf3  : 1 ≤ p.d ∧ p.d ≤ 14 ∧ (p.q - 1) % 2 ^ p.d ≤ 2 ^ (p.d - 1) ∧ (p.q - 1) / 2 ^ p.d ≤ 511
  wf4  : 1 ≤ p.gamma2 ∧ (p.q - 1) % p.alpha = 0 ∧ 2 ≤ p.m
  wf5  : 1 ≤ p.gamma1 ∧ 2 * p.gamma1 - 1 ≤ 2 ^ 20
  wf6  : 2 ≤ p.eta ∧ p.eta ≤ 7
  wf7  : 1 ≤ p.k ∧ p.k ≤ p.npoly ∧ p.npoly ≤ 16 ∧ p.omega ≤ 255 ∧ p.omega + p.k ≤ p.bufBytes
  wf8  : 640 ≤ p.bufBytes ∧ p.bufBytes ≤ 4096 ∧ p.bufBytes % 4 = 0 ∧
         1 ≤ p.seedBytes ∧ p.seedBytes ≤ 128 ∧ p.seedBytes % 4 = 0
  wf9  : 1 ≤ p.ukeep ∧ p.ukeep ≤ p.ubits ∧ p.ubits ≤ 32
  wf10 : p.rp = .ref → p.q = 8380417
  wf11 : p.tangle.length = 256 ∧ p.tangle.Nodup ∧ ∀ t ∈ p.tangle, t < 256

/-- A chip: an admissible record. A record that fails R7 cannot be made into one, which is how the model refuses it
(93_implementation_defined.md I20). -/
structure Chip where
  params : Params
  wf     : params.WF
  deriving DecidableEq, Repr

/-- REF meets every clause of R7 (95_test_vectors.md §1). -/
theorem Params.ref_wf : Params.ref.WF where
  wf1  := by norm_num [Params.ref]
  wf3  := by norm_num [Params.ref]
  wf4  := by norm_num [Params.ref, Params.alpha, Params.m]
  wf5  := by norm_num [Params.ref]
  wf6  := by norm_num [Params.ref]
  wf7  := by norm_num [Params.ref]
  wf8  := by norm_num [Params.ref]
  wf9  := by norm_num [Params.ref]
  wf10 := fun _ => rfl
  wf11 := ⟨by simp [Params.ref], by simpa [Params.ref] using List.nodup_range, by simp [Params.ref]⟩

/-- The reference chip `MRE-v7-REF` (R2, R5). -/
def Chip.ref : Chip := ⟨Params.ref, Params.ref_wf⟩

/-- A command is legal as syntax: VP2R and VDECOMP need two distinct destination slots (R60 (d)). -/
def Instr.wellFormed : Instr → Bool
  | .vp2r a _ c | .vdecomp a _ c => a ≠ c
  | .nop | .rfull | .rpart | .p2r | .decomp | .mkhint | .usehint => true
  | .vrfull _ _ | .vrpart _ _ | .vmkhint _ _ _ | .vusehint _ _ _ => true
  | .cbd2 _ | .cbd3 _ | .unif _ => true
  | .pkt1 _ | .upkt1 _ | .pkt0 _ | .upkt0 _ | .pketa _ | .upketa _ | .pkg1 _ | .upkg1 _ => true
  | .pkhint _ | .upkhint _ | .pkchal _ | .upkchal _ => true

end Sys2Proof
end

