-- ==== Sys2Proof/Decode.lean ====
section
/-! DEFINITION. The command word (30_encoding.md R56), the decoder (R59, R60) and, after it, the encoder and the
assembler syntax (R63). -/

namespace Sys2Proof

/-- The fields of a command word (R56). -/
structure Fields where
  op   : BitVec 6
  rsv0 : BitVec 2
  a    : Slot
  b    : Slot
  c    : Slot
  rsv1 : BitVec 12
  deriving DecidableEq, Repr

/-- Why a word is ILLEGAL (R60). -/
inductive DecodeError where
  /-- (a) OP is not in the table of R59. -/
  | unassignedOpcode
  /-- (b) RSV0 or RSV1 is not 0. -/
  | reservedBits
  /-- (c) a field the command does not use is not 0. -/
  | unusedField
  /-- (d) VP2R or VDECOMP with A = C. -/
  | sameDestination
  deriving DecidableEq, Repr

/-- The fields of a word: OP [5:0], RSV0 [7:6], A [11:8], B [15:12], C [19:16], RSV1 [31:20] (R56). -/
def fieldsOf (w : Word) : Fields where
  op   := w.extractLsb' 0 6
  rsv0 := w.extractLsb' 6 2
  a    := w.extractLsb' 8 4
  b    := w.extractLsb' 12 4
  c    := w.extractLsb' 16 4
  rsv1 := w.extractLsb' 20 12

/-- R60 (c): the listed unused fields must be 0. -/
def withUnused (unused : List Slot) (i : Instr) : Except DecodeError Instr :=
  if unused.all (· = 0) then .ok i else .error .unusedField

/-- R60 (d): the two destinations of a command that has two must differ. -/
def withDistinct (a c : Slot) (i : Instr) : Except DecodeError Instr :=
  if a = c then .error .sameDestination else .ok i

/-- The opcode map of R59. -/
def decodeOp (f : Fields) : Except DecodeError Instr :=
  match f.op.toNat with
  | 0x00 => withUnused [f.a, f.b, f.c] .nop
  | 0x01 => withUnused [f.a, f.b, f.c] .rfull
  | 0x02 => withUnused [f.a, f.b, f.c] .rpart
  | 0x03 => withUnused [f.a, f.b, f.c] .p2r
  | 0x04 => withUnused [f.a, f.b, f.c] .decomp
  | 0x05 => withUnused [f.a, f.b, f.c] .mkhint
  | 0x06 => withUnused [f.a, f.b, f.c] .usehint
  | 0x11 => withUnused [f.c] (.vrfull f.a f.b)
  | 0x12 => withUnused [f.c] (.vrpart f.a f.b)
  | 0x13 => withDistinct f.a f.c (.vp2r f.a f.b f.c)
  | 0x14 => withDistinct f.a f.c (.vdecomp f.a f.b f.c)
  | 0x15 => .ok (.vmkhint f.a f.b f.c)
  | 0x16 => .ok (.vusehint f.a f.b f.c)
  | 0x20 => withUnused [f.b, f.c] (.cbd2 f.a)
  | 0x21 => withUnused [f.b, f.c] (.cbd3 f.a)
  | 0x22 => withUnused [f.b, f.c] (.unif f.a)
  | 0x30 => withUnused [f.a, f.c] (.pkt1 f.b)
  | 0x31 => withUnused [f.b, f.c] (.upkt1 f.a)
  | 0x32 => withUnused [f.a, f.c] (.pkt0 f.b)
  | 0x33 => withUnused [f.b, f.c] (.upkt0 f.a)
  | 0x34 => withUnused [f.a, f.c] (.pketa f.b)
  | 0x35 => withUnused [f.b, f.c] (.upketa f.a)
  | 0x36 => withUnused [f.a, f.c] (.pkg1 f.b)
  | 0x37 => withUnused [f.b, f.c] (.upkg1 f.a)
  | 0x38 => withUnused [f.a, f.c] (.pkhint f.b)
  | 0x39 => withUnused [f.b, f.c] (.upkhint f.a)
  | 0x3A => withUnused [f.a, f.c] (.pkchal f.b)
  | 0x3B => withUnused [f.b, f.c] (.upkchal f.a)
  | _ => .error .unassignedOpcode

/-- The decoder, total on all 2^32 words; an ILLEGAL word (R60) is rejected by name. -/
def decode (w : Word) : Except DecodeError Instr :=
  let f := fieldsOf w
  if f.rsv0 = 0 ∧ f.rsv1 = 0 then decodeOp f else .error .reservedBits

/-- The decoder's reading of a table row's word. The port stores a command as one 32-bit word (R40, R56), and bit n of
the table's number is bit n of that word; a row has no word after the first. -/
def decodeTableWord (nbits w : Nat) : Option Instr :=
  if nbits ≤ 32 then (decode (u32 (w % 2 ^ nbits))).toOption else none

/-- The fields of a command, unused fields and reserved bits 0 (R56, R59). -/
def Instr.fields : Instr → Fields
  | .nop           => ⟨0x00, 0, 0, 0, 0, 0⟩
  | .rfull         => ⟨0x01, 0, 0, 0, 0, 0⟩
  | .rpart         => ⟨0x02, 0, 0, 0, 0, 0⟩
  | .p2r           => ⟨0x03, 0, 0, 0, 0, 0⟩
  | .decomp        => ⟨0x04, 0, 0, 0, 0, 0⟩
  | .mkhint        => ⟨0x05, 0, 0, 0, 0, 0⟩
  | .usehint       => ⟨0x06, 0, 0, 0, 0, 0⟩
  | .vrfull a b    => ⟨0x11, 0, a, b, 0, 0⟩
  | .vrpart a b    => ⟨0x12, 0, a, b, 0, 0⟩
  | .vp2r a b c    => ⟨0x13, 0, a, b, c, 0⟩
  | .vdecomp a b c => ⟨0x14, 0, a, b, c, 0⟩
  | .vmkhint a b c => ⟨0x15, 0, a, b, c, 0⟩
  | .vusehint a b c => ⟨0x16, 0, a, b, c, 0⟩
  | .cbd2 a        => ⟨0x20, 0, a, 0, 0, 0⟩
  | .cbd3 a        => ⟨0x21, 0, a, 0, 0, 0⟩
  | .unif a        => ⟨0x22, 0, a, 0, 0, 0⟩
  | .pkt1 b        => ⟨0x30, 0, 0, b, 0, 0⟩
  | .upkt1 a       => ⟨0x31, 0, a, 0, 0, 0⟩
  | .pkt0 b        => ⟨0x32, 0, 0, b, 0, 0⟩
  | .upkt0 a       => ⟨0x33, 0, a, 0, 0, 0⟩
  | .pketa b       => ⟨0x34, 0, 0, b, 0, 0⟩
  | .upketa a      => ⟨0x35, 0, a, 0, 0, 0⟩
  | .pkg1 b        => ⟨0x36, 0, 0, b, 0, 0⟩
  | .upkg1 a       => ⟨0x37, 0, a, 0, 0, 0⟩
  | .pkhint b      => ⟨0x38, 0, 0, b, 0, 0⟩
  | .upkhint a     => ⟨0x39, 0, a, 0, 0, 0⟩
  | .pkchal b      => ⟨0x3A, 0, 0, b, 0, 0⟩
  | .upkchal a     => ⟨0x3B, 0, a, 0, 0, 0⟩

/-- The word of given fields; with the reserved fields 0 it is `OP + 2^8·A + 2^12·B + 2^16·C` (R56). -/
def Fields.word (f : Fields) : Word :=
  u32 (f.op.toNat + 2 ^ 6 * f.rsv0.toNat + 2 ^ 8 * f.a.toNat + 2 ^ 12 * f.b.toNat + 2 ^ 16 * f.c.toNat +
    2 ^ 20 * f.rsv1.toNat)

/-- The encoder: the command word of a command (R56, R59). -/
def encode (i : Instr) : Word := i.fields.word

/-- The mnemonic of R59. -/
def Instr.mnemonic : Instr → String
  | .nop => "NOP" | .rfull => "RFULL" | .rpart => "RPART" | .p2r => "P2R" | .decomp => "DECOMP"
  | .mkhint => "MKHINT" | .usehint => "USEHINT"
  | .vrfull _ _ => "VRFULL" | .vrpart _ _ => "VRPART" | .vp2r _ _ _ => "VP2R" | .vdecomp _ _ _ => "VDECOMP"
  | .vmkhint _ _ _ => "VMKHINT" | .vusehint _ _ _ => "VUSEHINT"
  | .cbd2 _ => "CBD2" | .cbd3 _ => "CBD3" | .unif _ => "UNIF"
  | .pkt1 _ => "PKT1" | .upkt1 _ => "UPKT1" | .pkt0 _ => "PKT0" | .upkt0 _ => "UPKT0"
  | .pketa _ => "PKETA" | .upketa _ => "UPKETA" | .pkg1 _ => "PKG1" | .upkg1 _ => "UPKG1"
  | .pkhint _ => "PKHINT" | .upkhint _ => "UPKHINT" | .pkchal _ => "PKCHAL" | .upkchal _ => "UPKCHAL"

/-- The slot operands in the assembler's order: destinations first, then sources (R63). -/
def Instr.operands : Instr → List Slot
  | .nop | .rfull | .rpart | .p2r | .decomp | .mkhint | .usehint => []
  | .vrfull a b | .vrpart a b => [a, b]
  | .vp2r a b c | .vdecomp a b c => [a, c, b]
  | .vmkhint a b c | .vusehint a b c => [a, b, c]
  | .cbd2 s | .cbd3 s | .unif s => [s]
  | .pkt1 s | .upkt1 s | .pkt0 s | .upkt0 s | .pketa s | .upketa s | .pkg1 s | .upkg1 s => [s]
  | .pkhint s | .upkhint s | .pkchal s | .upkchal s => [s]

/-- The assembler text of a command (R63), such as `VP2R p1, p2, p0`. -/
def Instr.asm (i : Instr) : String :=
  match i.operands with
  | [] => i.mnemonic
  | ops => i.mnemonic ++ " " ++ String.intercalate ", " (ops.map fun s => "p" ++ toString s.toNat)

end Sys2Proof
end

