-- ==== Sys2Proof/Machine/State.lean ====
section
/-! DEFINITION. The state of the MRE and its two companions, the host and the schedule, as plain data (10_state.md,
INVENTORY.md '## State'). -/

namespace Sys2Proof.Machine

/-- STATUS.ERR (60_exceptions.md R123). Codes 6 to 15 are never written, so they have no constructor
(log entry 23). -/
inductive ErrCode where
  | ok
  | illegal
  | range
  | xofFail
  | aborted
  | fatal
  deriving DecidableEq, Repr

/-- The latched command: the CMD word and the values of ARG0 and ARG1 at issue (10_state.md R37 (b)). -/
structure Latched where
  word : Word
  arg0 : Word
  arg1 : Word
  deriving DecidableEq, Repr

/-- The stream and loop state of a UNIF between two of its steps (10_state.md R37 (c), 41_noise_sampler.md R100): the
absorbed message, j (the chunks squeezed so far) and s (the accepted values; n is its length). -/
structure UnifLoop where
  msg      : List Byte
  chunks   : Nat
  accepted : List Word
  deriving DecidableEq, Repr

/-- The phase (10_state.md R37 (a)) with the hidden state that exists only while RUNNING: the latched command, the
stream and loop state of a UNIF that has taken a step, and whether an abort is pending (R37 (b) to (d)). -/
inductive Engine where
  | idle
  | running (cmd : Latched) (loop : Option UnifLoop) (abort : Bool)
  deriving DecidableEq, Repr

/-- The width of a host access; only `word` is carried out (20_memory.md R48). -/
inductive AccessSize where
  | byte
  | half
  | word
  deriving DecidableEq, Repr

/-- One step of the host, or of the reset input (30_encoding.md R64, 60_exceptions.md R137). -/
inductive HostOp where
  /-- `WR off, v`. -/
  | wr (size : AccessSize) (off : BitVec 15) (v : Word)
  /-- `RD r, off` into the host variable `r`. -/
  | rd (size : AccessSize) (r : Nat) (off : BitVec 15)
  /-- `WAIT`: read STATUS into `r`, and again while bit 0 is 1. -/
  | wait (r : Nat)
  /-- The other form of waiting (20_memory.md R52): until the IRQ line is high (log entry 21). -/
  | waitIrq
  /-- The reset input is asserted and released (70_reset_and_hazards.md R138, log entry 15). -/
  | hardReset
  deriving DecidableEq, Repr

/-- The model faults of 70_reset_and_hazards.md R147. -/
inductive Fault where
  /-- Raised by a misaligned or partial-width host access (20_memory.md R48, 60_exceptions.md R130). Safe: the run
  stops where the hardware answers with a bus error and no state change (log entry 9). -/
  | busError
  /-- Raised by a command or a host read of a memory location that nothing has written since reset (10_state.md R36,
  70_reset_and_hazards.md R140). Safe: the run stops where the hardware reads an unspecified value. -/
  | readUnwritten
  deriving DecidableEq, Repr

/-- The refusals. Every command has a meaning, so none is raised. -/
inductive Refusal where
  /-- Raised by an arm of `exec` whose command has no meaning yet; no arm does. Safe: the run stops. -/
  | notModelled (mnemonic : String)
  deriving DecidableEq, Repr

/-- The memories of the port: (port byte offset, byte), one entry per written byte, offsets rising
(`Memory.wf`). An offset without an entry is unwritten (10_state.md R36, log entry
8). -/
abbrev Memory := List Host.Cell

/-- The machine. -/
structure State where
  /-- The parameter record of the chip (00_scope.md R5, R8). -/
  chip : Chip
  /-- CMD: the last command word that was issued (10_state.md R27). -/
  cmd : Word
  /-- STATUS.DONE (R28). -/
  done : Bool
  /-- STATUS.DFAIL (R28, R29). -/
  dfail : Bool
  /-- STATUS.ERR (R28). -/
  err : ErrCode
  /-- STATUS.WERR (R28). -/
  werr : Bool
  /-- STATUS.FATAL (R28). -/
  fatal : Bool
  /-- CTRL.IE (R30). -/
  ie : Bool
  /-- XCNT (R31). -/
  xcnt : Word
  /-- ARG0 (R17, R32). -/
  arg0 : Word
  /-- ARG1 (R17, R32). -/
  arg1 : Word
  /-- RES0 (R17, R32). -/
  res0 : Word
  /-- RES1 (R17, R32). -/
  res1 : Word
  /-- SEED, BUF and the poly RAM (R33 to R35), keyed by port byte offset (20_memory.md R41). -/
  mem : Memory
  /-- The phase, STATUS.BUSY and the hidden state (R37). -/
  engine : Engine
  /-- The host's remaining steps (70_reset_and_hazards.md R147); of several host masters, their merged order (20_memory.md
  R55, log entry 16). -/
  host : List HostOp
  /-- The host's variables (30_encoding.md R64), names rising. -/
  vars : List (Nat × Word)
  /-- The host steps the schedule puts before the engine's next step (60_exceptions.md R121). -/
  hostTurns : Nat
  /-- The schedule's coming values of `hostTurns`; after them it is open (`Config.engineDelay`). -/
  sched : List Nat
  /-- The number of the next event that may draw free values (00_scope.md R12). -/
  draws : Nat
  deriving DecidableEq, Repr

/-- The machine right after reset (10_state.md R39, 70_reset_and_hazards.md R138): every register 0, IDLE, memories
unwritten. The chip is REF, the host has no steps, and the model's own counters are 0 (log entries 1, 4, 6, 7). -/
def State.reset : State where
  chip := Chip.ref
  cmd := 0
  done := false
  dfail := false
  err := .ok
  werr := false
  fatal := false
  ie := false
  xcnt := 0
  arg0 := 0
  arg1 := 0
  res0 := 0
  res1 := 0
  mem := []
  engine := .idle
  host := []
  vars := []
  hostTurns := 0
  sched := []
  draws := 0

end Sys2Proof.Machine
end

