-- ==== Sys2Proof/Machine/Bits.lean ====
section
/-! DEFINITION. Numbers and bitstreams (00_scope.md R9 to R11). A byte string read least significant bit first is one
number, with byte k at weight 2^(8k); its w-bit field i is then its digit i in base 2^w, so a codec is a change of
base. -/

namespace Sys2Proof.Machine

/-- cmod(x, m), for even m: the r ≡ x (mod m) with −m/2 < r ≤ m/2 (R9). -/
def cmod (x m : Int) : Int := if 2 * (x % m) ≤ m then x % m else x % m - m

/-- The number whose base-2^w digits, least significant first, are given. -/
def ofDigits (w : Nat) : List Nat → Nat
  | [] => 0
  | d :: ds => d + 2 ^ w * ofDigits w ds

/-- The n least significant base-2^w digits of x. -/
def digits (w : Nat) : Nat → Nat → List Nat
  | 0, _ => []
  | n + 1, x => x % 2 ^ w :: digits w n (x / 2 ^ w)

/-- popcount of a w-bit number (R9). -/
def popcount (w x : Nat) : Nat := (digits 1 w x).sum

/-- The number a byte string is, as a bitstream (R11). -/
def numOfBytes (bs : List Byte) : Nat := ofDigits 8 (bs.map BitVec.toNat)

/-- The byte string of length n of a number (R11). -/
def bytesOfNum (n x : Nat) : List Byte := (digits 8 n x).map (BitVec.ofNat 8)

/-- The first n w-bit fields of a byte string: `fld(B, w, 0)`, …, `fld(B, w, n−1)` (R11). -/
def fields (w n : Nat) (bs : List Byte) : List Nat := digits w n (numOfBytes bs)

/-- The string of n bytes whose w-bit fields are given (R11: "Writing it means setting bits `w·i` to `w·i + w − 1`"). -/
def packFields (w n : Nat) (vs : List Nat) : List Byte := bytesOfNum n (ofDigits w vs)

/-- bit(B, j) of a stream B (R11). -/
def bitAt (B : Nat → Byte) (j : Nat) : Nat := (B (j / 8)).toNat / 2 ^ (j % 8) % 2

/-- fld(B, w, i) of a stream B (R11). -/
def fld (B : Nat → Byte) (w i : Nat) : Nat :=
  ((List.range w).map fun b => bitAt B (w * i + b) * 2 ^ b).sum

/-- The bytes of a word as the port holds them, lowest first (20_memory.md R46). -/
def bytesOfWord (v : Word) : List Byte := bytesOfNum 4 v.toNat

/-- The words of a byte string, little-endian (20_memory.md R46). -/
def wordsOfBytes : List Byte → List Word
  | b0 :: b1 :: b2 :: b3 :: bs => (b3 ++ b2 ++ b1 ++ b0 : Word) :: wordsOfBytes bs
  | _ => []

end Sys2Proof.Machine
end

