-- ==== Sys2Proof/Machine/Ops.lean ====
section
/-! DEFINITION. The named operations over memory and registers, the free values, and the completion of a command,
which is all this hardware has for an exception (60_exceptions.md R122, R124, R131). -/

namespace Sys2Proof.Machine

/-! ## Memory (20_memory.md R41 to R44, 10_state.md R36) -/

/-- The canonical form: offsets strictly rise, so each is listed once. Every listed cell is a written byte and an
unlisted one holds no value, so no entry can equal what an unlisted address reads as. -/
abbrev Memory.wf (m : Memory) : Prop := m.Pairwise fun x y => x.1 < y.1

/-- The byte at an offset, if something has written it. -/
def readByte (m : Memory) (a : Nat) : Option Byte := (m.find? fun c => c.1 = a).map (·.2)

/-- The n bytes from an offset, if every one is written. -/
def readBytes : Memory → Nat → Nat → Option (List Byte)
  | _, _, 0 => some []
  | [], _, _ + 1 => none
  | (k, b) :: m, a, n + 1 =>
    if k < a then readBytes m a (n + 1)
    else if k = a then (readBytes m (a + 1) n).map (b :: ·)
    else none

/-- The cells of a byte string placed at an offset. -/
def cellsAt (a : Nat) : List Byte → Memory
  | [] => []
  | b :: bs => (a, b) :: cellsAt (a + 1) bs

/-- Write a byte string at an offset. -/
def writeBytes (m : Memory) (a : Nat) (bs : List Byte) : Memory :=
  m.filter (fun c => c.1 < a) ++ cellsAt a bs ++ m.filter (fun c => a + bs.length ≤ c.1)

/-- The word at an offset, little-endian, if all four bytes are written (20_memory.md R46). -/
def readWord (m : Memory) (a : Nat) : Option Word := (readBytes m a 4).bind fun bs => (wordsOfBytes bs).head?

/-- The port offset of SEED[0] (R42). -/
def seedBase : Nat := 0x0080

/-- The port offset of BUF[0] (R43). -/
def bufBase : Nat := 0x1000

/-- The port offset of `poly[s][i]` (R44). -/
def coeffAddr (s i : Nat) : Nat := 0x4000 + 1024 * s + 4 * i

/-- `poly[s][i]`, if it is written. -/
def readCoeff (m : Memory) (s i : Nat) : Option Word := readWord m (coeffAddr s i)

/-- The 256 coefficients of slot s, if all are written. -/
def readSlot (m : Memory) (s : Nat) : Option (List Word) :=
  (readBytes m (coeffAddr s 0) (4 * ringDegree)).map wordsOfBytes

/-- The n slots from slot s, if all are written. -/
def readSlots (m : Memory) (s : Nat) : Nat → Option (List (List Word))
  | 0 => some []
  | n + 1 => (readSlot m s).bind fun p => (readSlots m (s + 1) n).map (p :: ·)

/-- Write coefficients from `poly[s][0]` on; 256 of them fill slot s, and a VecK's fill the slots from s. -/
def writeCoeffs (m : Memory) (s : Nat) (cs : List Word) : Memory :=
  writeBytes m (coeffAddr s 0) (cs.flatMap bytesOfWord)

/-- MemRead(addr, n) (00_scope.md R12, 20_memory.md R43). -/
def memRead (m : Memory) (addr n : Nat) : Option (List Byte) := readBytes m (bufBase + addr) n

/-- MemWrite(addr, n, v), n being the length of v (00_scope.md R12, 20_memory.md R43). -/
def memWrite (m : Memory) (addr : Nat) (v : List Byte) : Memory := writeBytes m (bufBase + addr) v

/-- The byte string `SEED` (00_scope.md R12), if every byte is written. -/
def readSeed (m : Memory) (p : Params) : Option (List Byte) := readBytes m seedBase p.seedBytes

/-! ## Hidden state (10_state.md R37) -/

/-- The parameters of the chip. -/
abbrev State.params (s : State) : Params := s.chip.params

/-- STATUS.BUSY (R37 (a)). -/
def State.busy (s : State) : Bool :=
  match s.engine with
  | .idle => false
  | .running _ _ _ => true

/-- The latched command (R37 (b)); of an idle engine, what an issue of CMD would latch (log entry 12). -/
def State.latched (s : State) : Latched :=
  match s.engine with
  | .idle => ⟨s.cmd, s.arg0, s.arg1⟩
  | .running l _ _ => l

/-- The stream and loop state of a UNIF that has taken a step (R37 (c)). -/
def State.loop (s : State) : Option UnifLoop :=
  match s.engine with
  | .idle => none
  | .running _ l _ => l

/-- Whether an abort is pending (R37 (d)). -/
def State.abortPending (s : State) : Bool :=
  match s.engine with
  | .idle => false
  | .running _ _ b => b

/-! ## Free values (00_scope.md R12, log entry 4) -/

/-- The port offset of RES0, RES1 and XCNT (10_state.md R31, R32), which name their free values. -/
def res0At : Nat := 0x038

@[inherit_doc res0At] def res1At : Nat := 0x03C

@[inherit_doc res0At] def xcntAt : Nat := 0x02C

/-- `any` in every coefficient of slot n. -/
def anySlot (event n : Nat) : List Word := (List.range ringDegree).map fun i => Config.anyWord event (coeffAddr n i)

/-- `any` in every byte of a BUF window. -/
def anyWindow (event addr len : Nat) : List Byte := (List.range len).map fun i => Config.anyByte event (bufBase + addr + i)

/-- A destination that a command's rule names (60_exceptions.md R124). -/
inductive Dest where
  | res0
  | res1
  | xcnt
  | slot (n : Nat)
  | window (addr len : Nat)
  deriving DecidableEq, Repr

/-- `any` in a destination; it counts as a write (70_reset_and_hazards.md R140). -/
def anyInto (s : State) : Dest → State
  | .res0 => { s with res0 := Config.anyWord s.draws res0At }
  | .res1 => { s with res1 := Config.anyWord s.draws res1At }
  | .xcnt => { s with xcnt := Config.anyWord s.draws xcntAt }
  | .slot n => { s with mem := writeCoeffs s.mem n (anySlot s.draws n) }
  | .window addr len => { s with mem := memWrite s.mem addr (anyWindow s.draws addr len) }

/-- `any` in every destination of a list. -/
def anyAll (s : State) (ds : List Dest) : State := ds.foldl anyInto s

/-! ## The schedule (60_exceptions.md R121, log entry 6) -/

/-- Fix how many host steps come before the engine's next step. -/
def schedule (s : State) : State :=
  match s.sched with
  | [] => { s with hostTurns := Config.engineDelay s.draws }
  | n :: ns => { s with hostTurns := n, sched := ns }

/-! ## Completion (60_exceptions.md R122) -/

/-- The completion step's status: ERR and DFAIL as given, BUSY 0, DONE 1, IDLE, the latched command, the stream and a
pending abort discarded. -/
def complete (s : State) (e : ErrCode) (dfail : Bool) : State :=
  { s with engine := .idle, done := true, err := e, dfail := dfail, draws := s.draws + 1 }

/-- Completion with ERR = 0 and DFAIL = 0, the destinations already written in `s`. -/
def succeed (s : State) : State := complete s .ok false

/-- The completion of an aborted command (R128, R124 code 4). -/
def abortWith (s : State) (ds : List Dest) : State := complete (anyAll s ds) .aborted false

/-- The completion of a sampler whose stream failed (41_noise_sampler.md R93, R124 code 3). -/
def failXof (s : State) (ds : List Dest) : State := complete { anyAll s ds with fatal := true } .xofFail false

/-! ## Reset (70_reset_and_hazards.md R138, R139) -/

/-- Every piece of engine state takes its reset value. The chip's constants, the host, its variables and the schedule
are not the engine's, and the number of the next draw goes on, so that no draw is used twice (log entry 4). -/
def resetEngine (s : State) : State :=
  { State.reset with
    chip := s.chip, host := s.host, vars := s.vars, sched := s.sched, draws := s.draws }

end Sys2Proof.Machine
end

