-- ==== Sys2Proof/Machine/Flags.lean ====
section
/-! DEFINITION. STATUS, CTRL and the CFG registers as words (10_state.md R21 to R30), the interrupt, and which error the
first engine step reports (60_exceptions.md R123, R125). The engine has no arithmetic flags (10_state.md R38). -/

namespace Sys2Proof.Machine

/-- The code of an error (60_exceptions.md R123). -/
def ErrCode.code : ErrCode → Nat
  | .ok => 0
  | .illegal => 1
  | .range => 2
  | .xofFail => 3
  | .aborted => 4
  | .fatal => 5

/-- STATUS as the host reads it (10_state.md R28): BUSY [0], DONE [1], DFAIL [2], ERR [7:4], WERR [8], FATAL [9]. -/
def statusWord (s : State) : Word :=
  u32 (s.busy.toNat + 2 * s.done.toNat + 4 * s.dfail.toNat + 16 * s.err.code + 256 * s.werr.toNat + 512 * s.fatal.toNat)

/-- CTRL as the host reads it (10_state.md R30): IE [0]; ABORT and SRST read 0. -/
def ctrlWord (s : State) : Word := u32 s.ie.toNat

/-- The level of the interrupt output: DONE and IE (60_exceptions.md R129). -/
def State.irq (s : State) : Bool := s.done && s.ie

/-- CFG0: D [7:0], ETA [15:8], K [23:16], OMEGA [31:24] (10_state.md R23). -/
def cfg0Word (p : Params) : Word := u32 (p.d + 2 ^ 8 * p.eta + 2 ^ 16 * p.k + 2 ^ 24 * p.omega)

/-- CFG1: UBITS [7:0], NPOLY [15:8], SEED_BYTES [23:16], DETA_BITS [27:24] (10_state.md R25). -/
def cfg1Word (p : Params) : Word := u32 (p.ubits + 2 ^ 8 * p.npoly + 2 ^ 16 * p.seedBytes + 2 ^ 24 * p.detaBits)

/-- The checks of the first engine step in their order: FATAL, ILLEGAL, RANGE (60_exceptions.md R125 (1) to (3)). -/
def firstError (s : State) (legal inRange : Bool) : Option ErrCode :=
  if s.fatal then some .fatal
  else if !legal then some .illegal
  else if !inRange then some .range
  else none

/-- The first engine step of a command (60_exceptions.md R121, R125): a failed check completes it with that error and
no other effect; a pending abort then ends it with `any` in its destinations `ds`; else `body` executes. -/
def command (s : State) (legal inRange : Bool) (ds : List Dest) (body : Host.Outcome State Fault Refusal) :
    Host.Outcome State Fault Refusal :=
  match firstError s legal inRange with
  | some e => .next (complete s e false)
  | none => if s.abortPending then .next (abortWith s ds) else body

/-- A sampler's part of an engine step after the checks and the abort: a failure draw of true ends the command
(41_noise_sampler.md R93, 60_exceptions.md R125 (5)); else `body` executes. -/
def unlessXofFails (s : State) (ds : List Dest) (body : Host.Outcome State Fault Refusal) :
    Host.Outcome State Fault Refusal :=
  if Config.xofFails s.draws then .next (failXof s ds) else body

/-- The engine step of an ILLEGAL word: FATAL comes first, else ERR = 1, and nothing else changes (60_exceptions.md
R124, R125). -/
def illegalCommand (s : State) : State := complete s (if s.fatal then .fatal else .illegal) false

end Sys2Proof.Machine
end

