-- ==== Sys2Proof/Machine/Operands.lean ====
section
/-! DEFINITION. The operand forms of 30_encoding.md R58 and R66: the latched ARG0 and ARG1, slots, and the byte window
at OFF, with the range checks of R61; and the shared forms of a command's body over them. -/

namespace Sys2Proof.Machine

/-- ARG0 at issue, all 32 bits (R58). -/
def State.op0 (s : State) : Nat := s.latched.arg0.toNat

/-- ARG1 at issue, all 32 bits (R58). -/
def State.op1 (s : State) : Nat := s.latched.arg1.toNat

/-- The nonce of CBD2 and CBD3, and x of UNIF: ARG0[7:0] (R58). -/
def State.argByte0 (s : State) : Byte := s.latched.arg0.extractLsb' 0 8

/-- y of UNIF: ARG0[15:8] (R58). -/
def State.argByte1 (s : State) : Byte := s.latched.arg0.extractLsb' 8 8

/-- OFF of a codec command: an unsigned byte offset into BUF (R58, R66 (b)). -/
def State.off (s : State) : Nat := s.op0

/-- A slot number is in range (R61 (a)). -/
def slotInRange (p : Params) (n : Nat) : Bool := n < p.npoly

/-- K slots from a base are in range (R61 (a), (b)). -/
def vecInRange (p : Params) (n : Nat) : Bool := n + p.k ≤ p.npoly

/-- The window of `len` bytes at OFF fits in BUF, without wrap-around (R61 (c)). -/
def windowInRange (s : State) (len : Nat) : Bool := s.off + len ≤ s.params.bufBytes

/-- Run on a value that memory holds, or fault where a location of it is unwritten (10_state.md R36). -/
def withRead {α : Type} (r : Option α) (k : α → Host.Outcome State Fault Refusal) : Host.Outcome State Fault Refusal :=
  match r with
  | some v => k v
  | none => .fault .readUnwritten

/-- One result per lane, from the lane's index and coefficient (40_field_primitives.md R85). -/
def lanes (f : Nat → Word → Word) (cs : List Word) : List Word := cs.zipIdx.map fun x => f x.2 x.1

/-- One result per lane, from the lane's index and two coefficients (R85). -/
def lanes2 (f : Nat → Word → Word → Word) (bs cs : List Word) : List Word :=
  (bs.zip cs).zipIdx.map fun x => f x.2 x.1.1 x.1.2

/-- A poly-wise command of one source: every source coefficient is read before the destination is written (R62, R85). -/
def polyUnary (s : State) (a b : Slot) (f : Nat → Word → Word) : Host.Outcome State Fault Refusal :=
  command s true (slotInRange s.params a.toNat && slotInRange s.params b.toNat) [.slot a.toNat]
    (withRead (readSlot s.mem b.toNat) fun cs =>
      .next (succeed { s with mem := writeCoeffs s.mem a.toNat (lanes f cs) }))

/-- A poly-wise command of two sources (R62, R85). -/
def polyBinary (s : State) (a b c : Slot) (f : Nat → Word → Word → Word) : Host.Outcome State Fault Refusal :=
  command s true
    (slotInRange s.params a.toNat && slotInRange s.params b.toNat && slotInRange s.params c.toNat) [.slot a.toNat]
    (withRead (readSlot s.mem b.toNat) fun bs =>
      withRead (readSlot s.mem c.toNat) fun cs =>
        .next (succeed { s with mem := writeCoeffs s.mem a.toNat (lanes2 f bs cs) }))

/-- A poly-wise command of two destinations: low parts to slot a, high parts to slot c, which must differ (R60 (d),
R62, R85, log entry 14). -/
def polySplit (s : State) (a b c : Slot) (lo hi : Nat → Word → Word) : Host.Outcome State Fault Refusal :=
  command s (a ≠ c)
    (slotInRange s.params a.toNat && slotInRange s.params b.toNat && slotInRange s.params c.toNat)
    [.slot a.toNat, .slot c.toNat]
    (withRead (readSlot s.mem b.toNat) fun cs =>
      .next (succeed
        { s with mem := writeCoeffs (writeCoeffs s.mem a.toNat (lanes lo cs)) c.toNat (lanes hi cs) }))

/-- A pack command of one source slot and a window of `len` bytes (42_codec.md R103). -/
def packSlot (s : State) (b : Slot) (len : Nat) (enc : List Word → List Byte) : Host.Outcome State Fault Refusal :=
  command s true (slotInRange s.params b.toNat && windowInRange s len) [.window s.off len]
    (withRead (readSlot s.mem b.toNat) fun cs =>
      .next (succeed { s with mem := memWrite s.mem s.off (enc cs) }))

/-- An unpack command of one destination slot, which never fails (42_codec.md R104). -/
def unpackSlot (s : State) (a : Slot) (len : Nat) (dec : List Byte → List Word) : Host.Outcome State Fault Refusal :=
  command s true (slotInRange s.params a.toNat && windowInRange s len) [.slot a.toNat]
    (withRead (memRead s.mem s.off len) fun w =>
      .next (succeed { s with mem := writeCoeffs s.mem a.toNat (dec w) }))

/-- The completion of an unpack that may reject its window: `count` coefficients from slot n, all 0 on rejection, and
DFAIL as the answer (42_codec.md R115, R118, 60_exceptions.md R126). -/
def deliver (s : State) (n count : Nat) (r : Option (List Word)) : State :=
  match r with
  | some cs => complete { s with mem := writeCoeffs s.mem n cs } .ok false
  | none => complete { s with mem := writeCoeffs s.mem n (List.replicate count 0) } .ok true

end Sys2Proof.Machine
end

