-- ==== Sys2Proof/Machine/Codec.lean ====
section
/-! DEFINITION. The maps of the canonical codec (42_codec.md) as functions on coefficients and bytes: the dense encode
and decode maps (section 2), the hint vector (section 3) and the challenge (section 4). -/

namespace Sys2Proof.Machine

/-! ## Dense codecs -/

/-- LEN of a dense codec of width w: N·w/8 bytes (R102). -/
def denseLen (w : Nat) : Nat := ringDegree * w / 8

/-- The T1 encode map on its domain [0, 512) (R106). -/
def encT1 (c : Nat) : Option Nat := if c < 512 then some c else none

/-- The T1 decode map (R107). -/
def decT1 (v : Nat) : Nat := v

/-- The T0 encode map on its domain (Q − 2^(D−1), Q + 2^(D−1)] (R108, log entry 22). -/
def encT0 (p : Params) (c : Nat) : Option Nat :=
  if p.q - 2 ^ (p.d - 1) < c ∧ c ≤ p.q + 2 ^ (p.d - 1) then some (p.q + 2 ^ (p.d - 1) - c) else none

/-- The T0 decode map (R109). -/
def decT0 (p : Params) (v : Nat) : Nat := p.q + 2 ^ (p.d - 1) - v

/-- The Eta encode map on its domain [Q − ETA, Q + ETA] (R110). -/
def encEta (p : Params) (c : Nat) : Option Nat :=
  if p.q - p.eta ≤ c ∧ c ≤ p.q + p.eta then some (p.q + p.eta - c) else none

/-- The Eta decode map (R111). -/
def decEta (p : Params) (v : Nat) : Nat := p.q + p.eta - v

/-- The Gamma1 encode map on its domain [0, GAMMA1) ∪ (Q − GAMMA1, Q): (GAMMA1 − 1 − c) mod Q (R112). -/
def encG1 (p : Params) (c : Nat) : Option Nat :=
  if c < p.gamma1 ∨ (p.q - p.gamma1 < c ∧ c < p.q) then some (((p.gamma1 : Int) - 1 - c) % p.q).toNat else none

/-- The Gamma1 decode map (R113). -/
def decG1 (p : Params) (v : Nat) : Nat :=
  let d : Int := (p.gamma1 : Int) - 1 - v
  (if 0 ≤ d then d else d + p.q).toNat

/-- The field of a coefficient: its code, or any w-bit value outside the domain (R104, log entry 4). -/
def denseField (event w : Nat) (enc : Nat → Option Nat) (i : Nat) (c : Word) : Nat :=
  match enc c.toNat with
  | some v => v
  | none => (Config.anyWord event i).toNat % 2 ^ w

/-- DensePack (R104). -/
def densePack (event w : Nat) (enc : Nat → Option Nat) (cs : List Word) : List Byte :=
  packFields w (denseLen w) (cs.zipIdx.map fun x => denseField event w enc x.2 x.1)

/-- DenseUnpack (R104). -/
def denseUnpack (w : Nat) (dec : Nat → Nat) (bs : List Byte) : List Word :=
  (fields w ringDegree bs).map fun v => u32 (dec v)

/-! ## Hint vector -/

/-- LEN of the hint codec: OMEGA + K bytes (R102). -/
def hintLen (p : Params) : Nat := p.omega + p.k

/-- The ascending indices of the set bits of an element (R114). -/
def hintIndices (h : List Word) : List Nat := (h.zipIdx.filter fun x => x.1 = 1).map (·.2)

/-- A VecK that PKHINT packs: 0/1 coefficients, at most OMEGA ones (R114). -/
def validHint (p : Params) (hs : List (List Word)) : Bool :=
  hs.all (fun h => h.all fun c => c = 0 || c = 1) && (hs.flatMap hintIndices).length ≤ p.omega

/-- The switch-over points: for each element, how many indices it and those before it have, on top of `k` (R114). -/
def switchPoints : Nat → List (List Word) → List Nat
  | _, [] => []
  | k, h :: hs => (k + (hintIndices h).length) :: switchPoints (k + (hintIndices h).length) hs

/-- packHint of a valid VecK: the indices of every element in order, zero padding to OMEGA, the switch-over points
(R114). -/
def packHint (p : Params) (hs : List (List Word)) : List Byte :=
  let ix := hs.flatMap hintIndices
  (ix ++ List.replicate (p.omega - ix.length) 0 ++ switchPoints 0 hs).map (BitVec.ofNat 8)

/-- Each entry is larger than the one before it (R115). -/
def strictlyRising : List Nat → Bool
  | a :: b :: rest => decide (a < b) && strictlyRising (b :: rest)
  | _ => true

/-- The element whose set bits are the listed indices (R115). -/
def elementOf (ix : List Nat) : List Word := (List.range ringDegree).map fun j => if j ∈ ix then 1 else 0

/-- The loop of unpackHint over the switch-over points that remain, `k` index bytes being used: the elements, or none
where a check fails; after the last one every index byte left must be 0 (R115). -/
def unpackElements (p : Params) (ix : List Nat) (k : Nat) : List Nat → Option (List (List Word))
  | [] => if (ix.drop k).all (· = 0) then some [] else none
  | sw :: rest =>
    let mine := (ix.drop k).take (sw - k)
    if k ≤ sw ∧ sw ≤ p.omega ∧ strictlyRising mine then (unpackElements p ix sw rest).map (elementOf mine :: ·)
    else none

/-- unpackHint of a window of OMEGA + K bytes (R115). -/
def unpackHint (p : Params) (w : List Byte) : Option (List (List Word)) :=
  unpackElements p ((w.take p.omega).map BitVec.toNat) 0 ((w.drop p.omega).map BitVec.toNat)

/-! ## Challenge -/

/-- LEN of the challenge codec (R102). -/
def chalLen : Nat := 40

/-- A poly that PKCHAL packs: exactly TAU nonzero coefficients, each 1 or Q − 1 (R117). -/
def validChal (p : Params) (cs : List Word) : Bool :=
  (cs.filter (· ≠ 0)).length = tau && cs.all fun c => c = 0 || c = 1 || c = u32 (p.q - 1)

/-- packChallenge of a valid challenge: mask bit i is whether coefficient i is nonzero, sign bit k whether the k-th
nonzero coefficient is Q − 1; the mask's 256 bits, then the 64 sign bits, least significant first (R117). -/
def packChal (p : Params) (cs : List Word) : List Byte :=
  let mask := ofDigits 1 (cs.map fun c => if c ≠ 0 then 1 else 0)
  let signs := ofDigits 1 ((cs.filter (· ≠ 0)).map fun c => if c = u32 (p.q - 1) then 1 else 0)
  bytesOfNum 32 mask ++ bytesOfNum 8 signs

/-- The coefficients of mask bits, ascending, taking a sign bit for each one set (R118). -/
def chalCoeffs (q : Nat) : List Nat → Nat → List Word
  | [], _ => []
  | m :: ms, signs =>
    if m = 1 then (if signs % 2 = 1 then u32 (q - 1) else 1) :: chalCoeffs q ms (signs / 2)
    else 0 :: chalCoeffs q ms signs

/-- unpackChallenge of a window of 40 bytes (R118). -/
def unpackChal (p : Params) (w : List Byte) : Option (List Word) :=
  let mask := numOfBytes (w.take 32)
  let signs := numOfBytes (w.drop 32)
  if signs / 2 ^ 60 ≠ 0 ∨ popcount 256 mask ≠ tau then none
  else some (chalCoeffs p.q (digits 1 256 mask) signs)

end Sys2Proof.Machine
end

