-- ==== Sys2Proof/Machine/Dense.lean ====
section
/-! DEFINITION. The dense codec commands (42_codec.md section 2). -/

namespace Sys2Proof.Machine

/-- PKT1 pB (R106). -/
def execPkt1 (b : Slot) (s : State) : Host.Outcome State Fault Refusal :=
  packSlot s b (denseLen 9) (densePack s.draws 9 encT1)

/-- UPKT1 pA (R107). -/
def execUpkt1 (a : Slot) (s : State) : Host.Outcome State Fault Refusal :=
  unpackSlot s a (denseLen 9) (denseUnpack 9 decT1)

/-- PKT0 pB (R108). -/
def execPkt0 (b : Slot) (s : State) : Host.Outcome State Fault Refusal :=
  packSlot s b (denseLen 14) (densePack s.draws 14 (encT0 s.params))

/-- UPKT0 pA (R109). -/
def execUpkt0 (a : Slot) (s : State) : Host.Outcome State Fault Refusal :=
  unpackSlot s a (denseLen 14) (denseUnpack 14 (decT0 s.params))

/-- PKETA pB (R110). -/
def execPketa (b : Slot) (s : State) : Host.Outcome State Fault Refusal :=
  packSlot s b (denseLen s.params.detaBits) (densePack s.draws s.params.detaBits (encEta s.params))

/-- UPKETA pA (R111). -/
def execUpketa (a : Slot) (s : State) : Host.Outcome State Fault Refusal :=
  unpackSlot s a (denseLen s.params.detaBits) (denseUnpack s.params.detaBits (decEta s.params))

/-- PKG1 pB (R112). -/
def execPkg1 (b : Slot) (s : State) : Host.Outcome State Fault Refusal :=
  packSlot s b (denseLen 20) (densePack s.draws 20 (encG1 s.params))

/-- UPKG1 pA (R113). -/
def execUpkg1 (a : Slot) (s : State) : Host.Outcome State Fault Refusal :=
  unpackSlot s a (denseLen 20) (denseUnpack 20 (decG1 s.params))

end Sys2Proof.Machine
end

