-- ==== Sys2Proof/Machine/Field.lean ====
section
/-! DEFINITION. The six functions of the field primitives (40_field_primitives.md section 1), on mathematical integers
(R77), and their lane forms with `any` outside the domain (R67). -/

namespace Sys2Proof.Machine

/-- RFULL_f (R68). -/
def rfullF (p : Params) (x : Nat) : Nat := x % p.q

/-- RP_REF(x) = x[22:0] + x[31:23]·(2^13 − 1), for a u32 (R70). -/
def rpRef (x : Nat) : Nat := x % 2 ^ 23 + x / 2 ^ 23 * (2 ^ 13 - 1)

/-- RP (R69, R70). A chip other than REF returns x mod Q or x mod Q + Q, the two values the contract allows; which one
is open (log entry 2). -/
def rpF (p : Params) (x : Nat) : Nat :=
  match p.rp with
  | .ref => rpRef x
  | .contractOnly => x % p.q + if Config.rpHigh (u32 x) then p.q else 0

/-- The low part cmod(a, 2^D) of power2round (R71). -/
def p2rLow (p : Params) (a : Nat) : Int := cmod a (2 ^ p.d)

/-- P2R_f (R71): (Q + a0, a1). -/
def p2rF (p : Params) (a : Nat) : Nat × Nat :=
  ((p.q + p2rLow p a).toNat, ((a - p2rLow p a) / 2 ^ p.d).toNat)

/-- The naive low part cmod(a, ALPHA) of decompose (R72). -/
def decLow (p : Params) (a : Nat) : Int := cmod a p.alpha

/-- The naive high part of decompose (R72). -/
def decHigh (p : Params) (a : Nat) : Int := (a - decLow p a) / p.alpha

/-- DEC_f (R72): (Q + a0, a1), with the special case at the wrap point M. -/
def decF (p : Params) (a : Nat) : Nat × Nat :=
  if decHigh p a = p.m then ((p.q + (decLow p a - 1)).toNat, 0)
  else ((p.q + decLow p a).toNat, (decHigh p a).toNat)

/-- MKH_f (R73). -/
def mkhF (p : Params) (z0 r1 : Nat) : Nat := if (decF p ((z0 + p.alpha * r1) % p.q)).2 ≠ r1 then 1 else 0

/-- USEH_f (R75). -/
def usehF (p : Params) (r h : Nat) : Nat :=
  let d := decF p (r % p.q)
  if h = 0 then d.2
  else if p.q < d.1 then (d.2 + 1) % p.m
  else (d.2 + p.m - 1) % p.m

/-- One result of a one-input function with domain [0, Q): `any` outside it (R67). -/
def belowQ (p : Params) (f : Nat → Nat) (any : Word) (x : Word) : Word := if x.toNat < p.q then u32 (f x.toNat) else any

/-- The makeHint lane: domain z0 ∈ [0, 2Q), r1 ∈ [0, M−1] (R73, R83, R90). -/
def mkhLane (p : Params) (any z0 r1 : Word) : Word :=
  if z0.toNat < 2 * p.q ∧ r1.toNat < p.m then u32 (mkhF p z0.toNat r1.toNat) else any

/-- The useHint lane: domain r ∈ [0, 2Q), h ∈ {0, 1} (R75, R84, R91). -/
def usehLane (p : Params) (any r h : Word) : Word :=
  if r.toNat < 2 * p.q ∧ h.toNat < 2 then u32 (usehF p r.toNat h.toNat) else any

end Sys2Proof.Machine
end

