-- ==== Sys2Proof/Machine/Poly.lean ====
section
/-! DEFINITION. The poly-wise commands (40_field_primitives.md section 4). The free value of a lane is that of its own
destination coefficient (R85). -/

namespace Sys2Proof.Machine

/-- The free value of `poly[n][i]` in this step. -/
def anyLane (s : State) (n : Slot) (i : Nat) : Word := Config.anyWord s.draws (coeffAddr n.toNat i)

/-- VRFULL pA, pB (R86). -/
def execVrfull (a b : Slot) (s : State) : Host.Outcome State Fault Refusal :=
  polyUnary s a b fun _ x => u32 (rfullF s.params x.toNat)

/-- VRPART pA, pB (R87). -/
def execVrpart (a b : Slot) (s : State) : Host.Outcome State Fault Refusal :=
  polyUnary s a b fun _ x => u32 (rpF s.params x.toNat)

/-- VP2R pA, pC, pB (R88). -/
def execVp2r (a b c : Slot) (s : State) : Host.Outcome State Fault Refusal :=
  polySplit s a b c
    (fun i x => belowQ s.params (fun v => (p2rF s.params v).1) (anyLane s a i) x)
    (fun i x => belowQ s.params (fun v => (p2rF s.params v).2) (anyLane s c i) x)

/-- VDECOMP pA, pC, pB (R89). -/
def execVdecomp (a b c : Slot) (s : State) : Host.Outcome State Fault Refusal :=
  polySplit s a b c
    (fun i x => belowQ s.params (fun v => (decF s.params v).1) (anyLane s a i) x)
    (fun i x => belowQ s.params (fun v => (decF s.params v).2) (anyLane s c i) x)

/-- VMKHINT pA, pB, pC (R90). -/
def execVmkhint (a b c : Slot) (s : State) : Host.Outcome State Fault Refusal :=
  polyBinary s a b c fun i z0 r1 => mkhLane s.params (anyLane s a i) z0 r1

/-- VUSEHINT pA, pB, pC (R91). -/
def execVusehint (a b c : Slot) (s : State) : Host.Outcome State Fault Refusal :=
  polyBinary s a b c fun i r h => usehLane s.params (anyLane s a i) r h

end Sys2Proof.Machine
end

