-- ==== Sys2Proof/Machine/Sampler.lean ====
section
/-! DEFINITION. The noise sampler (41_noise_sampler.md): CBD2, CBD3 and UNIF over the open streams XOF_N and XOF_U. -/

namespace Sys2Proof.Machine

/-- A sampler's named destinations (R95, R98, 60_exceptions.md R124). -/
def samplerDests (a : Slot) : List Dest := [.slot a.toNat, .xcnt]

/-- The coefficients CBD_η makes of 64·η stream bytes: group i is their 2η-bit field i, a its lower half, b its upper
half, and the coefficient Q + a − b, which is not negative since b ≤ η < Q (R94). -/
def cbdCoeffs (q eta : Nat) (bytes : List Byte) : List Word :=
  (fields (2 * eta) ringDegree bytes).map fun g => u32 (q + popcount eta (g % 2 ^ eta) - popcount eta (g / 2 ^ eta))

/-- CBD (R94), as one engine step. SEED is read to absorb the message, before the stream can fail (log entry 5). -/
def cbd (s : State) (eta : Nat) (a : Slot) : Host.Outcome State Fault Refusal :=
  command s true (slotInRange s.params a.toNat) (samplerDests a)
    (withRead (readSeed s.mem s.params) fun seed =>
      unlessXofFails s (samplerDests a) (.next (succeed
        { s with
          mem := writeCoeffs s.mem a.toNat
            (cbdCoeffs s.params.q eta ((List.range (64 * eta)).map (Config.xofN (seed ++ [s.argByte0]))))
          xcnt := u32 (64 * eta) })))

/-- CBD2 pA (R95). -/
def execCbd2 (a : Slot) (s : State) : Host.Outcome State Fault Refusal := cbd s 2 a

/-- CBD3 pA (R96). -/
def execCbd3 (a : Slot) (s : State) : Host.Outcome State Fault Refusal := cbd s 3 a

/-- The value of chunk j of a stream: its low UKEEP bits (R98). -/
def unifChunk (p : Params) (stream : Nat → Byte) (j : Nat) : Nat := fld stream p.ubits j % 2 ^ p.ukeep

/-- The loop state after one more chunk: accepted if it is below Q (R98). -/
def unifNext (p : Params) (l : UnifLoop) : UnifLoop :=
  let v := unifChunk p (Config.xofU l.msg) l.chunks
  { l with
    chunks := l.chunks + 1
    accepted := if v < p.q then l.accepted ++ [u32 v] else l.accepted }

/-- The slot UNIF writes: `poly[A][TANGLE(i)] <- s[i]` (R98, R101). -/
def tangled (p : Params) (accepted : List Word) : List Word :=
  (p.tangle.zip accepted).foldl (fun poly x => poly.set x.1 x.2) (List.replicate ringDegree 0)

/-- The bytes that hold chunks 0 to j − 1 (R98). -/
def unifBytes (p : Params) (j : Nat) : Nat := (p.ubits * j + 7) / 8

/-- XCNT after j chunks (R98). No rule says what XCNT holds once the count is 2^32 or more: a free value (log entry
11). -/
def unifCount (s : State) (j : Nat) : Word :=
  if unifBytes s.params j < 2 ^ 32 then u32 (unifBytes s.params j) else Config.anyWord s.draws xcntAt

/-- One chunk of UNIF (R100): the step that accepts the 256th chunk writes the slot and completes; any other step
leaves the command RUNNING with its loop state advanced, and nothing visible changed. -/
def unifStep (s : State) (a : Slot) (l : UnifLoop) : State :=
  let l' := unifNext s.params l
  if l'.accepted.length < ringDegree then
    schedule { s with engine := .running s.latched (some l') false, draws := s.draws + 1 }
  else
    succeed { s with
      mem := writeCoeffs s.mem a.toNat (tangled s.params l'.accepted)
      xcnt := unifCount s l'.chunks }

/-- UNIF pA (R98, R100). Its first step makes the checks and absorbs `SEED ‖ [x] ‖ [y]`; a later step takes only a
pending abort and the failure draw before its chunk (60_exceptions.md R121, R125, log entry 20). -/
def execUnif (a : Slot) (s : State) : Host.Outcome State Fault Refusal :=
  match s.loop with
  | none =>
    command s true (slotInRange s.params a.toNat) (samplerDests a)
      (withRead (readSeed s.mem s.params) fun seed =>
        unlessXofFails s (samplerDests a)
          (.next (unifStep s a ⟨seed ++ [s.argByte0, s.argByte1], 0, []⟩)))
  | some l =>
    if s.abortPending then .next (abortWith s (samplerDests a))
    else unlessXofFails s (samplerDests a) (.next (unifStep s a l))

end Sys2Proof.Machine
end

