-- ==== Sys2Proof/Machine/Scalar.lean ====
section
/-! DEFINITION. NOP and the scalar commands (40_field_primitives.md sections 2 and 3). -/

namespace Sys2Proof.Machine

/-- NOP (R78): nothing beyond the status of completion. -/
def execNop (s : State) : Host.Outcome State Fault Refusal :=
  command s true true [] (.next (succeed s))

/-- RFULL (R79). -/
def execRfull (s : State) : Host.Outcome State Fault Refusal :=
  command s true true [.res0] (.next (succeed { s with res0 := u32 (rfullF s.params s.op0) }))

/-- RPART (R80). -/
def execRpart (s : State) : Host.Outcome State Fault Refusal :=
  command s true true [.res0] (.next (succeed { s with res0 := u32 (rpF s.params s.op0) }))

/-- P2R (R81). -/
def execP2r (s : State) : Host.Outcome State Fault Refusal :=
  command s true true [.res0, .res1] (.next (succeed
    { s with
      res0 := belowQ s.params (fun a => (p2rF s.params a).1) (Config.anyWord s.draws res0At) s.latched.arg0
      res1 := belowQ s.params (fun a => (p2rF s.params a).2) (Config.anyWord s.draws res1At) s.latched.arg0 }))

/-- DECOMP (R82). -/
def execDecomp (s : State) : Host.Outcome State Fault Refusal :=
  command s true true [.res0, .res1] (.next (succeed
    { s with
      res0 := belowQ s.params (fun a => (decF s.params a).1) (Config.anyWord s.draws res0At) s.latched.arg0
      res1 := belowQ s.params (fun a => (decF s.params a).2) (Config.anyWord s.draws res1At) s.latched.arg0 }))

/-- MKHINT (R83). -/
def execMkhint (s : State) : Host.Outcome State Fault Refusal :=
  command s true true [.res0] (.next (succeed
    { s with res0 := mkhLane s.params (Config.anyWord s.draws res0At) s.latched.arg0 s.latched.arg1 }))

/-- USEHINT (R84). -/
def execUsehint (s : State) : Host.Outcome State Fault Refusal :=
  command s true true [.res0] (.next (succeed
    { s with res0 := usehLane s.params (Config.anyWord s.draws res0At) s.latched.arg0 s.latched.arg1 }))

end Sys2Proof.Machine
end

