-- ==== Sys2Proof/Machine/Sparse.lean ====
section
/-! DEFINITION. The sparse codec commands: the hint vector and the challenge (42_codec.md sections 3 and 4). -/

namespace Sys2Proof.Machine

/-- PKHINT pB (R114): an invalid VecK makes the whole window `any`. -/
def execPkhint (b : Slot) (s : State) : Host.Outcome State Fault Refusal :=
  command s true (vecInRange s.params b.toNat && windowInRange s (hintLen s.params)) [.window s.off (hintLen s.params)]
    (withRead (readSlots s.mem b.toNat s.params.k) fun hs =>
      .next (succeed { s with
        mem := memWrite s.mem s.off
          (if validHint s.params hs then packHint s.params hs else anyWindow s.draws s.off (hintLen s.params)) }))

/-- UPKHINT pA (R115): a rejected window zeroes all K slots and sets DFAIL. -/
def execUpkhint (a : Slot) (s : State) : Host.Outcome State Fault Refusal :=
  command s true (vecInRange s.params a.toNat && windowInRange s (hintLen s.params))
    ((List.range s.params.k).map fun i => .slot (a.toNat + i))
    (withRead (memRead s.mem s.off (hintLen s.params)) fun w =>
      .next (deliver s a.toNat (s.params.k * ringDegree) ((unpackHint s.params w).map List.flatten)))

/-- PKCHAL pB (R117): a slot that is no challenge makes the whole window `any`. -/
def execPkchal (b : Slot) (s : State) : Host.Outcome State Fault Refusal :=
  packSlot s b chalLen fun cs =>
    if validChal s.params cs then packChal s.params cs else anyWindow s.draws s.off chalLen

/-- UPKCHAL pA (R118): a rejected window zeroes the slot and sets DFAIL. -/
def execUpkchal (a : Slot) (s : State) : Host.Outcome State Fault Refusal :=
  command s true (slotInRange s.params a.toNat && windowInRange s chalLen) [.slot a.toNat]
    (withRead (memRead s.mem s.off chalLen) fun w =>
      .next (deliver s a.toNat ringDegree (unpackChal s.params w)))

end Sys2Proof.Machine
end

