-- ==== Sys2Proof/Machine/Dispatch.lean ====
section
/-! DEFINITION. One arm per command: the engine step that runs it (60_exceptions.md R121, 30_encoding.md R59). -/

namespace Sys2Proof.Machine

def exec (i : Instr) (s : State) : Host.Outcome State Fault Refusal :=
  match i with
  | .nop => Sys2Proof.Machine.execNop s
  | .rfull => Sys2Proof.Machine.execRfull s
  | .rpart => Sys2Proof.Machine.execRpart s
  | .p2r => Sys2Proof.Machine.execP2r s
  | .decomp => Sys2Proof.Machine.execDecomp s
  | .mkhint => Sys2Proof.Machine.execMkhint s
  | .usehint => Sys2Proof.Machine.execUsehint s
  | .vrfull a b => Sys2Proof.Machine.execVrfull a b s
  | .vrpart a b => Sys2Proof.Machine.execVrpart a b s
  | .vp2r a b c => Sys2Proof.Machine.execVp2r a b c s
  | .vdecomp a b c => Sys2Proof.Machine.execVdecomp a b c s
  | .vmkhint a b c => Sys2Proof.Machine.execVmkhint a b c s
  | .vusehint a b c => Sys2Proof.Machine.execVusehint a b c s
  | .cbd2 a => Sys2Proof.Machine.execCbd2 a s
  | .cbd3 a => Sys2Proof.Machine.execCbd3 a s
  | .unif a => Sys2Proof.Machine.execUnif a s
  | .pkt1 b => Sys2Proof.Machine.execPkt1 b s
  | .upkt1 a => Sys2Proof.Machine.execUpkt1 a s
  | .pkt0 b => Sys2Proof.Machine.execPkt0 b s
  | .upkt0 a => Sys2Proof.Machine.execUpkt0 a s
  | .pketa b => Sys2Proof.Machine.execPketa b s
  | .upketa a => Sys2Proof.Machine.execUpketa a s
  | .pkg1 b => Sys2Proof.Machine.execPkg1 b s
  | .upkg1 a => Sys2Proof.Machine.execUpkg1 a s
  | .pkhint b => Sys2Proof.Machine.execPkhint b s
  | .upkhint a => Sys2Proof.Machine.execUpkhint a s
  | .pkchal b => Sys2Proof.Machine.execPkchal b s
  | .upkchal a => Sys2Proof.Machine.execUpkchal a s

end Sys2Proof.Machine
end

