-- ==== Sys2Proof/Machine/Engine.lean ====
section
/-! DEFINITION. The engine agent's step (60_exceptions.md R121) and the issue of a command (R120). -/

namespace Sys2Proof.Machine

/-- The engine runs the latched command word: one step of the command it decodes to, or the completion of an ILLEGAL
word (R121, 30_encoding.md R60). -/
def engineStep (s : State) : Host.Outcome State Fault Refusal :=
  match decode s.latched.word with
  | .ok i => exec i s
  | .error _ => .next (illegalCommand s)

/-- The OP field alone says whether a word is a sampler's: CBD2, CBD3 or UNIF (R120, 90_conflicts.md C13). -/
def isSamplerWord (w : Word) : Bool := (fieldsOf w).op = 0x20 || (fieldsOf w).op = 0x21 || (fieldsOf w).op = 0x22

/-- What an issue does to the engine: latch the word with ARG0 and ARG1, RUNNING, DONE, DFAIL and ERR cleared, and
XCNT cleared for a sampler word. Nothing is checked, and WERR and FATAL stay (R120). -/
def latch (s : State) (w : Word) : State :=
  { s with
    cmd := w
    engine := .running ⟨w, s.arg0, s.arg1⟩ none false
    done := false
    dfail := false
    err := .ok
    xcnt := if isSamplerWord w then 0 else s.xcnt
    draws := s.draws + 1 }

/-- An issue (R120), which also fixes when the engine's first step comes (R121). -/
def issue (s : State) (w : Word) : State := latch (schedule s) w

end Sys2Proof.Machine
end

