-- ==== Sys2Proof/Machine/Port.lean ====
section
/-! DEFINITION. The host agent's steps on the register port (20_memory.md, 10_state.md section 3,
70_reset_and_hazards.md R138 to R145) and the host program's pseudo-instructions (30_encoding.md R64). -/

namespace Sys2Proof.Machine

/-- What stands at a port offset (20_memory.md R41 to R45). A memory word carries its own offset. -/
inductive Target where
  | id | cfgQ | cfg0 | cfgG1 | cfgG2 | cfg1 | cfgBuf | cfg2
  | cmd | status | ctrl | xcnt
  | arg0 | arg1 | res0 | res1
  | seed (a : Nat)
  | buf (a : Nat)
  | poly (a : Nat)
  | reserved
  deriving DecidableEq, Repr

/-- The address at which the host's own bus sees a port offset (R40). No rule depends on it. -/
def hostAddress (off : BitVec 15) : Nat := Config.mreBase + off.toNat

/-- The windows of the address map (R42 to R45), for an aligned offset. -/
def windowTarget (p : Params) (a : Nat) : Target :=
  if 0x0080 ≤ a ∧ a < 0x0080 + p.seedBytes then .seed a
  else if 0x1000 ≤ a ∧ a < 0x1000 + p.bufBytes then .buf a
  else if 0x4000 ≤ a ∧ a < 0x4000 + 1024 * p.npoly then .poly a
  else .reserved

/-- The address map (R41), for an aligned offset. -/
def target (p : Params) (off : BitVec 15) : Target :=
  match off.toNat with
  | 0x000 => .id
  | 0x004 => .cfgQ
  | 0x008 => .cfg0
  | 0x00C => .cfgG1
  | 0x010 => .cfgG2
  | 0x014 => .cfg1
  | 0x018 => .cfgBuf
  | 0x01C => .cfg2
  | 0x020 => .cmd
  | 0x024 => .status
  | 0x028 => .ctrl
  | 0x02C => .xcnt
  | 0x030 => .arg0
  | 0x034 => .arg1
  | 0x038 => .res0
  | 0x03C => .res1
  | a => windowTarget p a

/-- A read whose value is open while BUSY = 1 (70_reset_and_hazards.md R144): `any` in place of the stored value. An
unwritten location has none to replace and faults at any time (10_state.md R36, log entry 10). -/
def unlessBusy (s : State) (off : BitVec 15) (v : Option Word) : Option Word :=
  v.map fun stored => if s.busy then Config.anyWord s.draws off.toNat else stored

/-- The word the port answers to a read of an aligned offset; none where it touches an unwritten location
(10_state.md R21 to R32, R36, 70_reset_and_hazards.md R144). -/
def portRead (s : State) (off : BitVec 15) : Option Word :=
  match target s.params off with
  | .id => some s.params.idValue
  | .cfgQ => some (u32 s.params.q)
  | .cfg0 => some (cfg0Word s.params)
  | .cfgG1 => some (u32 s.params.gamma1)
  | .cfgG2 => some (u32 s.params.gamma2)
  | .cfg1 => some (cfg1Word s.params)
  | .cfgBuf => some (u32 s.params.bufBytes)
  | .cfg2 => some (u32 s.params.ukeep)
  | .cmd => some s.cmd
  | .status => some (statusWord s)
  | .ctrl => some (ctrlWord s)
  | .xcnt => unlessBusy s off (some s.xcnt)
  | .arg0 => some s.arg0
  | .arg1 => some s.arg1
  | .res0 => unlessBusy s off (some s.res0)
  | .res1 => unlessBusy s off (some s.res1)
  | .seed a => readWord s.mem a
  | .buf a | .poly a => unlessBusy s off (readWord s.mem a)
  | .reserved => some 0

/-- A write that is dropped, with WERR, while BUSY = 1 (70_reset_and_hazards.md R143). -/
def dropIfBusy (s : State) (s' : State) : State := if s.busy then { s with werr := true } else s'

/-- A STATUS write: a 1 clears DONE [1] and WERR [8], the W1C bits (10_state.md R28). -/
def writeStatus (s : State) (v : Word) : State :=
  { s with done := s.done && !v.getLsbD 1, werr := s.werr && !v.getLsbD 8 }

/-- A CTRL write (10_state.md R30): SRST [2] alone resets the engine (70_reset_and_hazards.md R139); else IE [0] is
written, and ABORT [1] records a pending abort while BUSY = 1 (60_exceptions.md R128). -/
def writeCtrl (s : State) (v : Word) : State :=
  if v.getLsbD 2 then resetEngine s
  else
    { s with
      ie := v.getLsbD 0
      engine :=
        match s.engine with
        | .idle => .idle
        | .running l u b => .running l u (b || v.getLsbD 1) }

/-- A write of a word to an aligned offset (10_state.md R21 to R32, 20_memory.md R42 to R45). -/
def portWrite (s : State) (off : BitVec 15) (v : Word) : State :=
  match target s.params off with
  | .cmd => dropIfBusy s (issue s v)
  | .status => writeStatus s v
  | .ctrl => writeCtrl s v
  | .arg0 => dropIfBusy s { s with arg0 := v }
  | .arg1 => dropIfBusy s { s with arg1 := v }
  | .seed a | .buf a | .poly a => dropIfBusy s { s with mem := writeBytes s.mem a (bytesOfWord v) }
  | .id | .cfgQ | .cfg0 | .cfgG1 | .cfgG2 | .cfg1 | .cfgBuf | .cfg2 | .xcnt | .res0 | .res1 | .reserved => s

/-- Whether an access is carried out: a full word at an offset with A[1:0] = 0 (20_memory.md R48). -/
def wholeWord (size : AccessSize) (off : BitVec 15) : Bool := size = .word && off.toNat % 4 = 0

/-- Set a host variable, keeping the names in rising order. -/
def setVar (vars : List (Nat × Word)) (r : Nat) (v : Word) : List (Nat × Word) :=
  vars.filter (fun x => x.1 < r) ++ (r, v) :: vars.filter (fun x => r < x.1)

/-- A read access into a host variable. It touches no engine state (20_memory.md R50); only the number of the next
draw goes on. -/
def hostRead (s : State) (size : AccessSize) (r : Nat) (off : BitVec 15) : Host.Outcome State Fault Refusal :=
  if wholeWord size off then
    match portRead s off with
    | some v => .next { s with vars := setVar s.vars r v, draws := s.draws + 1 }
    | none => .fault .readUnwritten
  else .fault .busError

/-- The offset of STATUS (10_state.md R28). -/
def statusOff : BitVec 15 := 0x024

/-- One host step in a state from whose queue `op` is already taken; a wait that goes on puts itself back (30_encoding.md
R64, 20_memory.md R52, 70_reset_and_hazards.md R138). -/
def hostStep (s : State) (op : HostOp) : Host.Outcome State Fault Refusal :=
  match op with
  | .wr size off v => if wholeWord size off then .next (portWrite s off v) else .fault .busError
  | .rd size r off => hostRead s size r off
  | .wait r => hostRead (if s.busy then { s with host := .wait r :: s.host } else s) .word r statusOff
  | .waitIrq => .next (if s.irq then s else { s with host := .waitIrq :: s.host })
  | .hardReset => .next (resetEngine s)

/-- Whose turn it is (60_exceptions.md R121, log entry 6). -/
inductive Turn where
  | engine
  | host (op : HostOp) (rest : List HostOp)
  /-- IDLE and no host step left: the run has ended (70_reset_and_hazards.md R147, log entry 17). -/
  | nobody
  deriving DecidableEq, Repr

/-- While RUNNING the engine moves once the schedule's host steps are taken, or when the host has none left; the host
moves otherwise. -/
def turn (s : State) : Turn :=
  match s.host with
  | [] => if s.busy then .engine else .nobody
  | op :: rest => if s.busy && s.hostTurns = 0 then .engine else .host op rest

/-- One step of the machine: an engine step, a host step, or none left to take, where the engine idles unchanged
(60_exceptions.md R136). -/
def machineStep (s : State) : Host.Outcome State Fault Refusal :=
  match turn s with
  | .engine => engineStep s
  | .host op rest => hostStep { s with host := rest, hostTurns := s.hostTurns - 1 } op
  | .nobody => .next s

/-! ## Pseudo-instructions of a host program (30_encoding.md R64) -/

/-- `WR off, v`. -/
def wr (off : Nat) (v : Word) : HostOp := .wr .word (BitVec.ofNat 15 off) v

/-- `RD r, off`. -/
def rd (r off : Nat) : HostOp := .rd .word r (BitVec.ofNat 15 off)

/-- `ISSUE cmd`. -/
def issueOp (i : Instr) : HostOp := wr 0x020 (encode i)

/-- `RUN cmd`, its wait reading into the host variable r. -/
def runOps (i : Instr) (r : Nat) : List HostOp := [issueOp i, .wait r]

/-- `ARG0 v`. -/
def arg0Op (v : Word) : HostOp := wr 0x030 v

/-- `ARG1 v`. -/
def arg1Op (v : Word) : HostOp := wr 0x034 v

/-- `ACK`. -/
def ackOp : HostOp := wr 0x024 0x00000102#32

/-- `WRPOLY s, [c0, …]`. -/
def wrPoly (s : Nat) (cs : List Word) : List HostOp := cs.zipIdx.map fun x => wr (coeffAddr s x.2) x.1

/-- `WRBUF off, [b0, …]`, off a multiple of 4. R64 does not say what is written of a last word that the bytes only fill in
part; that no such word is written is the model's choice (log entry 24). -/
def wrBuf (off : Nat) (bs : List Byte) : List HostOp :=
  (wordsOfBytes bs).zipIdx.map fun x => wr (bufBase + off + 4 * x.2) x.1

end Sys2Proof.Machine
end

