-- ==== Sys2Proof/Machine/Step.lean ====
section
/-! DEFINITION. The machine's step, and how the host of this row places a command where the next step runs it. -/

namespace Sys2Proof.Machine

/-- One step of the machine (60_exceptions.md R121, 70_reset_and_hazards.md R147), without a time (R146, log entry
19). -/
def step (s : State) : Host.Outcome State Fault Refusal := machineStep s

/-- The engine fetches nothing (10_state.md R20): a command comes to run when the host writes its word to CMD. This is
that issue (60_exceptions.md R120), with the schedule giving the engine the next step (log entry 13). -/
def State.withFetchWord (s : State) (nbits w : Nat) : State :=
  { latch s (u32 (w % 2 ^ nbits)) with hostTurns := 0 }

end Sys2Proof.Machine
end

