-- ==== Sys2Proof/Safety.lean ====
section
/-! DEFINITION. The terms the statements use: when a command executes, what a completion leaves, what a command names
as its destinations, and the invariant of the machine. -/

namespace Sys2Proof.Machine

/-! ## Runs (70_reset_and_hazards.md R147) -/

/-- The host has taken its last step and BUSY = 0. -/
def State.ended (s : State) : Prop := s.host = [] ∧ s.busy = false

/-- A host write that R143 drops while BUSY = 1: a whole word to CMD, ARG0, ARG1, or a SEED, BUF or POLY word. -/
def Guarded (p : Params) (off : BitVec 15) : Prop :=
  off = 0x020 ∨ off = 0x030 ∨ off = 0x034 ∨
  (0x0080 ≤ off.toNat ∧ off.toNat < 0x0080 + p.seedBytes) ∨
  (0x1000 ≤ off.toNat ∧ off.toNat < 0x1000 + p.bufBytes) ∨
  (0x4000 ≤ off.toNat ∧ off.toNat < 0x4000 + 1024 * p.npoly)

/-! ## When a command executes (60_exceptions.md R125) -/

/-- No FATAL and no pending abort. -/
def Ready (s : State) : Prop := s.fatal = false ∧ s.abortPending = false

/-- LEN of a codec command (42_codec.md R102), none for the others. -/
def codecLen (p : Params) : Instr → Option Nat
  | .pkt1 _ | .upkt1 _ => some 288
  | .pkt0 _ | .upkt0 _ => some 448
  | .pketa _ | .upketa _ => some (32 * p.detaBits)
  | .pkg1 _ | .upkg1 _ => some 640
  | .pkhint _ | .upkhint _ => some (p.omega + p.k)
  | .pkchal _ | .upkchal _ => some 40
  | .nop | .rfull | .rpart | .p2r | .decomp | .mkhint | .usehint => none
  | .vrfull _ _ | .vrpart _ _ | .vp2r _ _ _ | .vdecomp _ _ _ | .vmkhint _ _ _ | .vusehint _ _ _ => none
  | .cbd2 _ | .cbd3 _ | .unif _ => none

/-- The command is not out of RANGE (30_encoding.md R61): its slots exist, the K slots of a hint command exist, and its
window fits in BUF. -/
def InRange (i : Instr) (s : State) : Prop :=
  (∀ n ∈ i.operands, n.toNat < s.params.npoly) ∧
  (∀ n, i = .pkhint n ∨ i = .upkhint n → n.toNat + s.params.k ≤ s.params.npoly) ∧
  (∀ len, codecLen s.params i = some len → s.off + len ≤ s.params.bufBytes)

/-! ## Destinations (60_exceptions.md R124, 20_memory.md R49) -/

/-- The command names RES0. -/
def namesRes0 : Instr → Bool
  | .rfull | .rpart | .p2r | .decomp | .mkhint | .usehint => true
  | _ => false

/-- The command names RES1. -/
def namesRes1 : Instr → Bool
  | .p2r | .decomp => true
  | _ => false

/-- The command names XCNT: it is a sampler. -/
def namesXcnt : Instr → Bool
  | .cbd2 _ | .cbd3 _ | .unif _ => true
  | _ => false

/-- The destination slots a command names. -/
def destSlots (p : Params) : Instr → List Nat
  | .vrfull a _ | .vrpart a _ | .vmkhint a _ _ | .vusehint a _ _ => [a.toNat]
  | .vp2r a _ c | .vdecomp a _ c => [a.toNat, c.toNat]
  | .cbd2 a | .cbd3 a | .unif a => [a.toNat]
  | .upkt1 a | .upkt0 a | .upketa a | .upkg1 a | .upkchal a => [a.toNat]
  | .upkhint a => (List.range p.k).map (a.toNat + ·)
  | .nop | .rfull | .rpart | .p2r | .decomp | .mkhint | .usehint => []
  | .pkt1 _ | .pkt0 _ | .pketa _ | .pkg1 _ | .pkhint _ | .pkchal _ => []

/-- The slots a command reads. -/
def sourceSlots (p : Params) : Instr → List Nat
  | .vrfull _ b | .vrpart _ b | .vp2r _ b _ | .vdecomp _ b _ => [b.toNat]
  | .vmkhint _ b c | .vusehint _ b c => [b.toNat, c.toNat]
  | .pkt1 b | .pkt0 b | .pketa b | .pkg1 b | .pkchal b => [b.toNat]
  | .pkhint b => (List.range p.k).map (b.toNat + ·)
  | .nop | .rfull | .rpart | .p2r | .decomp | .mkhint | .usehint => []
  | .cbd2 _ | .cbd3 _ | .unif _ => []
  | .upkt1 _ | .upkt0 _ | .upketa _ | .upkg1 _ | .upkhint _ | .upkchal _ => []

/-- Whether the command reads its window of BUF: it is an unpack. -/
def isUnpack : Instr → Bool
  | .upkt1 _ | .upkt0 _ | .upketa _ | .upkg1 _ | .upkhint _ | .upkchal _ => true
  | _ => false

/-- Whether the command writes its window of BUF: it is a pack. -/
def isPack : Instr → Bool
  | .pkt1 _ | .pkt0 _ | .pketa _ | .pkg1 _ | .pkhint _ | .pkchal _ => true
  | _ => false

/-- The port offset `x` is a byte of slot n. -/
def InSlot (n x : Nat) : Prop := 0x4000 + 1024 * n ≤ x ∧ x < 0x4000 + 1024 * n + 1024

/-- The port offset `x` is a byte of BUF[off .. off + len). -/
def InWindow (off len x : Nat) : Prop := 0x1000 + off ≤ x ∧ x < 0x1000 + off + len

/-- The port offset `x` is a byte the command names as a destination. -/
def Named (i : Instr) (s : State) (x : Nat) : Prop :=
  (∃ n ∈ destSlots s.params i, InSlot n x) ∨
  (isPack i = true ∧ ∃ len, codecLen s.params i = some len ∧ InWindow s.off len x)

/-- A location the command reads is unwritten (10_state.md R36): a coefficient of a source slot, a byte of an unpack's
window, or a byte of SEED for a sampler. -/
def ReadsUnwritten (i : Instr) (s : State) : Prop :=
  (∃ n ∈ sourceSlots s.params i, ∃ j < 256, readCoeff s.mem n j = none) ∨
  (isUnpack i = true ∧ ∃ len x, codecLen s.params i = some len ∧ x < len ∧ readByte s.mem (0x1000 + s.off + x) = none) ∨
  (namesXcnt i = true ∧ ∃ j < s.params.seedBytes, readByte s.mem (0x0080 + j) = none)

/-! ## What a step leaves -/

/-- What no command writes: the chip, CMD, WERR, IE, the argument registers, the host, its variables and the rest of
the schedule. -/
def Kept (s t : State) : Prop :=
  t.chip = s.chip ∧ t.cmd = s.cmd ∧ t.werr = s.werr ∧ t.ie = s.ie ∧ t.arg0 = s.arg0 ∧ t.arg1 = s.arg1 ∧
  t.host = s.host ∧ t.vars = s.vars ∧ t.hostTurns = s.hostTurns ∧ t.sched = s.sched

/-- The status of a completion (60_exceptions.md R122): IDLE, so BUSY 0 with no latched command, stream or abort; DONE 1;
ERR and DFAIL as given. -/
def Completed (t : State) (e : ErrCode) (dfail : Bool) : Prop :=
  t.engine = .idle ∧ t.done = true ∧ t.err = e ∧ t.dfail = dfail

/-- RES0, RES1, XCNT and FATAL as they were. -/
def ResultsKept (s t : State) : Prop :=
  t.res0 = s.res0 ∧ t.res1 = s.res1 ∧ t.xcnt = s.xcnt ∧ t.fatal = s.fatal

/-- The command is refused or ended with ERR = e and has no other effect than its completion. -/
def OnlyReports (s t : State) (e : ErrCode) : Prop :=
  Completed t e false ∧ Kept s t ∧ ResultsKept s t ∧ t.mem = s.mem

/-- The memory holds the coefficients c(0), …, c(255) in slot n. -/
def HoldsSlot (m : Memory) (n : Nat) (c : Nat → Word) : Prop := ∀ i < 256, readCoeff m n i = some (c i)

/-- The memory holds the bytes W(0), …, W(len − 1) in BUF from `off`. -/
def HoldsWindow (m : Memory) (off len : Nat) (W : Nat → Byte) : Prop :=
  ∀ k < len, readByte m (0x1000 + off + k) = some (W k)

/-- A completed command whose destinations are the slots `slots` only. -/
def WroteSlots (s t : State) (slots : List Nat) (dfail : Bool) : Prop :=
  Completed t .ok dfail ∧ Kept s t ∧ ResultsKept s t ∧
  ∀ x, (∀ n ∈ slots, ¬ InSlot n x) → readByte t.mem x = readByte s.mem x

/-- A completed command whose destination is the window of `len` bytes at OFF only. -/
def WroteWindow (s t : State) (len : Nat) : Prop :=
  Completed t .ok false ∧ Kept s t ∧ ResultsKept s t ∧
  ∀ x, ¬ InWindow s.off len x → readByte t.mem x = readByte s.mem x

/-! ## The invariant -/

/-- An offset of SEED, BUF or the poly RAM of the chip (20_memory.md R42 to R44). -/
def Mapped (p : Params) (x : Nat) : Prop :=
  (0x0080 ≤ x ∧ x < 0x0080 + p.seedBytes) ∨ (0x1000 ≤ x ∧ x < 0x1000 + p.bufBytes) ∨
  (0x4000 ≤ x ∧ x < 0x4000 + 1024 * p.npoly)

/-- The loop state of a UNIF between two steps (41_noise_sampler.md R98, R100): fewer than 256 values accepted, each
below Q and 2^UKEEP, and no more of them than chunks squeezed. -/
def LoopOk (p : Params) (l : UnifLoop) : Prop :=
  l.accepted.length < 256 ∧ l.accepted.length ≤ l.chunks ∧ ∀ v ∈ l.accepted, v.toNat < p.q ∧ v.toNat < 2 ^ p.ukeep

/-- What holds of the engine while it is RUNNING. -/
structure RunningOk (s : State) (cmd : Latched) (loop : Option UnifLoop) : Prop where
  /-- The latched command is CMD with ARG0 and ARG1, which cannot change (10_state.md R37 (b)). -/
  latched : cmd = ⟨s.cmd, s.arg0, s.arg1⟩
  /-- DONE, DFAIL and ERR stay as the issue cleared them (60_exceptions.md R120). -/
  status  : s.done = false ∧ s.dfail = false ∧ s.err = .ok
  /-- A loop state is that of a UNIF which passed its checks (R121). -/
  loop    : ∀ l, loop = some l →
    LoopOk s.params l ∧ s.fatal = false ∧ ∃ a : Slot, decode cmd.word = .ok (.unif a) ∧ a.toNat < s.params.npoly

/-- The invariant that every step keeps. -/
structure Inv (s : State) : Prop where
  /-- Memory is in canonical form. -/
  canonical : s.mem.wf
  /-- Only bytes that the chip has are written (20_memory.md R41). -/
  mapped    : ∀ c ∈ s.mem, Mapped s.params c.1
  running   : ∀ cmd loop abort, s.engine = .running cmd loop abort → RunningOk s cmd loop
  /-- A decode rejection is no error (60_exceptions.md R126). -/
  rejection : s.dfail = true → s.err = .ok
  /-- XOF_FAIL and FATAL are reported only with the sticky bit set (60_exceptions.md R127). -/
  sticky    : s.err = .xofFail ∨ s.err = .fatal → s.fatal = true
  /-- The host's variables are listed once each, names rising. -/
  vars      : s.vars.Pairwise fun x y => x.1 < y.1

end Sys2Proof.Machine
end

