-- ==== Sys2Proof/Certificates/Slice0/Obligations.lean ====
section
/-! DEFINITION. The statements for the provers, from the spec's numbered rules, and the terms they share. -/

namespace Sys2Proof.Claims

open Sys2Proof.Machine

/-! ## Terms: the port -/

/-- It is the host's turn, and its next step is `op`. -/
def HostDoes (s : State) (op : HostOp) (rest : List HostOp) : Prop :=
  s.host = op :: rest ∧ (s.busy = false ∨ s.hostTurns ≠ 0)

/-- `s` once the host has taken its first step, which itself does nothing. -/
def taken (s : State) (rest : List HostOp) : State := { s with host := rest, hostTurns := s.hostTurns - 1 }

/-- A whole-word read of an offset answers v and touches nothing (20_memory.md R50) but the host's variable and the
model's own counter of draws. -/
def ReadsAs (s : State) (off : BitVec 15) (v : Word) : Prop :=
  ∀ r rest, HostDoes s (.rd .word r off) rest →
    step s = .next { taken s rest with vars := setVar s.vars r v, draws := s.draws + 1 }

/-- A whole-word write of an offset is ignored, without WERR. -/
def WriteIgnored (s : State) (off : BitVec 15) : Prop :=
  ∀ v rest, HostDoes s (.wr .word off v) rest → step s = .next (taken s rest)

/-- An aligned offset that R41 to R45 leave reserved. -/
def ReservedOffset (p : Params) (off : BitVec 15) : Prop :=
  off.toNat % 4 = 0 ∧
  ((0x0040 ≤ off.toNat ∧ off.toNat < 0x0080) ∨ (0x0080 + p.seedBytes ≤ off.toNat ∧ off.toNat < 0x1000) ∨
   (0x1000 + p.bufBytes ≤ off.toNat ∧ off.toNat < 0x4000) ∨ 0x4000 + 1024 * p.npoly ≤ off.toNat)

/-- An aligned offset of a memory word: SEED, BUF or POLY (R42 to R44). -/
def MemoryOffset (p : Params) (off : BitVec 15) : Prop := off.toNat % 4 = 0 ∧ Mapped p off.toNat

/-- Memory holds the word v at an offset, lowest byte first (20_memory.md R46). -/
def HoldsWord (m : Memory) (a : Nat) (v : Word) : Prop :=
  ∀ j < 4, ∃ b, readByte m (a + j) = some b ∧ b.toNat = v.toNat / 2 ^ (8 * j) % 256

/-- The access is not a full word at an offset with A[1:0] = 0 (20_memory.md R48). -/
def PartialAccess (size : AccessSize) (off : BitVec 15) : Prop := size ≠ .word ∨ off.toNat % 4 ≠ 0

/-- The engine has the next step. -/
def EngineDoes (s : State) : Prop := s.busy = true ∧ (s.host = [] ∨ s.hostTurns = 0)

/-- The values of a reset (10_state.md R39, 70_reset_and_hazards.md R138); the chip's constants do not change. -/
def IsReset (s t : State) : Prop :=
  t.chip = s.chip ∧ t.cmd = 0 ∧ t.done = false ∧ t.dfail = false ∧ t.err = .ok ∧ t.werr = false ∧ t.fatal = false ∧
  t.ie = false ∧ t.xcnt = 0 ∧ t.arg0 = 0 ∧ t.arg1 = 0 ∧ t.res0 = 0 ∧ t.res1 = 0 ∧ t.engine = .idle ∧ t.irq = false ∧
  ∀ x, readByte t.mem x = none

/-! ## Terms: opcodes (30_encoding.md R59) -/

/-- OP is in the table. -/
def opAssigned (op : Nat) : Prop :=
  op ≤ 0x06 ∨ (0x11 ≤ op ∧ op ≤ 0x16) ∨ (0x20 ≤ op ∧ op ≤ 0x22) ∨ (0x30 ≤ op ∧ op ≤ 0x3B)

/-- The command uses field A: the poly-wise commands, the samplers and the unpacks (odd codec opcodes). -/
def usesA (op : Nat) : Prop :=
  (0x11 ≤ op ∧ op ≤ 0x16) ∨ (0x20 ≤ op ∧ op ≤ 0x22) ∨ (0x30 ≤ op ∧ op ≤ 0x3B ∧ op % 2 = 1)

/-- The command uses field B: the poly-wise commands and the packs (even codec opcodes). -/
def usesB (op : Nat) : Prop := (0x11 ≤ op ∧ op ≤ 0x16) ∨ (0x30 ≤ op ∧ op ≤ 0x3B ∧ op % 2 = 0)

/-- The command uses field C: the poly-wise commands of three slots. -/
def usesC (op : Nat) : Prop := 0x13 ≤ op ∧ op ≤ 0x16

/-- The word is ILLEGAL by one of the clauses (a) to (d) of R60. -/
def IllegalWord (w : Word) : Prop :=
  let op := w.toNat % 64
  let a := w.toNat / 2 ^ 8 % 16
  let b := w.toNat / 2 ^ 12 % 16
  let c := w.toNat / 2 ^ 16 % 16
  ¬ opAssigned op ∨
  (w.toNat / 2 ^ 6 % 4 ≠ 0 ∨ w.toNat / 2 ^ 20 ≠ 0) ∨
  ((¬ usesA op ∧ a ≠ 0) ∨ (¬ usesB op ∧ b ≠ 0) ∨ (¬ usesC op ∧ c ≠ 0)) ∨
  ((op = 0x13 ∨ op = 0x14) ∧ a = c)

/-! ## Terms: scalar results -/

/-- A completed scalar command: RES0 and RES1 aside, only its completion happened. -/
def ScalarDone (s t : State) : Prop :=
  Completed t .ok false ∧ Kept s t ∧ t.xcnt = s.xcnt ∧ t.fatal = s.fatal ∧ t.mem = s.mem

/-! ## Terms: dense codecs (42_codec.md R104 to R113) -/

/-- A pack command writes, for every coefficient in its domain, the w-bit field with the coefficient's code. -/
def PacksFields (i : Slot → Instr) (w : Params → Nat) (dom : Params → Nat → Prop) (code : Params → Nat → Int) : Prop :=
  ∀ (s : State) (b : Slot) (c : Nat → Word), Ready s → s.mem.wf → b.toNat < s.params.npoly →
    s.off + 32 * w s.params ≤ s.params.bufBytes → HoldsSlot s.mem b.toNat c →
    ∃ t W, exec (i b) s = .next t ∧ WroteWindow s t (32 * w s.params) ∧
      HoldsWindow t.mem s.off (32 * w s.params) W ∧
      ∀ j < 256, dom s.params (c j).toNat → (fld W (w s.params) j : Int) = code s.params (c j).toNat

/-- An unpack command writes the value of every w-bit field, whatever the bits. -/
def UnpacksFields (i : Slot → Instr) (w : Params → Nat) (val : Params → Nat → Int) : Prop :=
  ∀ (s : State) (a : Slot) (W : Nat → Byte), Ready s → s.mem.wf → a.toNat < s.params.npoly →
    s.off + 32 * w s.params ≤ s.params.bufBytes → HoldsWindow s.mem s.off (32 * w s.params) W →
    ∃ t, exec (i a) s = .next t ∧ WroteSlots s t [a.toNat] false ∧
      ∀ j < 256, ∃ v, readCoeff t.mem a.toNat j = some v ∧ (v.toNat : Int) = val s.params (fld W (w s.params) j)

/-- Packing a slot of in-domain coefficients and unpacking the window gives the coefficients back. -/
def RoundTrips (pk upk : Slot → Instr) (w : Params → Nat) (dom : Params → Nat → Prop) : Prop :=
  ∀ (s t s' : State) (a b : Slot) (c : Nat → Word), Ready s → s.mem.wf → b.toNat < s.params.npoly →
    s.off + 32 * w s.params ≤ s.params.bufBytes → HoldsSlot s.mem b.toNat c →
    (∀ j < 256, dom s.params (c j).toNat) → exec (pk b) s = .next t →
    Ready s' → s'.chip = s.chip → s'.mem = t.mem → s'.off = s.off → a.toNat < s.params.npoly →
    ∃ u, exec (upk a) s' = .next u ∧ Completed u .ok false ∧ HoldsSlot u.mem a.toNat c

/-- Unpacking a window whose fields all decode into the pack domain, and packing the slot, gives the window back. -/
def WindowRoundTrips (pk upk : Slot → Instr) (w : Params → Nat) (dom : Params → Nat → Prop) (val : Params → Nat → Int) :
    Prop :=
  ∀ (s t s' : State) (a : Slot) (W : Nat → Byte), Ready s → s.mem.wf → a.toNat < s.params.npoly →
    s.off + 32 * w s.params ≤ s.params.bufBytes → HoldsWindow s.mem s.off (32 * w s.params) W →
    (∀ j < 256, dom s.params (val s.params (fld W (w s.params) j)).toNat) → exec (upk a) s = .next t →
    Ready s' → s'.chip = s.chip → s'.mem = t.mem → s'.off + 32 * w s.params ≤ s.params.bufBytes →
    ∃ u, exec (pk a) s' = .next u ∧ Completed u .ok false ∧ HoldsWindow u.mem s'.off (32 * w s.params) W

/-- The value of a T1 field (R107). -/
def valT1 (_ : Params) (v : Nat) : Int := v

/-- The value of a T0 field (R109). -/
def valT0 (p : Params) (v : Nat) : Int := p.q + 2 ^ (p.d - 1) - v

/-- The value of an Eta field (R111). -/
def valEta (p : Params) (v : Nat) : Int := p.q + p.eta - v

/-- The value of a Gamma1 field (R113). -/
def valG1 (p : Params) (v : Nat) : Int :=
  if 0 ≤ (p.gamma1 : Int) - 1 - v then (p.gamma1 : Int) - 1 - v else (p.gamma1 : Int) - 1 - v + p.q

/-- The T1 pack domain (R106). -/
def domT1 (_ : Params) (c : Nat) : Prop := c < 512

/-- The T0 window (R108). -/
def domT0 (p : Params) (c : Nat) : Prop := p.q < c + 2 ^ (p.d - 1) ∧ c ≤ p.q + 2 ^ (p.d - 1)

/-- The Eta window (R110). -/
def domEta (p : Params) (c : Nat) : Prop := p.q ≤ c + p.eta ∧ c ≤ p.q + p.eta

/-- The Gamma1 window (R112). -/
def domG1 (p : Params) (c : Nat) : Prop := c < p.gamma1 ∨ (p.q < c + p.gamma1 ∧ c < p.q)

/-! ## Terms: sparse codecs -/

/-- The set bits of element i below index j. -/
def onesBelow (h : Nat → Nat → Word) (i j : Nat) : Nat := ((List.range j).filter fun x => h i x = 1).length

/-- The set bits of the elements before element i. -/
def onesBefore (h : Nat → Nat → Word) (i : Nat) : Nat := ((List.range i).map fun x => onesBelow h x 256).sum

/-- A VecK of 0/1 coefficients with at most OMEGA ones (42_codec.md R114). -/
def ValidVec (p : Params) (h : Nat → Nat → Word) : Prop :=
  (∀ i < p.k, ∀ j < 256, h i j = 0 ∨ h i j = 1) ∧ onesBefore h p.k ≤ p.omega

/-- The switch-over point before element i: 0 for the first. -/
def switchBefore (p : Params) (W : Nat → Byte) (i : Nat) : Nat := if i = 0 then 0 else (W (p.omega + i - 1)).toNat

/-- The three checks of R115. -/
def HintAccepted (p : Params) (W : Nat → Byte) : Prop :=
  (∀ i < p.k, switchBefore p W i ≤ (W (p.omega + i)).toNat ∧ (W (p.omega + i)).toNat ≤ p.omega) ∧
  (∀ i < p.k, ∀ k, switchBefore p W i < k → k < (W (p.omega + i)).toNat → (W (k - 1)).toNat < (W k).toNat) ∧
  ∀ k, switchBefore p W p.k ≤ k → k < p.omega → W k = 0

/-- Index j is listed for element i. -/
def HintListed (p : Params) (W : Nat → Byte) (i j : Nat) : Prop :=
  ∃ k, switchBefore p W i ≤ k ∧ k < (W (p.omega + i)).toNat ∧ (W k).toNat = j

/-- The K slots from slot n. -/
def vecSlots (p : Params) (n : Nat) : List Nat := (List.range p.k).map (n + ·)

/-- The nonzero coefficients below index i. -/
def nonzeroBelow (c : Nat → Word) (i : Nat) : Nat := ((List.range i).filter fun x => c x ≠ 0).length

/-- A challenge: exactly 60 nonzero coefficients, each 1 or Q − 1 (R117). -/
def ValidChallenge (p : Params) (c : Nat → Word) : Prop :=
  nonzeroBelow c 256 = 60 ∧ ∀ i < 256, c i = 0 ∨ c i = 1 ∨ c i = u32 (p.q - 1)

/-- The mask bits set below index i. -/
def maskBelow (W : Nat → Byte) (i : Nat) : Nat := ((List.range i).map (bitAt W)).sum

/-- The two checks of R118. -/
def ChallengeAccepted (W : Nat → Byte) : Prop :=
  (∀ k, 60 ≤ k → k < 64 → bitAt W (256 + k) = 0) ∧ maskBelow W 256 = 60

end Sys2Proof.Claims

open Sys2Proof Sys2Proof.Machine Sys2Proof.Claims

/-! ## Encoding and the step -/

/-- R56, R59: the decoder reads back every field of every legal command. -/
def Obligations.DecodeOfEncode : Prop := ∀ i : Instr, i.wellFormed = true → decode (encode i) = .ok i

/-- R56, R59: a word that decodes is the word of the command, so no two words mean one command. -/
def Obligations.EncodeOfDecode : Prop :=
  ∀ (w : Word) (i : Instr), decode w = .ok i → encode i = w ∧ i.wellFormed = true

/-- R60: the words the decoder rejects are the ILLEGAL ones. -/
def Obligations.RejectedWordsAreIllegal : Prop := ∀ w : Word, (∃ e, decode w = .error e) ↔ IllegalWord w

/-- R59, R63: words written out from the encoding, one of every family. -/
def Obligations.WordsOfTheOpcodeMap : Prop :=
  decode 0x00000000 = .ok .nop ∧ decode 0x00000003 = .ok .p2r ∧ decode 0x00020113 = .ok (.vp2r 1 0 2) ∧
  decode 0x00054315 = .ok (.vmkhint 3 4 5) ∧ decode 0x00000021 = .ok (.cbd3 0) ∧ decode 0x00000722 = .ok (.unif 7) ∧
  decode 0x00002030 = .ok (.pkt1 2) ∧ decode 0x00000331 = .ok (.upkt1 3) ∧ decode 0x00000539 = .ok (.upkhint 5) ∧
  decode 0x0000F03A = .ok (.pkchal 15)

/-- R60, R124, R125: an ILLEGAL word reports ERR = 1 (ERR = 5 while FATAL) and changes nothing but STATUS. -/
def Obligations.IllegalWordOnlyReports : Prop :=
  ∀ s : State, EngineDoes s → IllegalWord s.latched.word →
    ∃ t, step s = .next t ∧ OnlyReports s t (if s.fatal then .fatal else .illegal)

/-- R121: while it is the engine's turn, the step is that of the latched command, and nothing is around it. Whose turn it
is, is the model's schedule (log entry 6). -/
def Obligations.StepRunsLatchedCommand : Prop :=
  ∀ (s : State) (i : Instr), EngineDoes s → decode s.latched.word = .ok i → step s = exec i s

/-- R121, R136: otherwise the host takes its next step, and with none left an idle engine stays as it is. Whose turn it
is, is the model's schedule (log entry 6). -/
def Obligations.StepTakesHostStep : Prop :=
  (∀ (s : State) (op : HostOp) (rest : List HostOp), HostDoes s op rest → step s = hostStep (taken s rest) op) ∧
  ∀ s : State, s.host = [] → s.busy = false → step s = .next s

/-! ## Scalar commands -/

/-- R78. -/
def Obligations.NopOnlyCompletes : Prop :=
  ∀ s : State, Ready s → ∃ t, exec .nop s = .next t ∧ OnlyReports s t .ok

/-- R68, R79. -/
def Obligations.RfullReduces : Prop :=
  ∀ s : State, Ready s → ∃ t, exec .rfull s = .next t ∧ ScalarDone s t ∧ t.res1 = s.res1 ∧
    t.res0.toNat = s.latched.arg0.toNat % s.params.q

/-- R69, R80: on every chip the contract of reducePartial holds. -/
def Obligations.RpartMeetsContract : Prop :=
  ∀ s : State, Ready s → ∃ t, exec .rpart s = .next t ∧ ScalarDone s t ∧ t.res1 = s.res1 ∧
    t.res0.toNat < 2 * s.params.q ∧ t.res0.toNat % s.params.q = s.latched.arg0.toNat % s.params.q

/-- R70: the value on a chip with RP_REF. -/
def Obligations.RpartRefValue : Prop :=
  ∀ s : State, Ready s → s.params.rp = .ref → ∃ t, exec .rpart s = .next t ∧ ScalarDone s t ∧ t.res1 = s.res1 ∧
    t.res0.toNat = (s.latched.arg0.extractLsb' 0 23).toNat + (s.latched.arg0.extractLsb' 23 9).toNat * (2 ^ 13 - 1)

/-- R71, R81: in the domain the two results are Q + a0 and a1 of the unique decomposition. -/
def Obligations.P2rDecomposes : Prop :=
  ∀ s : State, Ready s → ∃ t, exec .p2r s = .next t ∧ ScalarDone s t ∧
    (s.latched.arg0.toNat < s.params.q →
      ∃ a0 : Int, (t.res0.toNat : Int) = s.params.q + a0 ∧
        (s.latched.arg0.toNat : Int) = a0 + 2 ^ s.params.d * t.res1.toNat ∧
        -2 ^ (s.params.d - 1) < a0 ∧ a0 ≤ 2 ^ (s.params.d - 1) ∧
        t.res1.toNat ≤ (s.params.q - 1) / 2 ^ s.params.d ∧ t.res1.toNat < 2 ^ 9)

/-- R72, R82: below the wrap point the results are Q + a0 and a1; from Q − GAMMA2 on they are a and 0. -/
def Obligations.DecompDecomposes : Prop :=
  ∀ s : State, Ready s → ∃ t, exec .decomp s = .next t ∧ ScalarDone s t ∧
    (s.latched.arg0.toNat < s.params.q - s.params.gamma2 →
      ∃ a0 : Int, (t.res0.toNat : Int) = s.params.q + a0 ∧
        (s.latched.arg0.toNat : Int) = a0 + s.params.alpha * t.res1.toNat ∧
        -(s.params.gamma2 : Int) < a0 ∧ a0 ≤ s.params.gamma2 ∧ t.res1.toNat < s.params.m) ∧
    (s.params.q - s.params.gamma2 ≤ s.latched.arg0.toNat → s.latched.arg0.toNat < s.params.q →
      t.res0 = s.latched.arg0 ∧ t.res1 = 0)

/-- R73, R74, R83: the hint says whether the rounding boundary was crossed, and the closed form of that. -/
def Obligations.MkhintClosedForm : Prop :=
  ∀ s : State, Ready s → ∃ t, exec .mkhint s = .next t ∧ ScalarDone s t ∧ t.res1 = s.res1 ∧
    (s.latched.arg0.toNat < 2 * s.params.q → s.latched.arg1.toNat < s.params.m →
      let r1 := s.latched.arg1.toNat
      let z := s.latched.arg0.toNat % s.params.q
      (t.res0 = 0 ∨ t.res0 = 1) ∧
      (t.res0 = 1 ↔ (decF s.params ((s.latched.arg0.toNat + s.params.alpha * r1) % s.params.q)).2 ≠ r1) ∧
      (t.res0 = 0 ↔
        z ≤ s.params.gamma2 ∨ s.params.q - s.params.gamma2 < z ∨ (z = s.params.q - s.params.gamma2 ∧ r1 = 0)))

/-- R75, R84: hint 0 gives the high part, hint 1 the next one up or down modulo M. -/
def Obligations.UsehintCorrects : Prop :=
  ∀ s : State, Ready s → ∃ t, exec .usehint s = .next t ∧ ScalarDone s t ∧ t.res1 = s.res1 ∧
    (s.latched.arg0.toNat < 2 * s.params.q →
      let d := decF s.params (s.latched.arg0.toNat % s.params.q)
      (s.latched.arg1 = 0 → t.res0.toNat = d.2) ∧
      (s.latched.arg1 = 1 → s.params.q < d.1 → t.res0.toNat = (d.2 + 1) % s.params.m) ∧
      (s.latched.arg1 = 1 → d.1 ≤ s.params.q → t.res0.toNat = (d.2 + s.params.m - 1) % s.params.m))

/-- R76, the hint round trip, over the three commands: with (w0q, w1) from DECOMP of w, z0 ≡ w0q − f and r ≡ w − f
below 2Q, USEHINT of r and the hint MKHINT makes of z0 and w1 gives w1. -/
def Obligations.HintRoundTrip : Prop :=
  ∀ (s1 s2 s3 : State) (f : Int), Ready s1 → Ready s2 → Ready s3 → s2.chip = s1.chip → s3.chip = s1.chip →
    s1.latched.arg0.toNat < s1.params.q → -(s1.params.gamma2 : Int) ≤ f → f ≤ s1.params.gamma2 →
    ∃ t1, exec .decomp s1 = .next t1 ∧
      (s2.latched.arg0.toNat < 2 * s1.params.q → s2.latched.arg1 = t1.res1 →
        (s2.latched.arg0.toNat : Int) % s1.params.q = (t1.res0.toNat - f) % s1.params.q →
        ∃ t2, exec .mkhint s2 = .next t2 ∧
          (s3.latched.arg0.toNat < 2 * s1.params.q → s3.latched.arg1 = t2.res0 →
            (s3.latched.arg0.toNat : Int) % s1.params.q = (s1.latched.arg0.toNat - f) % s1.params.q →
            ∃ t3, exec .usehint s3 = .next t3 ∧ t3.res0 = t1.res1))

/-! ## Poly-wise commands -/

/-- R85, R86, R87, R70: VRFULL and VRPART reduce every lane and write slot A only; on a chip with RP_REF a lane of VRPART
is RP_REF of the source lane. -/
def Obligations.PolyReduceLanes : Prop :=
  ∀ (s : State) (a b : Slot) (c : Nat → Word), Ready s → s.mem.wf → a.toNat < s.params.npoly →
    b.toNat < s.params.npoly → HoldsSlot s.mem b.toNat c →
    (∃ t, exec (.vrfull a b) s = .next t ∧ WroteSlots s t [a.toNat] false ∧
      ∀ i < 256, ∃ v, readCoeff t.mem a.toNat i = some v ∧ v.toNat = (c i).toNat % s.params.q) ∧
    ∃ t, exec (.vrpart a b) s = .next t ∧ WroteSlots s t [a.toNat] false ∧
      ∀ i < 256, ∃ v, readCoeff t.mem a.toNat i = some v ∧
        v.toNat < 2 * s.params.q ∧ v.toNat % s.params.q = (c i).toNat % s.params.q ∧
        (s.params.rp = .ref →
          v.toNat = ((c i).extractLsb' 0 23).toNat + ((c i).extractLsb' 23 9).toNat * (2 ^ 13 - 1))

/-- R85, R88, R89: VP2R and VDECOMP split every lane in the domain; a lane outside it gets some value in its own
destination coefficients. -/
def Obligations.PolySplitLanes : Prop :=
  ∀ (s : State) (a b c : Slot) (x : Nat → Word), Ready s → s.mem.wf → a ≠ c → a.toNat < s.params.npoly →
    b.toNat < s.params.npoly → c.toNat < s.params.npoly → HoldsSlot s.mem b.toNat x →
    (∃ t, exec (.vp2r a b c) s = .next t ∧ WroteSlots s t [a.toNat, c.toNat] false ∧
      ∀ i < 256, ∃ lo hi, readCoeff t.mem a.toNat i = some lo ∧ readCoeff t.mem c.toNat i = some hi ∧
        ((x i).toNat < s.params.q → (lo.toNat, hi.toNat) = p2rF s.params (x i).toNat)) ∧
    ∃ t, exec (.vdecomp a b c) s = .next t ∧ WroteSlots s t [a.toNat, c.toNat] false ∧
      ∀ i < 256, ∃ lo hi, readCoeff t.mem a.toNat i = some lo ∧ readCoeff t.mem c.toNat i = some hi ∧
        ((x i).toNat < s.params.q → (lo.toNat, hi.toNat) = decF s.params (x i).toNat)

/-- R85, R90, R91: VMKHINT and VUSEHINT apply their function to every lane in the domain. -/
def Obligations.PolyHintLanes : Prop :=
  ∀ (s : State) (a b c : Slot) (x y : Nat → Word), Ready s → s.mem.wf → a.toNat < s.params.npoly →
    b.toNat < s.params.npoly → c.toNat < s.params.npoly → HoldsSlot s.mem b.toNat x → HoldsSlot s.mem c.toNat y →
    (∃ t, exec (.vmkhint a b c) s = .next t ∧ WroteSlots s t [a.toNat] false ∧
      ∀ i < 256, ∃ v, readCoeff t.mem a.toNat i = some v ∧
        ((x i).toNat < 2 * s.params.q → (y i).toNat < s.params.m →
          v.toNat = mkhF s.params (x i).toNat (y i).toNat)) ∧
    ∃ t, exec (.vusehint a b c) s = .next t ∧ WroteSlots s t [a.toNat] false ∧
      ∀ i < 256, ∃ v, readCoeff t.mem a.toNat i = some v ∧
        ((x i).toNat < 2 * s.params.q → (y i).toNat < 2 → v.toNat = usehF s.params (x i).toNat (y i).toNat)

/-! ## Samplers -/

/-- R93 to R96: CBD2 and CBD3 write Q + a − b of each group of 2η stream bits, and XCNT = 64·η, where the stream did
not fail; where it did, ERR = 3 and FATAL. Only slot A and XCNT are written. -/
def Obligations.CbdMakesCenteredBinomial : Prop :=
  ∀ (s : State) (a : Slot) (seed : List Byte) (i : Instr) (eta : Nat),
    (i = .cbd2 a ∧ eta = 2) ∨ (i = .cbd3 a ∧ eta = 3) →
    Ready s → s.mem.wf → a.toNat < s.params.npoly → readSeed s.mem s.params = some seed →
    ∃ t, exec i s = .next t ∧ Kept s t ∧ t.res0 = s.res0 ∧ t.res1 = s.res1 ∧
      (∀ x, ¬ InSlot a.toNat x → readByte t.mem x = readByte s.mem x) ∧
      (Config.xofFails s.draws = true → Completed t .xofFail false ∧ t.fatal = true) ∧
      (Config.xofFails s.draws = false →
        Completed t .ok false ∧ t.fatal = false ∧ t.xcnt.toNat = 64 * eta ∧
        ∀ n < 256, ∃ v, readCoeff t.mem a.toNat n = some v ∧
          let B := Config.xofN (seed ++ [s.latched.arg0.extractLsb' 0 8])
          (v.toNat : Int) = s.params.q + ((List.range eta).map fun j => bitAt B (2 * eta * n + j)).sum -
            ((List.range eta).map fun j => bitAt B (2 * eta * n + eta + j)).sum ∧
          s.params.q - eta ≤ v.toNat ∧ v.toNat ≤ s.params.q + eta)

/-- R98, R100, R101: a step of UNIF examines one chunk. It leaves the command RUNNING with the chunk counted and
nothing visible changed, until the 256th value is accepted; then value i stands at coefficient TANGLE(i). -/
def Obligations.UnifExaminesOneChunk : Prop :=
  ∀ (s : State) (a : Slot) (l : UnifLoop), Ready s → s.mem.wf → l.accepted.length < 256 →
    (s.loop = some l ∨
      (s.loop = none ∧ a.toNat < s.params.npoly ∧ l.chunks = 0 ∧ l.accepted = [] ∧
        ∃ seed, readSeed s.mem s.params = some seed ∧
          l.msg = seed ++ [s.latched.arg0.extractLsb' 0 8, s.latched.arg0.extractLsb' 8 8])) →
    let v := fld (Config.xofU l.msg) s.params.ubits l.chunks % 2 ^ s.params.ukeep
    let acc := if v < s.params.q then l.accepted ++ [u32 v] else l.accepted
    ∃ t, exec (.unif a) s = .next t ∧
      t.chip = s.chip ∧ t.cmd = s.cmd ∧ t.werr = s.werr ∧ t.ie = s.ie ∧ t.arg0 = s.arg0 ∧ t.arg1 = s.arg1 ∧
      t.host = s.host ∧ t.vars = s.vars ∧ t.res0 = s.res0 ∧ t.res1 = s.res1 ∧
      (∀ x, ¬ InSlot a.toNat x → readByte t.mem x = readByte s.mem x) ∧
      (Config.xofFails s.draws = true → Completed t .xofFail false ∧ t.fatal = true) ∧
      (Config.xofFails s.draws = false → acc.length < 256 →
        t.engine = .running s.latched (some ⟨l.msg, l.chunks + 1, acc⟩) false ∧ t.mem = s.mem ∧ ResultsKept s t ∧
        t.done = s.done ∧ t.err = s.err ∧ t.dfail = s.dfail) ∧
      (Config.xofFails s.draws = false → acc.length = 256 →
        Completed t .ok false ∧ t.fatal = false ∧
        (∀ (i n : Nat) (v : Word), s.params.tangle[i]? = some n → acc[i]? = some v → readCoeff t.mem a.toNat n = some v) ∧
        ((s.params.ubits * (l.chunks + 1) + 7) / 8 < 2 ^ 32 →
          t.xcnt.toNat = (s.params.ubits * (l.chunks + 1) + 7) / 8))

/-- R100: where 2^UKEEP ≤ Q every chunk is accepted, so a UNIF left alone ends within 256 engine steps, having read
256 chunks, or by a failure of the stream. That every step is the engine's once the host has none left is the model's
schedule (log entry 6). -/
def Obligations.UnifEndsWithin256Steps : Prop :=
  ∀ (s : State) (cmd : Latched) (a : Slot) (seed : List Byte), s.engine = .running cmd none false →
    decode cmd.word = .ok (.unif a) → s.fatal = false → a.toNat < s.params.npoly →
    readSeed s.mem s.params = some seed → s.host = [] → 2 ^ s.params.ukeep ≤ s.params.q →
    ∃ n t, 1 ≤ n ∧ n ≤ 256 ∧ Sys2Proof.core.run n s = .next t ∧ t.busy = false ∧
      ((t.err = .ok ∧ n = 256 ∧ t.xcnt.toNat = (s.params.ubits * 256 + 7) / 8) ∨ (t.err = .xofFail ∧ t.fatal = true))

/-- R99: where a step of UNIF completes it with ERR = 0, every coefficient of slot A is below Q and 2^UKEEP. -/
def Obligations.UnifOutputsBelowQ : Prop :=
  ∀ (s : State) (a : Slot) (l : UnifLoop), Inv s → s.loop = some l →
    ∃ t, exec (.unif a) s = .next t ∧
      (t.err = .ok → t.busy = false →
        ∀ i < 256, ∃ v, readCoeff t.mem a.toNat i = some v ∧ v.toNat < s.params.q ∧ v.toNat < 2 ^ s.params.ukeep)

/-! ## Dense codecs -/

/-- R103, R104, R106, R108, R110, R112. -/
def Obligations.DensePackWritesFields : Prop :=
  PacksFields .pkt1 (fun _ => 9) domT1 (fun _ c => c) ∧
  PacksFields .pkt0 (fun _ => 14) domT0 (fun p c => p.q + 2 ^ (p.d - 1) - c) ∧
  PacksFields .pketa Params.detaBits domEta (fun p c => p.q + p.eta - c) ∧
  PacksFields .pkg1 (fun _ => 20) domG1 (fun p c => ((p.gamma1 : Int) - 1 - c) % p.q)

/-- R103, R104, R107, R109, R111, R113. -/
def Obligations.DenseUnpackReadsFields : Prop :=
  UnpacksFields .upkt1 (fun _ => 9) valT1 ∧ UnpacksFields .upkt0 (fun _ => 14) valT0 ∧
  UnpacksFields .upketa Params.detaBits valEta ∧ UnpacksFields .upkg1 (fun _ => 20) valG1

/-- R113: every output of UPKG1 is normalized, whatever the window holds. -/
def Obligations.UnpackedGamma1IsNormalized : Prop :=
  ∀ (s t : State) (a : Slot), s.mem.wf → exec (.upkg1 a) s = .next t → t.err = .ok →
    ∀ i < 256, ∃ v, readCoeff t.mem a.toNat i = some v ∧ v.toNat < s.params.q

/-- R105, both halves: unpacking what was packed from the domain gives the slot back; packing what was unpacked gives the
window back wherever every field decodes into the domain, which is every field of T1, every field of T0 where D = 14, the
fields up to 2·ETA of Eta and those up to 2·GAMMA1 − 2 of Gamma1. -/
def Obligations.DensePackThenUnpack : Prop :=
  (RoundTrips .pkt1 .upkt1 (fun _ => 9) domT1 ∧ RoundTrips .pkt0 .upkt0 (fun _ => 14) domT0 ∧
   RoundTrips .pketa .upketa Params.detaBits domEta ∧ RoundTrips .pkg1 .upkg1 (fun _ => 20) domG1) ∧
  (WindowRoundTrips .pkt1 .upkt1 (fun _ => 9) domT1 valT1 ∧ WindowRoundTrips .pkt0 .upkt0 (fun _ => 14) domT0 valT0 ∧
   WindowRoundTrips .pketa .upketa Params.detaBits domEta valEta ∧
   WindowRoundTrips .pkg1 .upkg1 (fun _ => 20) domG1 valG1) ∧
  ∀ p : Params, p.WF →
    (∀ v < 2 ^ 9, domT1 p (valT1 p v).toNat) ∧ (p.d = 14 → ∀ v < 2 ^ 14, domT0 p (valT0 p v).toNat) ∧
    (∀ v < 2 ^ p.detaBits, domEta p (valEta p v).toNat ↔ v ≤ 2 * p.eta) ∧
    ∀ v < 2 ^ 20, domG1 p (valG1 p v).toNat ↔ v ≤ 2 * p.gamma1 - 2

/-! ## Sparse codecs -/

/-- R114: the window of a valid VecK. -/
def Obligations.PkhintLaysOutIndices : Prop :=
  ∀ (s : State) (b : Slot) (h : Nat → Nat → Word), Ready s → s.mem.wf → b.toNat + s.params.k ≤ s.params.npoly →
    s.off + (s.params.omega + s.params.k) ≤ s.params.bufBytes →
    (∀ i < s.params.k, HoldsSlot s.mem (b.toNat + i) (h i)) →
    ∃ t W, exec (.pkhint b) s = .next t ∧ WroteWindow s t (s.params.omega + s.params.k) ∧
      HoldsWindow t.mem s.off (s.params.omega + s.params.k) W ∧
      (ValidVec s.params h →
        (∀ i < s.params.k, ∀ j < 256, h i j = 1 → (W (onesBefore h i + onesBelow h i j)).toNat = j) ∧
        (∀ i < s.params.k, (W (s.params.omega + i)).toNat = onesBefore h (i + 1)) ∧
        ∀ k, onesBefore h s.params.k ≤ k → k < s.params.omega → W k = 0)

/-- R115, R126: an accepted window decodes; a rejected one zeroes all K slots and sets DFAIL, with ERR = 0. -/
def Obligations.UpkhintDecodesOrRejects : Prop :=
  ∀ (s : State) (a : Slot) (W : Nat → Byte), Ready s → s.mem.wf → a.toNat + s.params.k ≤ s.params.npoly →
    s.off + (s.params.omega + s.params.k) ≤ s.params.bufBytes →
    HoldsWindow s.mem s.off (s.params.omega + s.params.k) W →
    ∃ t, exec (.upkhint a) s = .next t ∧
      (HintAccepted s.params W → WroteSlots s t (vecSlots s.params a.toNat) false ∧
        ∀ i < s.params.k, ∀ j < 256,
          (HintListed s.params W i j → readCoeff t.mem (a.toNat + i) j = some 1) ∧
          (¬ HintListed s.params W i j → readCoeff t.mem (a.toNat + i) j = some 0)) ∧
      (¬ HintAccepted s.params W → WroteSlots s t (vecSlots s.params a.toNat) true ∧
        ∀ i < s.params.k, HoldsSlot t.mem (a.toNat + i) fun _ => 0)

/-- R116, first half: UPKHINT(PKHINT(h)) = h with DFAIL = 0. -/
def Obligations.HintPackThenUnpack : Prop :=
  ∀ (s t s' : State) (a b : Slot) (h : Nat → Nat → Word), Ready s → s.mem.wf →
    b.toNat + s.params.k ≤ s.params.npoly → s.off + (s.params.omega + s.params.k) ≤ s.params.bufBytes →
    (∀ i < s.params.k, HoldsSlot s.mem (b.toNat + i) (h i)) → ValidVec s.params h → exec (.pkhint b) s = .next t →
    Ready s' → s'.chip = s.chip → s'.mem = t.mem → s'.off = s.off → a.toNat + s.params.k ≤ s.params.npoly →
    ∃ u, exec (.upkhint a) s' = .next u ∧ Completed u .ok false ∧
      ∀ i < s.params.k, HoldsSlot u.mem (a.toNat + i) (h i)

/-- R116, second half: PKHINT(UPKHINT(W)) = W for every window that UPKHINT accepts. -/
def Obligations.HintUnpackThenPack : Prop :=
  ∀ (s t s' : State) (a : Slot) (W : Nat → Byte), Ready s → s.mem.wf → a.toNat + s.params.k ≤ s.params.npoly →
    s.off + (s.params.omega + s.params.k) ≤ s.params.bufBytes →
    HoldsWindow s.mem s.off (s.params.omega + s.params.k) W → exec (.upkhint a) s = .next t → t.dfail = false →
    Ready s' → s'.chip = s.chip → s'.mem = t.mem →
    s'.off + (s.params.omega + s.params.k) ≤ s.params.bufBytes →
    ∃ u, exec (.pkhint a) s' = .next u ∧ HoldsWindow u.mem s'.off (s.params.omega + s.params.k) W

/-- R117: the window of a challenge. -/
def Obligations.PkchalWritesMaskAndSigns : Prop :=
  ∀ (s : State) (b : Slot) (c : Nat → Word), Ready s → s.mem.wf → b.toNat < s.params.npoly →
    s.off + 40 ≤ s.params.bufBytes → HoldsSlot s.mem b.toNat c →
    ∃ t W, exec (.pkchal b) s = .next t ∧ WroteWindow s t 40 ∧ HoldsWindow t.mem s.off 40 W ∧
      (ValidChallenge s.params c →
        (∀ i < 256, bitAt W i = if c i = 0 then 0 else 1) ∧
        (∀ i < 256, c i ≠ 0 → bitAt W (256 + nonzeroBelow c i) = if c i = u32 (s.params.q - 1) then 1 else 0) ∧
        ∀ k, 60 ≤ k → k < 64 → bitAt W (256 + k) = 0)

/-- R118, R126: an accepted window decodes; a rejected one zeroes the slot and sets DFAIL, with ERR = 0. -/
def Obligations.UpkchalDecodesOrRejects : Prop :=
  ∀ (s : State) (a : Slot) (W : Nat → Byte), Ready s → s.mem.wf → a.toNat < s.params.npoly →
    s.off + 40 ≤ s.params.bufBytes → HoldsWindow s.mem s.off 40 W →
    ∃ t, exec (.upkchal a) s = .next t ∧
      (ChallengeAccepted W → WroteSlots s t [a.toNat] false ∧
        ∀ i < 256, readCoeff t.mem a.toNat i =
          some (if bitAt W i = 1 then (if bitAt W (256 + maskBelow W i) = 1 then u32 (s.params.q - 1) else 1) else 0)) ∧
      (¬ ChallengeAccepted W → WroteSlots s t [a.toNat] true ∧ HoldsSlot t.mem a.toNat fun _ => 0)

/-- R119, R105: UPKCHAL(PKCHAL(c)) = c with DFAIL = 0 for every challenge. -/
def Obligations.ChallengePackThenUnpack : Prop :=
  ∀ (s t s' : State) (a b : Slot) (c : Nat → Word), Ready s → s.mem.wf → b.toNat < s.params.npoly →
    s.off + 40 ≤ s.params.bufBytes → HoldsSlot s.mem b.toNat c → ValidChallenge s.params c →
    exec (.pkchal b) s = .next t → Ready s' → s'.chip = s.chip → s'.mem = t.mem → s'.off = s.off →
    a.toNat < s.params.npoly →
    ∃ u, exec (.upkchal a) s' = .next u ∧ Completed u .ok false ∧ HoldsSlot u.mem a.toNat c

/-- R119: an accepted window is PKCHAL of its decoded poly. -/
def Obligations.ChallengeUnpackThenPack : Prop :=
  ∀ (s t s' : State) (a : Slot) (W : Nat → Byte), Ready s → s.mem.wf → a.toNat < s.params.npoly →
    s.off + 40 ≤ s.params.bufBytes → HoldsWindow s.mem s.off 40 W → exec (.upkchal a) s = .next t →
    t.dfail = false → Ready s' → s'.chip = s.chip → s'.mem = t.mem → s'.off + 40 ≤ s.params.bufBytes →
    ∃ u, exec (.pkchal a) s' = .next u ∧ HoldsWindow u.mem s'.off 40 W

/-! ## Errors, abort and what a command may write -/

/-- R127: while FATAL = 1 the first engine step of every command completes it with ERR = 5 and no other effect. -/
def Obligations.FatalRefusesEveryCommand : Prop :=
  ∀ (i : Instr) (s : State), s.fatal = true → s.loop = none → ∃ t, exec i s = .next t ∧ OnlyReports s t .fatal

/-- R61, R125: a command out of RANGE completes with ERR = 2 and changes nothing else, an abort pending or not. -/
def Obligations.RangeRefusesEveryCommand : Prop :=
  ∀ (i : Instr) (s : State), s.fatal = false → s.loop = none → i.wellFormed = true → ¬ InRange i s →
    ∃ t, exec i s = .next t ∧ OnlyReports s t .range

/-- R128, R125, R124: a pending abort ends every command that passes its checks, a UNIF under way included, with ERR = 4,
and only the destinations its rule names can change. -/
def Obligations.AbortEndsEveryCommand : Prop :=
  ∀ (i : Instr) (s : State), s.fatal = false → i.wellFormed = true → InRange i s → s.abortPending = true →
    ∃ t, exec i s = .next t ∧ Completed t .aborted false ∧ Kept s t ∧ t.fatal = false ∧
      (namesRes0 i = false → t.res0 = s.res0) ∧ (namesRes1 i = false → t.res1 = s.res1) ∧
      (namesXcnt i = false → t.xcnt = s.xcnt) ∧ ∀ x, ¬ Named i s x → readByte t.mem x = readByte s.mem x

/-- R17, R19, R49, R124: whatever its outcome, a command writes only the results, slots and window its rule names. -/
def Obligations.OnlyNamedDestinations : Prop :=
  ∀ (i : Instr) (s t : State), exec i s = .next t →
    t.chip = s.chip ∧ t.cmd = s.cmd ∧ t.werr = s.werr ∧ t.ie = s.ie ∧ t.arg0 = s.arg0 ∧ t.arg1 = s.arg1 ∧
    t.host = s.host ∧ t.vars = s.vars ∧
    (namesRes0 i = false → t.res0 = s.res0) ∧ (namesRes1 i = false → t.res1 = s.res1) ∧
    (namesXcnt i = false → t.xcnt = s.xcnt) ∧
    ∀ x, ¬ Named i s x → readByte t.mem x = readByte s.mem x

/-- R121, R122: a step of a command completes it, or it is a step of UNIF that leaves it RUNNING with nothing visible
changed. -/
def Obligations.OnlyUnifStaysRunning : Prop :=
  ∀ (i : Instr) (s t : State), exec i s = .next t →
    (t.engine = .idle ∧ t.done = true) ∨
    (t.busy = true ∧ (∃ a, i = .unif a) ∧ t.mem = s.mem ∧ ResultsKept s t ∧ t.done = s.done ∧ t.err = s.err ∧
      t.dfail = s.dfail)

/-- R29: only UPKHINT and UPKCHAL set DFAIL, and ERR stays 0. -/
def Obligations.DfailOnlyFromRejection : Prop :=
  ∀ (i : Instr) (s t : State), exec i s = .next t → t.busy = false → t.dfail = true →
    (∃ a, i = .upkhint a ∨ i = .upkchal a) ∧ t.err = .ok

/-- R127: FATAL is set only by an XOF failure of a sampler, and only a reset clears it. -/
def Obligations.FatalStaysUntilReset : Prop :=
  ∀ s t : State, step s = .next t →
    (s.fatal = true → t.fatal = false →
      ∃ op rest, HostDoes s op rest ∧ (op = .hardReset ∨ ∃ v : Word, op = .wr .word 0x028 v ∧ v.getLsbD 2 = true)) ∧
    (s.fatal = false → t.fatal = true →
      t.err = .xofFail ∧ ∃ a, decode s.latched.word = .ok (.cbd2 a) ∨ decode s.latched.word = .ok (.cbd3 a) ∨
        decode s.latched.word = .ok (.unif a))

/-! ## The port -/

/-- R120: an issue latches the word with ARG0 and ARG1, clears DONE, DFAIL and ERR, clears XCNT for a sampler's OP
field, checks nothing, and leaves WERR and FATAL. -/
def Obligations.IssueLatchesCommand : Prop :=
  ∀ (s : State) (w : Word) (rest : List HostOp), s.busy = false → HostDoes s (.wr .word 0x020 w) rest →
    ∃ t, step s = .next t ∧ t.cmd = w ∧ t.engine = .running ⟨w, s.arg0, s.arg1⟩ none false ∧
      t.done = false ∧ t.dfail = false ∧ t.err = .ok ∧
      t.xcnt = (if w.toNat % 64 = 0x20 ∨ w.toNat % 64 = 0x21 ∨ w.toNat % 64 = 0x22 then 0 else s.xcnt) ∧
      t.werr = s.werr ∧ t.fatal = s.fatal ∧ t.ie = s.ie ∧ t.chip = s.chip ∧ t.arg0 = s.arg0 ∧ t.arg1 = s.arg1 ∧
      t.res0 = s.res0 ∧ t.res1 = s.res1 ∧ t.mem = s.mem ∧ t.host = rest ∧ t.vars = s.vars

/-- R143: a write to CMD, ARG0, ARG1, SEED, BUF or POLY while BUSY = 1 is dropped and sets WERR. -/
def Obligations.BusyWritesAreDropped : Prop :=
  ∀ (s : State) (off : BitVec 15) (v : Word) (rest : List HostOp), s.busy = true →
    HostDoes s (.wr .word off v) rest → off.toNat % 4 = 0 → Guarded s.params off →
    step s = .next { taken s rest with werr := true }

/-- R17, R27, R31, R32, R42 to R44, R144: what reads answer, and that a write of ARG0 or ARG1 while BUSY = 0 sets it. CMD,
ARG0, ARG1 and a written SEED word read as they are at any time; XCNT, RES0, RES1 and a written BUF or POLY word do while
BUSY = 0, and while BUSY = 1 each read of one answers a new draw (the model's form of `any`, log entry 4). Unwritten words
are the subject of `UnwrittenReadsFault` (log entry 10). -/
def Obligations.RegistersReadBack : Prop :=
  ∀ s : State, (ReadsAs s 0x020 s.cmd ∧ ReadsAs s 0x030 s.arg0 ∧ ReadsAs s 0x034 s.arg1) ∧
    (s.busy = false → ReadsAs s 0x02C s.xcnt ∧ ReadsAs s 0x038 s.res0 ∧ ReadsAs s 0x03C s.res1) ∧
    (s.busy = true → ∀ off : BitVec 15, off = 0x02C ∨ off = 0x038 ∨ off = 0x03C →
      ReadsAs s off (Config.anyWord s.draws off.toNat)) ∧
    (∀ (off : BitVec 15) (v : Word), s.mem.wf → MemoryOffset s.params off → HoldsWord s.mem off.toNat v →
      ReadsAs s off (if s.busy = true ∧ 0x1000 ≤ off.toNat then Config.anyWord s.draws off.toNat else v)) ∧
    ∀ (v : Word) (rest : List HostOp), s.busy = false →
      (HostDoes s (.wr .word 0x030 v) rest → step s = .next { taken s rest with arg0 := v }) ∧
      (HostDoes s (.wr .word 0x034 v) rest → step s = .next { taken s rest with arg1 := v })

/-- R21 to R26: the constants, on every chip and, for REF, as numbers. -/
def Obligations.ConfigRegistersReportRecord : Prop :=
  ∀ s : State,
    (ReadsAs s 0x000 s.params.idValue ∧
     (∃ w : Word, ReadsAs s 0x004 w ∧ w.toNat = s.params.q) ∧
     (∃ w : Word, ReadsAs s 0x008 w ∧ (w.extractLsb' 0 8).toNat = s.params.d ∧ (w.extractLsb' 8 8).toNat = s.params.eta ∧
       (w.extractLsb' 16 8).toNat = s.params.k ∧ (w.extractLsb' 24 8).toNat = s.params.omega) ∧
     (∃ w : Word, ReadsAs s 0x00C w ∧ w.toNat = s.params.gamma1) ∧
     (∃ w : Word, ReadsAs s 0x010 w ∧ w.toNat = s.params.gamma2) ∧
     (∃ w : Word, ReadsAs s 0x014 w ∧ (w.extractLsb' 0 8).toNat = s.params.ubits ∧
       (w.extractLsb' 8 8).toNat = s.params.npoly ∧ (w.extractLsb' 16 8).toNat = s.params.seedBytes ∧
       (w.extractLsb' 24 4).toNat = s.params.detaBits ∧ (w.extractLsb' 28 4).toNat = 0) ∧
     (∃ w : Word, ReadsAs s 0x018 w ∧ w.toNat = s.params.bufBytes) ∧
     (∃ w : Word, ReadsAs s 0x01C w ∧ w.toNat = s.params.ukeep)) ∧
    (s.chip = Chip.ref →
      ReadsAs s 0x000 0x4D524537 ∧ ReadsAs s 0x004 0x007FE001 ∧ ReadsAs s 0x008 0x6005030E ∧
      ReadsAs s 0x00C 0x0007FE00 ∧ ReadsAs s 0x010 0x0003FF00 ∧ ReadsAs s 0x014 0x0320100C ∧
      ReadsAs s 0x018 0x00001000 ∧ ReadsAs s 0x01C 0x0000000C)

/-- R28: STATUS, every bit of it, and CTRL. -/
def Obligations.StatusReadsItsFields : Prop :=
  ∀ s : State,
    (∃ w : Word, ReadsAs s 0x024 w ∧ w.getLsbD 0 = s.busy ∧ w.getLsbD 1 = s.done ∧ w.getLsbD 2 = s.dfail ∧
      w.getLsbD 3 = false ∧ (w.extractLsb' 4 4).toNat = s.err.code ∧ w.getLsbD 8 = s.werr ∧ w.getLsbD 9 = s.fatal ∧
      w.toNat / 2 ^ 10 = 0) ∧
    ∃ w : Word, ReadsAs s 0x028 w ∧ w.getLsbD 0 = s.ie ∧ w.toNat / 2 = 0

/-- R45: reserved offsets read 0 and ignore writes, and read-only registers ignore writes, without WERR. -/
def Obligations.ReservedAndReadOnlyIgnoreWrites : Prop :=
  (∀ (s : State) (off : BitVec 15), ReservedOffset s.params off → ReadsAs s off 0 ∧ WriteIgnored s off) ∧
  ∀ (s : State) (off : BitVec 15), off.toNat % 4 = 0 →
    off.toNat < 0x020 ∨ off = 0x02C ∨ off = 0x038 ∨ off = 0x03C → WriteIgnored s off

/-- R48: a misaligned or partial-width access is the fault `BusError`. -/
def Obligations.PartialAccessIsBusError : Prop :=
  ∀ (s : State) (size : AccessSize) (off : BitVec 15) (r : Nat) (v : Word) (rest : List HostOp),
    PartialAccess size off →
    (HostDoes s (.wr size off v) rest → step s = .fault .busError) ∧
    (HostDoes s (.rd size r off) rest → step s = .fault .busError)

/-- R28, R143: a STATUS write clears DONE and WERR where it has a 1 and changes nothing else, BUSY or not. -/
def Obligations.StatusWriteClearsOnes : Prop :=
  ∀ (s : State) (v : Word) (rest : List HostOp), HostDoes s (.wr .word 0x024 v) rest →
    step s = .next { taken s rest with
      done := s.done && !v.getLsbD 1
      werr := s.werr && !v.getLsbD 8 }

/-- R30, R128: a CTRL write without SRST writes IE and, while BUSY = 1, ABORT = 1 records a pending abort. -/
def Obligations.CtrlWriteSetsEnableAndAbort : Prop :=
  ∀ (s : State) (v : Word) (rest : List HostOp), HostDoes s (.wr .word 0x028 v) rest → v.getLsbD 2 = false →
    ∃ t, step s = .next t ∧ t.ie = v.getLsbD 0 ∧ t.busy = s.busy ∧ t.latched = s.latched ∧ t.loop = s.loop ∧
      t.abortPending = (s.abortPending || (s.busy && v.getLsbD 1)) ∧
      t = { taken s rest with ie := t.ie, engine := t.engine }

/-- R138, R139, R140: SRST, whatever the other bits and BUSY, and the reset input leave the reset values. That the reset
input is one event in the host's queue is the model's choice (log entry 15). -/
def Obligations.ResetsLeaveResetValues : Prop :=
  ∀ (s : State) (rest : List HostOp),
    (∀ v : Word, v.getLsbD 2 = true → HostDoes s (.wr .word 0x028 v) rest →
      ∃ t, step s = .next t ∧ IsReset s t ∧ t.host = rest ∧ t.vars = s.vars) ∧
    (HostDoes s .hardReset rest → ∃ t, step s = .next t ∧ IsReset s t ∧ t.host = rest ∧ t.vars = s.vars)

/-- R42, R43, R44, R46: a word the host writes to SEED, BUF or POLY while IDLE is the word it reads there, stored
lowest byte first, and no other byte changes. -/
def Obligations.MemoryWordsReadBack : Prop :=
  ∀ (s : State) (off : BitVec 15) (v : Word) (rest : List HostOp), s.busy = false → s.mem.wf →
    MemoryOffset s.params off → HostDoes s (.wr .word off v) rest →
    ∃ t, step s = .next t ∧ ReadsAs t off v ∧
      HoldsWord t.mem off.toNat v ∧
      (∀ x, (x < off.toNat ∨ off.toNat + 4 ≤ x) → readByte t.mem x = readByte s.mem x) ∧
      t = { taken s rest with mem := t.mem }

/-- R36, R140, R62: a read of a location nothing has written is the fault `ReadUnwritten`, by the host, BUSY or not (log
entry 10), and by every command that would execute and reads one. That a sampler reads SEED before its failure draw is
the model's reading (log entry 5). -/
def Obligations.UnwrittenReadsFault : Prop :=
  (∀ (s : State) (off : BitVec 15) (r j : Nat) (rest : List HostOp), s.mem.wf → MemoryOffset s.params off → j < 4 →
    readByte s.mem (off.toNat + j) = none → HostDoes s (.rd .word r off) rest → step s = .fault .readUnwritten) ∧
  ∀ (i : Instr) (s : State), Ready s → s.mem.wf → s.loop = none → i.wellFormed = true → InRange i s →
    ReadsUnwritten i s → exec i s = .fault .readUnwritten

/-- R129: IRQ is up after the completion step exactly where IE = 1, and falls at an issue. -/
def Obligations.InterruptFollowsDoneAndEnable : Prop :=
  (∀ (i : Instr) (s t : State), exec i s = .next t → t.busy = false → t.irq = s.ie) ∧
  (∀ (s t : State) (w : Word) (rest : List HostOp), s.busy = false → HostDoes s (.wr .word 0x020 w) rest →
    step s = .next t → t.irq = false) ∧
  (∀ (s t : State) (v : Word) (rest : List HostOp), HostDoes s (.wr .word 0x024 v) rest → step s = .next t →
    v.getLsbD 1 = true → t.irq = false) ∧
  ∀ (s t : State) (v : Word) (rest : List HostOp), HostDoes s (.wr .word 0x028 v) rest → step s = .next t →
    v.getLsbD 2 = false → t.irq = (s.done && v.getLsbD 0)

/-! ## The machine -/

/-- R39: the machine at reset. -/
def Obligations.ResetTable : Prop := IsReset State.reset State.reset ∧ statusWord State.reset = 0 ∧ ctrlWord State.reset = 0

/-- The invariant holds at reset. -/
def Obligations.InvAtReset : Prop := Inv State.reset

/-- Every step keeps the invariant: canonical memory of existing bytes, the latched command equal to CMD, ARG0 and
ARG1, DONE, DFAIL and ERR clear while BUSY, a UNIF's accepted values below Q, and FATAL set where ERR reports it. -/
def Obligations.StepKeepsInv : Prop := ∀ s t : State, Inv s → step s = .next t → Inv t

/-- R8, R24: no step changes the chip's parameters, so no register changes them at run time. -/
def Obligations.ChipNeverChanges : Prop := ∀ s t : State, step s = .next t → t.chip = s.chip

/-- R3, R59, R48: every command has a meaning, so no step refuses, and a bus error comes only from a partial-width or
misaligned access of the host. -/
def Obligations.NoStepRefuses : Prop :=
  ∀ s : State, (∀ r, step s ≠ .refused r) ∧
    (step s = .fault .busError → ∃ op rest, HostDoes s op rest ∧
      ∃ size off, PartialAccess size off ∧ ((∃ v, op = .wr size off v) ∨ ∃ r, op = .rd size r off))
end

