-- ==== Sys2Proof/Laws/Bits.lean ====
section
/-! SUPPORT. Changes of base: `digits` and `ofDigits` are inverse, and a digit is the bit field of 00_scope.md R11. -/

namespace Sys2Proof.Machine

@[simp] theorem digits_length (w n x : Nat) : (digits w n x).length = n := by
  induction n generalizing x with
  | zero => rfl
  | succ n ih => simp [digits, ih]

theorem digits_lt (w n x : Nat) : ∀ d ∈ digits w n x, d < 2 ^ w := by
  induction n generalizing x with
  | zero => simp [digits]
  | succ n ih =>
    intro d hd
    rcases List.mem_cons.1 hd with rfl | hd
    · exact Nat.mod_lt _ (Nat.two_pow_pos w)
    · exact ih _ d hd

/-- Digit i is the i-th w-bit group of the number. -/
theorem digits_getElem? (w n x i : Nat) (h : i < n) : (digits w n x)[i]? = some (x / 2 ^ (w * i) % 2 ^ w) := by
  induction n generalizing x i with
  | zero => omega
  | succ n ih =>
    cases i with
    | zero => simp [digits]
    | succ i =>
      simp only [digits, List.getElem?_cons_succ]
      rw [ih _ i (by omega), Nat.div_div_eq_div_mul, ← pow_add, Nat.mul_succ, Nat.add_comm w]

theorem ofDigits_lt (w : Nat) (vs : List Nat) (h : ∀ v ∈ vs, v < 2 ^ w) : ofDigits w vs < 2 ^ (w * vs.length) := by
  induction vs with
  | nil => simp [ofDigits]
  | cons v vs ih =>
    have hv : v + 1 ≤ 2 ^ w := h v (by simp)
    have hr := ih fun u hu => h u (by simp [hu])
    calc ofDigits w (v :: vs) < 2 ^ w * (ofDigits w vs + 1) := by simp only [ofDigits, Nat.mul_succ]; omega
      _ ≤ 2 ^ w * 2 ^ (w * vs.length) := Nat.mul_le_mul_left _ hr
      _ = 2 ^ (w * (v :: vs).length) := by rw [← pow_add, List.length_cons, Nat.mul_succ, Nat.add_comm]

/-- Reading back the digits a number was built from. -/
theorem digits_ofDigits (w : Nat) (vs : List Nat) (h : ∀ v ∈ vs, v < 2 ^ w) : digits w vs.length (ofDigits w vs) = vs := by
  induction vs with
  | nil => rfl
  | cons v vs ih =>
    have hv := h v (by simp)
    simp only [List.length_cons, digits, ofDigits, Nat.add_mul_mod_self_left, Nat.mod_eq_of_lt hv]
    rw [Nat.add_mul_div_left _ _ (Nat.two_pow_pos w), Nat.div_eq_of_lt hv, Nat.zero_add,
      ih fun u hu => h u (by simp [hu])]

/-- A number below 2^(w·n) is the number of its n digits. -/
theorem ofDigits_digits (w n x : Nat) (h : x < 2 ^ (w * n)) : ofDigits w (digits w n x) = x := by
  induction n generalizing x with
  | zero => simp [digits, ofDigits] at *; omega
  | succ n ih =>
    simp only [digits, ofDigits]
    rw [ih, Nat.mod_add_div]
    rw [Nat.div_lt_iff_lt_mul (Nat.two_pow_pos w), ← pow_add]
    simpa [Nat.mul_succ] using h

@[simp] theorem bytesOfNum_length (n x : Nat) : (bytesOfNum n x).length = n := by simp [bytesOfNum]

@[simp] theorem packFields_length (w n : Nat) (vs : List Nat) : (packFields w n vs).length = n := by simp [packFields]

@[simp] theorem fields_length (w n : Nat) (bs : List Byte) : (fields w n bs).length = n := by simp [fields]

/-- A number that fits in n bytes is read back from them. -/
theorem numOfBytes_bytesOfNum (n x : Nat) (h : x < 2 ^ (8 * n)) : numOfBytes (bytesOfNum n x) = x := by
  have hm : (bytesOfNum n x).map BitVec.toNat = digits 8 n x := by
    unfold bytesOfNum
    rw [List.map_map]
    refine (List.map_congr_left fun d hd => ?_).trans (List.map_id _)
    have := digits_lt 8 n x d hd
    simpa using Nat.mod_eq_of_lt this
  rw [numOfBytes, hm, ofDigits_digits 8 n x h]

theorem numOfBytes_lt (bs : List Byte) : numOfBytes bs < 2 ^ (8 * bs.length) := by
  have := ofDigits_lt 8 (bs.map BitVec.toNat) (by simp only [List.mem_map]; rintro _ ⟨b, -, rfl⟩; exact b.isLt)
  simpa [numOfBytes] using this

/-- A byte string is the bytes of its number. -/
theorem bytesOfNum_numOfBytes (bs : List Byte) : bytesOfNum bs.length (numOfBytes bs) = bs := by
  have h := digits_ofDigits 8 (bs.map BitVec.toNat)
    (by simp only [List.mem_map]; rintro _ ⟨b, -, rfl⟩; exact b.isLt)
  rw [List.length_map] at h
  simp only [bytesOfNum, numOfBytes, h, List.map_map]
  exact (List.map_congr_left fun b _ => by simp).trans (List.map_id _)

/-- Fields that fit their width and fill whole bytes are read back from their byte string. -/
theorem fields_packFields (w n : Nat) (vs : List Nat) (h : ∀ v ∈ vs, v < 2 ^ w) (hn : 8 * n = w * vs.length) :
    fields w vs.length (packFields w n vs) = vs := by
  rw [fields, packFields, numOfBytes_bytesOfNum, digits_ofDigits w vs h]
  rw [hn]
  exact ofDigits_lt w vs h

/-- A byte string is the packing of its own fields. -/
theorem packFields_fields (w k : Nat) (bs : List Byte) (hn : 8 * bs.length = w * k) :
    packFields w bs.length (fields w k bs) = bs := by
  rw [packFields, fields, ofDigits_digits, bytesOfNum_numOfBytes]
  rw [← hn]
  exact numOfBytes_lt bs

theorem ofDigits_div (w : Nat) (vs : List Nat) (h : ∀ v ∈ vs, v < 2 ^ w) (i : Nat) :
    ofDigits w vs / 2 ^ (w * i) % 2 ^ w = vs.getD i 0 := by
  induction vs generalizing i with
  | nil => simp [ofDigits]
  | cons v vs ih =>
    have hv := h v (by simp)
    cases i with
    | zero => simp [ofDigits, Nat.add_mul_mod_self_left, Nat.mod_eq_of_lt hv]
    | succ i =>
      rw [Nat.mul_succ, Nat.add_comm (w * i), pow_add, ← Nat.div_div_eq_div_mul, ofDigits,
        Nat.add_mul_div_left _ _ (Nat.two_pow_pos w), Nat.div_eq_of_lt hv, Nat.zero_add,
        ih fun u hu => h u (by simp [hu])]
      simp

/-- A bit of the low w bits of a number. -/
theorem mod_two_pow_bit (w r y : Nat) (h : r < w) : y % 2 ^ w / 2 ^ r % 2 = y / 2 ^ r % 2 := by
  obtain ⟨k, rfl⟩ := Nat.exists_eq_add_of_lt h
  rw [show r + k + 1 = r + (k + 1) by omega, pow_add, Nat.mod_mul_right_div_self,
    Nat.mod_mod_of_dvd _ (dvd_pow_self 2 (by omega))]

/-- Bit j of a byte string's number is bit(B, j) of R11. -/
theorem numOfBytes_bit (bs : List Byte) (j : Nat) :
    numOfBytes bs / 2 ^ j % 2 = bitAt (fun k => bs.getD k 0) j := by
  have h : ∀ v ∈ bs.map BitVec.toNat, v < 2 ^ 8 := by
    simp only [List.mem_map]; rintro _ ⟨b, -, rfl⟩; exact b.isLt
  have hd := ofDigits_div 8 _ h (j / 8)
  have hg : (bs.map BitVec.toNat).getD (j / 8) 0 = (bs.getD (j / 8) 0).toNat := by
    simp only [List.getD_eq_getElem?_getD, List.getElem?_map]
    cases bs[j / 8]? <;> rfl
  rw [hg] at hd
  rw [bitAt, ← hd, mod_two_pow_bit 8 _ _ (Nat.mod_lt _ (by norm_num)), Nat.div_div_eq_div_mul, ← pow_add,
    Nat.div_add_mod, numOfBytes]

/-- The sum of a number's bits at their weights is the number. -/
theorem sum_bits (w x : Nat) : ((List.range w).map fun b => x / 2 ^ b % 2 * 2 ^ b).sum = x % 2 ^ w := by
  induction w with
  | zero => simp [Nat.mod_one]
  | succ w ih =>
    rw [List.range_succ, List.map_append, List.sum_append, ih]
    simp only [List.map_cons, List.map_nil, List.sum_cons, List.sum_nil, Nat.add_zero]
    rw [pow_succ, Nat.mod_mul, Nat.mul_comm]

/-- The i-th field a codec reads is fld(B, w, i) of R11. -/
theorem fields_eq_fld (w n : Nat) (bs : List Byte) (i : Nat) (h : i < n) :
    (fields w n bs)[i]? = some (fld (fun k => bs.getD k 0) w i) := by
  rw [fields, digits_getElem? _ _ _ _ h, ← sum_bits, fld]
  simp only [← numOfBytes_bit, Nat.div_div_eq_div_mul, ← pow_add]

end Sys2Proof.Machine
end

