-- ==== Sys2Proof/Laws/Memory.lean ====
section
/-! SUPPORT. The memory: what a write leaves at every offset, that it keeps the canonical form, and how reads of byte
strings, words, coefficients and slots relate to the read of one byte. -/

namespace Sys2Proof.Machine

/-! ## Cells -/

theorem mem_cellsAt {a : Nat} {bs : List Byte} {c : Host.Cell} (h : c ∈ cellsAt a bs) :
    a ≤ c.1 ∧ c.1 < a + bs.length := by
  induction bs generalizing a with
  | nil => simp [cellsAt] at h
  | cons b bs ih =>
    rcases List.mem_cons.1 h with rfl | h
    · simp
    · have := ih h
      simp only [List.length_cons]
      omega

theorem cellsAt_wf (a : Nat) (bs : List Byte) : Memory.wf (cellsAt a bs) := by
  induction bs generalizing a with
  | nil => exact List.Pairwise.nil
  | cons b bs ih => exact List.Pairwise.cons (fun c hc => by have := mem_cellsAt hc; simp; omega) (ih _)

theorem readByte_nil (a : Nat) : readByte [] a = none := rfl

theorem readByte_cons (k : Nat) (b : Byte) (m : Memory) (a : Nat) :
    readByte ((k, b) :: m) a = if k = a then some b else readByte m a := by
  by_cases h : k = a <;> simp [readByte, h]

theorem readByte_append (m m' : Memory) (a : Nat) : readByte (m ++ m') a = (readByte m a).or (readByte m' a) := by
  simp only [readByte, List.find?_append]
  cases m.find? fun c => c.1 = a <;> rfl

/-- An offset that no cell of a list has reads as unwritten. -/
theorem readByte_eq_none {m : Memory} {a : Nat} (h : ∀ c ∈ m, c.1 ≠ a) : readByte m a = none := by
  simp only [readByte, Option.map_eq_none_iff, List.find?_eq_none]
  intro c hc
  simpa using h c hc

theorem readByte_filter (m : Memory) (p : Nat → Bool) (a : Nat) :
    readByte (m.filter fun c => p c.1) a = if p a then readByte m a else none := by
  induction m with
  | nil => simp [readByte_nil]
  | cons c m ih =>
    obtain ⟨k, b⟩ := c
    by_cases hk : p k = true
    · rw [List.filter_cons_of_pos (by simpa using hk), readByte_cons, readByte_cons, ih]
      by_cases hka : k = a
      · subst hka; simp [hk]
      · simp [hka]
    · rw [List.filter_cons_of_neg (by simpa using hk), ih, readByte_cons]
      by_cases hka : k = a
      · subst hka; simp [hk]
      · simp [hka]

theorem readByte_cellsAt (a : Nat) (bs : List Byte) (x : Nat) :
    readByte (cellsAt a bs) x = if a ≤ x then bs[x - a]? else none := by
  induction bs generalizing a with
  | nil => simp [cellsAt, readByte_nil]
  | cons b bs ih =>
    rw [cellsAt, readByte_cons, ih]
    rcases Nat.lt_trichotomy a x with h | h | h
    · rw [if_neg (by omega), if_pos (by omega), if_pos (by omega), show x - a = x - (a + 1) + 1 by omega]
      simp
    · subst h; simp
    · rw [if_neg (by omega), if_neg (by omega), if_neg (by omega)]

/-! ## Writes -/

/-- Everything a write does to a read: inside the written string the string's byte, elsewhere what stood there. -/
theorem readByte_writeBytes (m : Memory) (a : Nat) (bs : List Byte) (x : Nat) :
    readByte (writeBytes m a bs) x = if a ≤ x ∧ x < a + bs.length then bs[x - a]? else readByte m x := by
  rw [writeBytes, readByte_append, readByte_append, readByte_cellsAt]
  have h1 := readByte_filter m (fun k => decide (k < a)) x
  have h2 := readByte_filter m (fun k => decide (a + bs.length ≤ k)) x
  simp only [decide_eq_true_eq] at h1 h2
  rw [h1, h2]
  by_cases hlo : x < a
  · rw [if_pos hlo, if_neg (by omega), if_neg (by omega), if_neg (by omega)]
    cases readByte m x <;> rfl
  · by_cases hhi : x < a + bs.length
    · rw [if_neg hlo, if_pos (by omega), if_neg (by omega), if_pos (by omega)]
      cases bs[x - a]? <;> rfl
    · rw [if_neg hlo, if_pos (by omega), if_pos (by omega), if_neg (by omega),
        List.getElem?_eq_none (by omega)]
      rfl

theorem readByte_writeBytes_outside (m : Memory) (a : Nat) (bs : List Byte) (x : Nat)
    (h : x < a ∨ a + bs.length ≤ x) : readByte (writeBytes m a bs) x = readByte m x := by
  rw [readByte_writeBytes, if_neg (by omega)]

/-- A write keeps the canonical form. -/
theorem writeBytes_wf {m : Memory} (h : m.wf) (a : Nat) (bs : List Byte) : (writeBytes m a bs).wf := by
  refine List.pairwise_append.2 ⟨List.pairwise_append.2 ⟨h.filter _, cellsAt_wf a bs, ?_⟩, h.filter _, ?_⟩
  · intro x hx y hy
    have h1 : x.1 < a := by simpa using (List.mem_filter.1 hx).2
    have h2 := mem_cellsAt hy
    omega
  · intro x hx y hy
    have h2 : a + bs.length ≤ y.1 := by simpa using (List.mem_filter.1 hy).2
    rcases List.mem_append.1 hx with hx | hx
    · have h1 : x.1 < a := by simpa using (List.mem_filter.1 hx).2
      omega
    · have h1 := mem_cellsAt hx
      omega

/-- A cell after a write is an old one or lies in the written string. -/
theorem mem_writeBytes {m : Memory} {a : Nat} {bs : List Byte} {c : Host.Cell} (h : c ∈ writeBytes m a bs) :
    c ∈ m ∨ (a ≤ c.1 ∧ c.1 < a + bs.length) := by
  rcases List.mem_append.1 h with h | h
  · rcases List.mem_append.1 h with h | h
    · exact .inl (List.mem_filter.1 h).1
    · exact .inr (mem_cellsAt h)
  · exact .inl (List.mem_filter.1 h).1

/-! ## Byte strings -/

theorem readBytes_length {m : Memory} {a n : Nat} {bs : List Byte} (h : readBytes m a n = some bs) :
    bs.length = n := by
  induction m generalizing a n bs with
  | nil =>
    cases n with
    | zero => simp [readBytes] at h; simp [← h]
    | succ n => simp [readBytes] at h
  | cons c m ih =>
    obtain ⟨k, b⟩ := c
    cases n with
    | zero => simp [readBytes] at h; simp [← h]
    | succ n =>
      simp only [readBytes] at h
      split at h
      · exact ih h
      · split at h
        · obtain ⟨r, hr, rfl⟩ := Option.map_eq_some_iff.1 h
          simp [ih hr]
        · simp at h

/-- In canonical memory a byte string is read exactly where each of its bytes is. -/
theorem readBytes_eq_some_iff {m : Memory} (hm : m.wf) {a n : Nat} {bs : List Byte} :
    readBytes m a n = some bs ↔ bs.length = n ∧ ∀ i < n, readByte m (a + i) = bs[i]? := by
  induction m generalizing a n bs with
  | nil =>
    cases n with
    | zero => simp [readBytes, eq_comm (a := ([] : List Byte))]
    | succ n =>
      simp only [readBytes, readByte_nil, reduceCtorEq, false_iff, not_and]
      intro hl hr
      have := hr 0 (by omega)
      rw [List.getElem?_eq_getElem (by omega)] at this
      simp at this
  | cons c m ih =>
    obtain ⟨k, b⟩ := c
    have hk : ∀ c ∈ m, k < c.1 := fun c hc => (List.pairwise_cons.1 hm).1 c hc
    have hm' : Memory.wf m := (List.pairwise_cons.1 hm).2
    cases n with
    | zero => simp [readBytes, eq_comm (a := ([] : List Byte))]
    | succ n =>
      simp only [readBytes]
      split
      · rename_i h
        rw [ih hm']
        refine and_congr_right fun _ => forall₂_congr fun i _ => ?_
        rw [readByte_cons, if_neg (by omega)]
      · rename_i h
        split
        · rename_i h'
          subst h'
          cases bs with
          | nil => simp
          | cons x xs =>
            simp only [Option.map_eq_some_iff, List.cons.injEq, List.length_cons, Nat.add_right_cancel_iff]
            constructor
            · rintro ⟨r, hr, rfl, rfl⟩
              have := (ih hm').1 hr
              refine ⟨this.1, fun i hi => ?_⟩
              cases i with
              | zero => simp [readByte_cons]
              | succ i =>
                rw [readByte_cons, if_neg (by omega), show k + (i + 1) = k + 1 + i by omega]
                simpa using this.2 i (by omega)
            · rintro ⟨hl, hr⟩
              refine ⟨xs, (ih hm').2 ⟨hl, fun i hi => ?_⟩, ?_, rfl⟩
              · have := hr (i + 1) (by omega)
                rw [readByte_cons, if_neg (by omega), show k + (i + 1) = k + 1 + i by omega] at this
                simpa using this
              · have := hr 0 (by omega)
                simpa [readByte_cons] using this
        · rename_i h'
          simp only [reduceCtorEq, false_iff, not_and]
          intro hl hr
          have := hr 0 (by omega)
          rw [readByte_cons, if_neg (by omega), readByte_eq_none (fun c hc => by have := hk c hc; omega),
            List.getElem?_eq_getElem (by omega)] at this
          simp at this

theorem readBytes_skip (m m' : Memory) (a n : Nat) (h : ∀ c ∈ m, c.1 < a) :
    readBytes (m ++ m') a n = readBytes m' a n := by
  induction m with
  | nil => rfl
  | cons c m ih =>
    obtain ⟨k, b⟩ := c
    have hk : k < a := h (k, b) (by simp)
    cases n with
    | zero => cases m' <;> simp [readBytes]
    | succ n => simp only [List.cons_append, readBytes, hk, if_true]; exact ih fun c hc => h c (by simp [hc])

theorem readBytes_cellsAt (a : Nat) (bs : List Byte) (m : Memory) :
    readBytes (cellsAt a bs ++ m) a bs.length = some bs := by
  induction bs generalizing a with
  | nil => cases m <;> simp [cellsAt, readBytes]
  | cons b bs ih => simp [cellsAt, readBytes, ih]

/-- A byte string that was written is read back, whatever else memory holds. -/
theorem readBytes_writeBytes (m : Memory) (a : Nat) (bs : List Byte) :
    readBytes (writeBytes m a bs) a bs.length = some bs := by
  rw [writeBytes, List.append_assoc, readBytes_skip _ _ _ _ (fun c hc => by simpa using (List.mem_filter.1 hc).2),
    readBytes_cellsAt]

/-- In canonical memory a write elsewhere leaves a byte string as it was. -/
theorem readBytes_writeBytes_disjoint {m : Memory} (hm : m.wf) (a n b : Nat) (bs : List Byte)
    (h : a + n ≤ b ∨ b + bs.length ≤ a) : readBytes (writeBytes m b bs) a n = readBytes m a n := by
  ext xs
  rw [readBytes_eq_some_iff (writeBytes_wf hm b bs), readBytes_eq_some_iff hm]
  refine and_congr_right fun _ => forall₂_congr fun i hi => ?_
  rw [readByte_writeBytes_outside _ _ _ _ (by omega)]

/-! ## Words and coefficients -/

@[simp] theorem bytesOfWord_length (v : Word) : (bytesOfWord v).length = 4 := by simp [bytesOfWord]

@[simp] theorem flatMap_bytesOfWord_length (cs : List Word) : (cs.flatMap bytesOfWord).length = 4 * cs.length := by
  induction cs with
  | nil => rfl
  | cons c cs ih => simp [ih]; omega

theorem wordsOfBytes_bytesOfWord (v : Word) (bs : List Byte) :
    wordsOfBytes (bytesOfWord v ++ bs) = v :: wordsOfBytes bs := by
  simp only [bytesOfWord, bytesOfNum, digits, List.map_cons, List.map_nil, List.cons_append, List.nil_append,
    wordsOfBytes, List.cons.injEq, and_true]
  apply BitVec.eq_of_toNat_eq
  simp only [BitVec.toNat_append, BitVec.toNat_ofNat]
  have hv := v.isLt
  simp only [Nat.shiftLeft_eq, Nat.mod_mod]
  rw [Nat.mul_comm _ (2 ^ 8), Nat.mul_comm _ (2 ^ 8), Nat.mul_comm _ (2 ^ 8),
    ← Nat.two_pow_add_eq_or_of_lt (by omega), ← Nat.two_pow_add_eq_or_of_lt (by omega),
    ← Nat.two_pow_add_eq_or_of_lt (by omega)]
  omega

/-- The words a list of coefficients was written from are read back. -/
theorem wordsOfBytes_flatMap (cs : List Word) : wordsOfBytes (cs.flatMap bytesOfWord) = cs := by
  induction cs with
  | nil => rfl
  | cons c cs ih => rw [List.flatMap_cons, wordsOfBytes_bytesOfWord, ih]

theorem wordsOfBytes_length (bs : List Byte) : (wordsOfBytes bs).length = bs.length / 4 := by
  induction bs using wordsOfBytes.induct with
  | case1 b0 b1 b2 b3 bs ih => simp only [wordsOfBytes, List.length_cons, ih]; omega
  | case2 bs h =>
    match bs with
    | [] | [_] | [_, _] | [_, _, _] => simp [wordsOfBytes]
    | b0 :: b1 :: b2 :: b3 :: bs => exact absurd rfl (h b0 b1 b2 b3 bs)

/-- A byte string of whole words is the bytes of its words. -/
theorem flatMap_wordsOfBytes {bs : List Byte} {n : Nat} (h : bs.length = 4 * n) :
    (wordsOfBytes bs).flatMap bytesOfWord = bs := by
  induction n generalizing bs with
  | zero => obtain rfl := List.length_eq_zero_iff.1 (show bs.length = 0 by omega); rfl
  | succ n ih =>
    match bs, h with
    | b0 :: b1 :: b2 :: b3 :: bs, h =>
      rw [wordsOfBytes, List.flatMap_cons, ih (by simp at h; omega)]
      have hb : bytesOfWord (b3 ++ b2 ++ b1 ++ b0 : Word) = [b0, b1, b2, b3] := by
        simp only [bytesOfWord, bytesOfNum, digits, List.map_cons, List.map_nil, List.cons.injEq, and_true]
        simp only [BitVec.toNat_append, Nat.shiftLeft_eq]
        have h0 := b0.isLt
        have h1 := b1.isLt
        have h2 := b2.isLt
        have h3 := b3.isLt
        rw [Nat.mul_comm _ (2 ^ 8), Nat.mul_comm _ (2 ^ 8), Nat.mul_comm _ (2 ^ 8),
          ← Nat.two_pow_add_eq_or_of_lt (by omega), ← Nat.two_pow_add_eq_or_of_lt (by omega),
          ← Nat.two_pow_add_eq_or_of_lt (by omega)]
        refine ⟨?_, ?_, ?_, ?_⟩ <;> apply BitVec.eq_of_toNat_eq <;> simp only [BitVec.toNat_ofNat] <;> omega
      rw [hb]
      rfl
    | [_], h | [_, _], h | [_, _, _], h => simp at h; omega

theorem flatMap_bytesOfWord_getElem? (cs : List Word) (i j : Nat) (hj : j < 4) :
    (cs.flatMap bytesOfWord)[4 * i + j]? = cs[i]?.bind fun c => (bytesOfWord c)[j]? := by
  induction cs generalizing i with
  | nil => simp
  | cons c cs ih =>
    rw [List.flatMap_cons]
    cases i with
    | zero => rw [List.getElem?_append_left (by simpa using hj)]; simp
    | succ i =>
      rw [List.getElem?_append_right (by simp; omega), bytesOfWord_length, List.getElem?_cons_succ,
        show 4 * (i + 1) + j - 4 = 4 * i + j by omega, ih]

/-- A word is read exactly where its four bytes are. -/
theorem readWord_eq_some_iff {m : Memory} {a : Nat} {v : Word} :
    readWord m a = some v ↔ readBytes m a 4 = some (bytesOfWord v) := by
  rw [readWord, Option.bind_eq_some_iff]
  constructor
  · rintro ⟨bs, hr, hv⟩
    have hl := readBytes_length hr
    have hw := flatMap_wordsOfBytes (n := 1) hl
    have hn : (wordsOfBytes bs).length = 1 := by rw [wordsOfBytes_length, hl]
    obtain ⟨w, hw'⟩ := List.length_eq_one_iff.1 hn
    rw [hw'] at hv hw
    simp only [List.head?_cons, Option.some.injEq] at hv
    simp only [List.flatMap_cons, List.flatMap_nil, List.append_nil] at hw
    rw [hr, ← hw, hv]
  · intro hr
    refine ⟨_, hr, ?_⟩
    have := wordsOfBytes_bytesOfWord v []
    rw [List.append_nil] at this
    rw [this]
    rfl

/-- In canonical memory a word is read exactly where its four bytes are, one by one. -/
theorem readWord_iff_bytes {m : Memory} (hm : m.wf) {a : Nat} {v : Word} :
    readWord m a = some v ↔ ∀ j < 4, readByte m (a + j) = (bytesOfWord v)[j]? := by
  rw [readWord_eq_some_iff, readBytes_eq_some_iff hm]
  simp

theorem coeffAddr_add (n i : Nat) : coeffAddr n i = coeffAddr n 0 + 4 * i := by simp [coeffAddr]

/-- A slot's coefficients follow those of the slot before it. -/
theorem coeffAddr_slot_add (n k i : Nat) : coeffAddr (n + k) i = coeffAddr n (256 * k + i) := by
  simp only [coeffAddr]; omega

/-- In canonical memory a run of words is read exactly where each of them is. -/
theorem readBytes_words {m : Memory} (hm : m.wf) {a : Nat} {cs : List Word} :
    readBytes m a (4 * cs.length) = some (cs.flatMap bytesOfWord) ↔ ∀ i < cs.length, readWord m (a + 4 * i) = cs[i]? := by
  rw [readBytes_eq_some_iff hm]
  simp only [flatMap_bytesOfWord_length, true_and]
  constructor
  · intro h i hi
    rw [List.getElem?_eq_getElem hi, readWord_iff_bytes hm]
    intro j hj
    have := h (4 * i + j) (by omega)
    rw [flatMap_bytesOfWord_getElem? _ _ _ hj, List.getElem?_eq_getElem hi, ← Nat.add_assoc] at this
    exact this
  · intro h x hx
    have hi : x / 4 < cs.length := by omega
    have := h (x / 4) hi
    rw [List.getElem?_eq_getElem hi, readWord_iff_bytes hm] at this
    have hj := this (x % 4) (Nat.mod_lt _ (by norm_num))
    have hf := flatMap_bytesOfWord_getElem? cs (x / 4) (x % 4) (Nat.mod_lt _ (by norm_num))
    rw [Nat.div_add_mod, List.getElem?_eq_getElem hi] at hf
    rw [hf, Nat.add_assoc, Nat.div_add_mod] at *
    exact hj

/-- In canonical memory a slot is read exactly where each of its 256 coefficients is. -/
theorem readSlot_eq_some_iff {m : Memory} (hm : m.wf) {n : Nat} {cs : List Word} :
    readSlot m n = some cs ↔ cs.length = ringDegree ∧ ∀ i < ringDegree, readCoeff m n i = cs[i]? := by
  have key : cs.length = ringDegree →
      (readBytes m (coeffAddr n 0) (4 * ringDegree) = some (cs.flatMap bytesOfWord) ↔
        ∀ i < ringDegree, readCoeff m n i = cs[i]?) := by
    intro hl
    rw [← hl, readBytes_words hm]
    simp only [readCoeff, ← coeffAddr_add]
  rw [readSlot, Option.map_eq_some_iff]
  constructor
  · rintro ⟨bs, hr, rfl⟩
    have hl := readBytes_length hr
    have hn : (wordsOfBytes bs).length = ringDegree := by rw [wordsOfBytes_length, hl]; rfl
    refine ⟨hn, (key hn).1 ?_⟩
    rw [flatMap_wordsOfBytes hl, hr]
  · rintro ⟨hl, h⟩
    exact ⟨_, (key hl).2 h, wordsOfBytes_flatMap cs⟩

theorem readSlot_length {m : Memory} {n : Nat} {cs : List Word} (h : readSlot m n = some cs) :
    cs.length = ringDegree := by
  obtain ⟨bs, hr, rfl⟩ := Option.map_eq_some_iff.1 h
  rw [wordsOfBytes_length, readBytes_length hr]
  rfl

theorem readSlots_length {m : Memory} {n k : Nat} {hs : List (List Word)} (h : readSlots m n k = some hs) :
    hs.length = k ∧ ∀ p ∈ hs, p.length = ringDegree := by
  induction k generalizing n hs with
  | zero => obtain rfl := (Option.some.inj h).symm; simp
  | succ k ih =>
    obtain ⟨p, hp, h⟩ := Option.bind_eq_some_iff.1 h
    obtain ⟨ps, hps, rfl⟩ := Option.map_eq_some_iff.1 h
    have := ih hps
    refine ⟨by simp [this.1], fun x hx => ?_⟩
    rcases List.mem_cons.1 hx with rfl | hx
    · exact readSlot_length hp
    · exact this.2 x hx

theorem writeCoeffs_wf {m : Memory} (h : m.wf) (n : Nat) (cs : List Word) : (writeCoeffs m n cs).wf :=
  writeBytes_wf h _ _

theorem memWrite_wf {m : Memory} (h : m.wf) (a : Nat) (bs : List Byte) : (memWrite m a bs).wf := writeBytes_wf h _ _

theorem readByte_writeCoeffs_outside (m : Memory) (n : Nat) (cs : List Word) (x : Nat)
    (h : x < coeffAddr n 0 ∨ coeffAddr n 0 + 4 * cs.length ≤ x) :
    readByte (writeCoeffs m n cs) x = readByte m x :=
  readByte_writeBytes_outside _ _ _ _ (by rwa [flatMap_bytesOfWord_length])

/-- Coefficient i of what a write of coefficients put there, counted from slot n on. -/
theorem readCoeff_writeCoeffs {m : Memory} (hm : m.wf) (n i : Nat) (cs : List Word) (h : i < cs.length) :
    readCoeff (writeCoeffs m n cs) n i = cs[i]? := by
  have hr := readBytes_writeBytes m (coeffAddr n 0) (cs.flatMap bytesOfWord)
  rw [flatMap_bytesOfWord_length] at hr
  have := (readBytes_words (writeCoeffs_wf hm n cs)).1 hr i h
  rwa [← coeffAddr_add] at this

/-- A whole slot is read back, whatever else memory holds. -/
theorem readSlot_writeCoeffs (m : Memory) (n : Nat) (cs : List Word) (h : cs.length = ringDegree) :
    readSlot (writeCoeffs m n cs) n = some cs := by
  have hr := readBytes_writeBytes m (coeffAddr n 0) (cs.flatMap bytesOfWord)
  rw [flatMap_bytesOfWord_length, h] at hr
  rw [readSlot, writeCoeffs, hr, Option.map_some, wordsOfBytes_flatMap]

/-- In canonical memory a write elsewhere leaves a coefficient as it was. -/
theorem readCoeff_writeBytes_disjoint {m : Memory} (hm : m.wf) (n i b : Nat) (bs : List Byte)
    (h : coeffAddr n i + 4 ≤ b ∨ b + bs.length ≤ coeffAddr n i) :
    readCoeff (writeBytes m b bs) n i = readCoeff m n i := by
  rw [readCoeff, readCoeff, readWord, readWord, readBytes_writeBytes_disjoint hm _ _ _ _ h]

/-- A BUF window is read back, whatever else memory holds. -/
theorem memRead_memWrite (m : Memory) (a : Nat) (bs : List Byte) :
    memRead (memWrite m a bs) a bs.length = some bs := readBytes_writeBytes _ _ _

/-- In canonical memory a BUF window is read exactly where each of its bytes is. -/
theorem memRead_of_bytes {m : Memory} (hm : m.wf) {a n : Nat} {W : Nat → Byte}
    (h : ∀ k < n, readByte m (bufBase + a + k) = some (W k)) :
    memRead m a n = some ((List.range n).map W) := by
  refine (readBytes_eq_some_iff hm).2 ⟨by simp, fun k hk => ?_⟩
  rw [h k hk]
  simp [hk]

/-- In canonical memory a slot whose coefficients are known is read. -/
theorem readSlot_of_coeffs {m : Memory} (hm : m.wf) {n : Nat} {c : Nat → Word}
    (h : ∀ i < ringDegree, readCoeff m n i = some (c i)) :
    readSlot m n = some ((List.range ringDegree).map c) := by
  refine (readSlot_eq_some_iff hm).2 ⟨by simp, fun i hi => ?_⟩
  rw [h i hi]
  simp only [List.getElem?_map, List.getElem?_range hi, Option.map_some]

/-- In canonical memory a VecK whose coefficients are known is read. -/
theorem readSlots_of_coeffs {m : Memory} (hm : m.wf) {n k : Nat} {h : Nat → Nat → Word}
    (hc : ∀ i < k, ∀ j < ringDegree, readCoeff m (n + i) j = some (h i j)) :
    readSlots m n k = some ((List.range k).map fun i => (List.range ringDegree).map (h i)) := by
  induction k generalizing n h with
  | zero => rfl
  | succ k ih =>
    have h0 := readSlot_of_coeffs hm (n := n) (c := h 0) (by simpa using hc 0 (by omega))
    have hr := ih (n := n + 1) (h := fun i => h (i + 1))
      (fun i hi j hj => by rw [show n + 1 + i = n + (i + 1) by omega]; exact hc (i + 1) (by omega) j hj)
    rw [readSlots, h0, Option.bind_some, hr, Option.map_some, List.range_succ_eq_map (n := k), List.map_cons,
      List.map_map]
    rfl

end Sys2Proof.Machine
end

