-- ==== Sys2Proof/Laws/State.lean ====
section
/-! SUPPORT. What each named update of State does to each field, so that no proof unfolds a record update. -/

namespace Sys2Proof.Machine

/-! ## Completion -/

@[simp] theorem complete_chip (s : State) (e : ErrCode) (d : Bool) : (complete s e d).chip = s.chip := rfl
@[simp] theorem complete_cmd (s : State) (e : ErrCode) (d : Bool) : (complete s e d).cmd = s.cmd := rfl
@[simp] theorem complete_done (s : State) (e : ErrCode) (d : Bool) : (complete s e d).done = true := rfl
@[simp] theorem complete_dfail (s : State) (e : ErrCode) (d : Bool) : (complete s e d).dfail = d := rfl
@[simp] theorem complete_err (s : State) (e : ErrCode) (d : Bool) : (complete s e d).err = e := rfl
@[simp] theorem complete_werr (s : State) (e : ErrCode) (d : Bool) : (complete s e d).werr = s.werr := rfl
@[simp] theorem complete_fatal (s : State) (e : ErrCode) (d : Bool) : (complete s e d).fatal = s.fatal := rfl
@[simp] theorem complete_ie (s : State) (e : ErrCode) (d : Bool) : (complete s e d).ie = s.ie := rfl
@[simp] theorem complete_xcnt (s : State) (e : ErrCode) (d : Bool) : (complete s e d).xcnt = s.xcnt := rfl
@[simp] theorem complete_arg0 (s : State) (e : ErrCode) (d : Bool) : (complete s e d).arg0 = s.arg0 := rfl
@[simp] theorem complete_arg1 (s : State) (e : ErrCode) (d : Bool) : (complete s e d).arg1 = s.arg1 := rfl
@[simp] theorem complete_res0 (s : State) (e : ErrCode) (d : Bool) : (complete s e d).res0 = s.res0 := rfl
@[simp] theorem complete_res1 (s : State) (e : ErrCode) (d : Bool) : (complete s e d).res1 = s.res1 := rfl
@[simp] theorem complete_mem (s : State) (e : ErrCode) (d : Bool) : (complete s e d).mem = s.mem := rfl
@[simp] theorem complete_engine (s : State) (e : ErrCode) (d : Bool) : (complete s e d).engine = .idle := rfl
@[simp] theorem complete_host (s : State) (e : ErrCode) (d : Bool) : (complete s e d).host = s.host := rfl
@[simp] theorem complete_vars (s : State) (e : ErrCode) (d : Bool) : (complete s e d).vars = s.vars := rfl
@[simp] theorem complete_hostTurns (s : State) (e : ErrCode) (d : Bool) : (complete s e d).hostTurns = s.hostTurns := rfl
@[simp] theorem complete_sched (s : State) (e : ErrCode) (d : Bool) : (complete s e d).sched = s.sched := rfl
@[simp] theorem complete_draws (s : State) (e : ErrCode) (d : Bool) : (complete s e d).draws = s.draws + 1 := rfl

@[simp] theorem complete_busy (s : State) (e : ErrCode) (d : Bool) : (complete s e d).busy = false := rfl
@[simp] theorem complete_loop (s : State) (e : ErrCode) (d : Bool) : (complete s e d).loop = none := rfl
@[simp] theorem complete_abortPending (s : State) (e : ErrCode) (d : Bool) : (complete s e d).abortPending = false := rfl
@[simp] theorem succeed_eq (s : State) : succeed s = complete s .ok false := rfl
@[simp] theorem abortWith_eq (s : State) (ds : List Dest) : abortWith s ds = complete (anyAll s ds) .aborted false := rfl
@[simp] theorem failXof_eq (s : State) (ds : List Dest) :
    failXof s ds = complete { anyAll s ds with fatal := true } .xofFail false := rfl

/-! ## Issue -/

@[simp] theorem latch_chip (s : State) (w : Word) : (latch s w).chip = s.chip := rfl
@[simp] theorem latch_cmd (s : State) (w : Word) : (latch s w).cmd = w := rfl
@[simp] theorem latch_done (s : State) (w : Word) : (latch s w).done = false := rfl
@[simp] theorem latch_dfail (s : State) (w : Word) : (latch s w).dfail = false := rfl
@[simp] theorem latch_err (s : State) (w : Word) : (latch s w).err = .ok := rfl
@[simp] theorem latch_werr (s : State) (w : Word) : (latch s w).werr = s.werr := rfl
@[simp] theorem latch_fatal (s : State) (w : Word) : (latch s w).fatal = s.fatal := rfl
@[simp] theorem latch_ie (s : State) (w : Word) : (latch s w).ie = s.ie := rfl
@[simp] theorem latch_xcnt (s : State) (w : Word) : (latch s w).xcnt = if isSamplerWord w then 0 else s.xcnt := rfl
@[simp] theorem latch_arg0 (s : State) (w : Word) : (latch s w).arg0 = s.arg0 := rfl
@[simp] theorem latch_arg1 (s : State) (w : Word) : (latch s w).arg1 = s.arg1 := rfl
@[simp] theorem latch_res0 (s : State) (w : Word) : (latch s w).res0 = s.res0 := rfl
@[simp] theorem latch_res1 (s : State) (w : Word) : (latch s w).res1 = s.res1 := rfl
@[simp] theorem latch_mem (s : State) (w : Word) : (latch s w).mem = s.mem := rfl
@[simp] theorem latch_engine (s : State) (w : Word) : (latch s w).engine = .running ⟨w, s.arg0, s.arg1⟩ none false := rfl
@[simp] theorem latch_host (s : State) (w : Word) : (latch s w).host = s.host := rfl
@[simp] theorem latch_vars (s : State) (w : Word) : (latch s w).vars = s.vars := rfl
@[simp] theorem latch_hostTurns (s : State) (w : Word) : (latch s w).hostTurns = s.hostTurns := rfl
@[simp] theorem latch_sched (s : State) (w : Word) : (latch s w).sched = s.sched := rfl
@[simp] theorem latch_draws (s : State) (w : Word) : (latch s w).draws = s.draws + 1 := rfl

@[simp] theorem latch_busy (s : State) (w : Word) : (latch s w).busy = true := rfl
@[simp] theorem latch_latched (s : State) (w : Word) : (latch s w).latched = ⟨w, s.arg0, s.arg1⟩ := rfl
@[simp] theorem latch_loop (s : State) (w : Word) : (latch s w).loop = none := rfl
@[simp] theorem latch_abortPending (s : State) (w : Word) : (latch s w).abortPending = false := rfl

/-! ## Reset -/

@[simp] theorem resetEngine_chip (s : State) : (resetEngine s).chip = s.chip := rfl
@[simp] theorem resetEngine_cmd (s : State) : (resetEngine s).cmd = State.reset.cmd := rfl
@[simp] theorem resetEngine_done (s : State) : (resetEngine s).done = State.reset.done := rfl
@[simp] theorem resetEngine_dfail (s : State) : (resetEngine s).dfail = State.reset.dfail := rfl
@[simp] theorem resetEngine_err (s : State) : (resetEngine s).err = State.reset.err := rfl
@[simp] theorem resetEngine_werr (s : State) : (resetEngine s).werr = State.reset.werr := rfl
@[simp] theorem resetEngine_fatal (s : State) : (resetEngine s).fatal = State.reset.fatal := rfl
@[simp] theorem resetEngine_ie (s : State) : (resetEngine s).ie = State.reset.ie := rfl
@[simp] theorem resetEngine_xcnt (s : State) : (resetEngine s).xcnt = State.reset.xcnt := rfl
@[simp] theorem resetEngine_arg0 (s : State) : (resetEngine s).arg0 = State.reset.arg0 := rfl
@[simp] theorem resetEngine_arg1 (s : State) : (resetEngine s).arg1 = State.reset.arg1 := rfl
@[simp] theorem resetEngine_res0 (s : State) : (resetEngine s).res0 = State.reset.res0 := rfl
@[simp] theorem resetEngine_res1 (s : State) : (resetEngine s).res1 = State.reset.res1 := rfl
@[simp] theorem resetEngine_mem (s : State) : (resetEngine s).mem = State.reset.mem := rfl
@[simp] theorem resetEngine_engine (s : State) : (resetEngine s).engine = State.reset.engine := rfl
@[simp] theorem resetEngine_host (s : State) : (resetEngine s).host = s.host := rfl
@[simp] theorem resetEngine_vars (s : State) : (resetEngine s).vars = s.vars := rfl
@[simp] theorem resetEngine_hostTurns (s : State) : (resetEngine s).hostTurns = State.reset.hostTurns := rfl
@[simp] theorem resetEngine_sched (s : State) : (resetEngine s).sched = s.sched := rfl
@[simp] theorem resetEngine_draws (s : State) : (resetEngine s).draws = s.draws := rfl

/-! ## Schedule -/

@[simp] theorem schedule_chip (s : State) : (schedule s).chip = s.chip := by unfold schedule; split <;> rfl
@[simp] theorem schedule_cmd (s : State) : (schedule s).cmd = s.cmd := by unfold schedule; split <;> rfl
@[simp] theorem schedule_done (s : State) : (schedule s).done = s.done := by unfold schedule; split <;> rfl
@[simp] theorem schedule_dfail (s : State) : (schedule s).dfail = s.dfail := by unfold schedule; split <;> rfl
@[simp] theorem schedule_err (s : State) : (schedule s).err = s.err := by unfold schedule; split <;> rfl
@[simp] theorem schedule_werr (s : State) : (schedule s).werr = s.werr := by unfold schedule; split <;> rfl
@[simp] theorem schedule_fatal (s : State) : (schedule s).fatal = s.fatal := by unfold schedule; split <;> rfl
@[simp] theorem schedule_ie (s : State) : (schedule s).ie = s.ie := by unfold schedule; split <;> rfl
@[simp] theorem schedule_xcnt (s : State) : (schedule s).xcnt = s.xcnt := by unfold schedule; split <;> rfl
@[simp] theorem schedule_arg0 (s : State) : (schedule s).arg0 = s.arg0 := by unfold schedule; split <;> rfl
@[simp] theorem schedule_arg1 (s : State) : (schedule s).arg1 = s.arg1 := by unfold schedule; split <;> rfl
@[simp] theorem schedule_res0 (s : State) : (schedule s).res0 = s.res0 := by unfold schedule; split <;> rfl
@[simp] theorem schedule_res1 (s : State) : (schedule s).res1 = s.res1 := by unfold schedule; split <;> rfl
@[simp] theorem schedule_mem (s : State) : (schedule s).mem = s.mem := by unfold schedule; split <;> rfl
@[simp] theorem schedule_engine (s : State) : (schedule s).engine = s.engine := by unfold schedule; split <;> rfl
@[simp] theorem schedule_host (s : State) : (schedule s).host = s.host := by unfold schedule; split <;> rfl
@[simp] theorem schedule_vars (s : State) : (schedule s).vars = s.vars := by unfold schedule; split <;> rfl
@[simp] theorem schedule_draws (s : State) : (schedule s).draws = s.draws := by unfold schedule; split <;> rfl

/-! ## Free values in a destination -/

@[simp] theorem anyInto_chip (s : State) (d : Dest) : (anyInto s d).chip = s.chip := by cases d <;> rfl
@[simp] theorem anyInto_cmd (s : State) (d : Dest) : (anyInto s d).cmd = s.cmd := by cases d <;> rfl
@[simp] theorem anyInto_done (s : State) (d : Dest) : (anyInto s d).done = s.done := by cases d <;> rfl
@[simp] theorem anyInto_dfail (s : State) (d : Dest) : (anyInto s d).dfail = s.dfail := by cases d <;> rfl
@[simp] theorem anyInto_err (s : State) (d : Dest) : (anyInto s d).err = s.err := by cases d <;> rfl
@[simp] theorem anyInto_werr (s : State) (d : Dest) : (anyInto s d).werr = s.werr := by cases d <;> rfl
@[simp] theorem anyInto_fatal (s : State) (d : Dest) : (anyInto s d).fatal = s.fatal := by cases d <;> rfl
@[simp] theorem anyInto_ie (s : State) (d : Dest) : (anyInto s d).ie = s.ie := by cases d <;> rfl
@[simp] theorem anyInto_arg0 (s : State) (d : Dest) : (anyInto s d).arg0 = s.arg0 := by cases d <;> rfl
@[simp] theorem anyInto_arg1 (s : State) (d : Dest) : (anyInto s d).arg1 = s.arg1 := by cases d <;> rfl
@[simp] theorem anyInto_engine (s : State) (d : Dest) : (anyInto s d).engine = s.engine := by cases d <;> rfl
@[simp] theorem anyInto_host (s : State) (d : Dest) : (anyInto s d).host = s.host := by cases d <;> rfl
@[simp] theorem anyInto_vars (s : State) (d : Dest) : (anyInto s d).vars = s.vars := by cases d <;> rfl
@[simp] theorem anyInto_hostTurns (s : State) (d : Dest) : (anyInto s d).hostTurns = s.hostTurns := by cases d <;> rfl
@[simp] theorem anyInto_sched (s : State) (d : Dest) : (anyInto s d).sched = s.sched := by cases d <;> rfl
@[simp] theorem anyInto_draws (s : State) (d : Dest) : (anyInto s d).draws = s.draws := by cases d <;> rfl

@[simp] theorem anyAll_chip (s : State) (ds : List Dest) : (anyAll s ds).chip = s.chip := by
  induction ds generalizing s with
  | nil => rfl
  | cons d ds ih => exact (ih (anyInto s d)).trans (anyInto_chip s d)
@[simp] theorem anyAll_cmd (s : State) (ds : List Dest) : (anyAll s ds).cmd = s.cmd := by
  induction ds generalizing s with
  | nil => rfl
  | cons d ds ih => exact (ih (anyInto s d)).trans (anyInto_cmd s d)
@[simp] theorem anyAll_done (s : State) (ds : List Dest) : (anyAll s ds).done = s.done := by
  induction ds generalizing s with
  | nil => rfl
  | cons d ds ih => exact (ih (anyInto s d)).trans (anyInto_done s d)
@[simp] theorem anyAll_dfail (s : State) (ds : List Dest) : (anyAll s ds).dfail = s.dfail := by
  induction ds generalizing s with
  | nil => rfl
  | cons d ds ih => exact (ih (anyInto s d)).trans (anyInto_dfail s d)
@[simp] theorem anyAll_err (s : State) (ds : List Dest) : (anyAll s ds).err = s.err := by
  induction ds generalizing s with
  | nil => rfl
  | cons d ds ih => exact (ih (anyInto s d)).trans (anyInto_err s d)
@[simp] theorem anyAll_werr (s : State) (ds : List Dest) : (anyAll s ds).werr = s.werr := by
  induction ds generalizing s with
  | nil => rfl
  | cons d ds ih => exact (ih (anyInto s d)).trans (anyInto_werr s d)
@[simp] theorem anyAll_fatal (s : State) (ds : List Dest) : (anyAll s ds).fatal = s.fatal := by
  induction ds generalizing s with
  | nil => rfl
  | cons d ds ih => exact (ih (anyInto s d)).trans (anyInto_fatal s d)
@[simp] theorem anyAll_ie (s : State) (ds : List Dest) : (anyAll s ds).ie = s.ie := by
  induction ds generalizing s with
  | nil => rfl
  | cons d ds ih => exact (ih (anyInto s d)).trans (anyInto_ie s d)
@[simp] theorem anyAll_arg0 (s : State) (ds : List Dest) : (anyAll s ds).arg0 = s.arg0 := by
  induction ds generalizing s with
  | nil => rfl
  | cons d ds ih => exact (ih (anyInto s d)).trans (anyInto_arg0 s d)
@[simp] theorem anyAll_arg1 (s : State) (ds : List Dest) : (anyAll s ds).arg1 = s.arg1 := by
  induction ds generalizing s with
  | nil => rfl
  | cons d ds ih => exact (ih (anyInto s d)).trans (anyInto_arg1 s d)
@[simp] theorem anyAll_engine (s : State) (ds : List Dest) : (anyAll s ds).engine = s.engine := by
  induction ds generalizing s with
  | nil => rfl
  | cons d ds ih => exact (ih (anyInto s d)).trans (anyInto_engine s d)
@[simp] theorem anyAll_host (s : State) (ds : List Dest) : (anyAll s ds).host = s.host := by
  induction ds generalizing s with
  | nil => rfl
  | cons d ds ih => exact (ih (anyInto s d)).trans (anyInto_host s d)
@[simp] theorem anyAll_vars (s : State) (ds : List Dest) : (anyAll s ds).vars = s.vars := by
  induction ds generalizing s with
  | nil => rfl
  | cons d ds ih => exact (ih (anyInto s d)).trans (anyInto_vars s d)
@[simp] theorem anyAll_hostTurns (s : State) (ds : List Dest) : (anyAll s ds).hostTurns = s.hostTurns := by
  induction ds generalizing s with
  | nil => rfl
  | cons d ds ih => exact (ih (anyInto s d)).trans (anyInto_hostTurns s d)
@[simp] theorem anyAll_sched (s : State) (ds : List Dest) : (anyAll s ds).sched = s.sched := by
  induction ds generalizing s with
  | nil => rfl
  | cons d ds ih => exact (ih (anyInto s d)).trans (anyInto_sched s d)
@[simp] theorem anyAll_draws (s : State) (ds : List Dest) : (anyAll s ds).draws = s.draws := by
  induction ds generalizing s with
  | nil => rfl
  | cons d ds ih => exact (ih (anyInto s d)).trans (anyInto_draws s d)

/-! ## The phase -/

@[simp] theorem busy_of_idle {s : State} (h : s.engine = .idle) : s.busy = false := by simp [State.busy, h]

theorem busy_iff {s : State} : s.busy = true ↔ ∃ l u b, s.engine = .running l u b := by
  unfold State.busy
  split <;> simp_all

theorem latched_of_running {s : State} {l : Latched} {u : Option UnifLoop} {b : Bool}
    (h : s.engine = .running l u b) : s.latched = l ∧ s.loop = u ∧ s.abortPending = b ∧ s.busy = true := by
  simp [State.latched, State.loop, State.abortPending, State.busy, h]

end Sys2Proof.Machine
end

