-- ==== Sys2Proof/Laws/Ops.lean ====
section
/-! SUPPORT. For each shared operation, everything it can do: the first step of a command, the failure draw, a read of
memory, and the command bodies of Operands.lean. -/

namespace Sys2Proof.Machine

variable {s t : State}

/-! ## The first step of a command -/

theorem firstError_eq_none_iff {legal inRange : Bool} :
    firstError s legal inRange = none ↔ s.fatal = false ∧ legal = true ∧ inRange = true := by
  unfold firstError
  cases s.fatal <;> cases legal <;> cases inRange <;> simp

/-- FATAL comes first (60_exceptions.md R125). -/
theorem firstError_fatal (h : s.fatal = true) (legal inRange : Bool) :
    firstError s legal inRange = some .fatal := by simp [firstError, h]

/-- ILLEGAL comes before RANGE (60_exceptions.md R125). -/
theorem firstError_illegal (h : s.fatal = false) (inRange : Bool) :
    firstError s false inRange = some .illegal := by simp [firstError, h]

theorem firstError_range (h : s.fatal = false) : firstError s true false = some .range := by simp [firstError, h]

theorem firstError_code {legal inRange : Bool} {e : ErrCode} (h : firstError s legal inRange = some e) :
    e = .fatal ∨ e = .illegal ∨ e = .range := by
  unfold firstError at h
  cases hf : s.fatal <;> cases legal <;> cases inRange <;> simp_all

/-- A failed check completes the command with its error and nothing else. -/
theorem command_error {legal inRange : Bool} {e : ErrCode} (h : firstError s legal inRange = some e)
    (ds : List Dest) (body : Host.Outcome State Fault Refusal) :
    command s legal inRange ds body = .next (complete s e false) := by simp [command, h]

/-- After the checks a pending abort ends the command. -/
theorem command_abort {legal inRange : Bool} (h : firstError s legal inRange = none) (ha : s.abortPending = true)
    (ds : List Dest) (body : Host.Outcome State Fault Refusal) :
    command s legal inRange ds body = .next (abortWith s ds) := by simp [command, h, ha]

/-- A legal command in range, with no FATAL and no pending abort, executes. -/
theorem command_runs {legal inRange : Bool} (hf : s.fatal = false) (ha : s.abortPending = false)
    (hl : legal = true) (hr : inRange = true) (ds : List Dest) (body : Host.Outcome State Fault Refusal) :
    command s legal inRange ds body = body := by
  simp [command, firstError_eq_none_iff.2 ⟨hf, hl, hr⟩, ha]

/-- Everything the first step of a command can do. -/
theorem command_cases (s : State) (legal inRange : Bool) (ds : List Dest) (body : Host.Outcome State Fault Refusal) :
    (∃ e, firstError s legal inRange = some e ∧ command s legal inRange ds body = .next (complete s e false)) ∨
    (firstError s legal inRange = none ∧ s.abortPending = true ∧
      command s legal inRange ds body = .next (abortWith s ds)) ∨
    (firstError s legal inRange = none ∧ s.abortPending = false ∧ command s legal inRange ds body = body) := by
  cases h : firstError s legal inRange with
  | some e => exact .inl ⟨e, rfl, command_error h ds body⟩
  | none =>
    cases ha : s.abortPending with
    | true => exact .inr (.inl ⟨rfl, rfl, command_abort h ha ds body⟩)
    | false => exact .inr (.inr ⟨rfl, rfl, by simp [command, h, ha]⟩)

/-- If the first step of a command answers next, it was refused, aborted, or its body answered next. -/
theorem command_next {legal inRange : Bool} {ds : List Dest} {body : Host.Outcome State Fault Refusal}
    (h : command s legal inRange ds body = .next t) :
    (∃ e, firstError s legal inRange = some e ∧ t = complete s e false) ∨
    (firstError s legal inRange = none ∧ s.abortPending = true ∧ t = abortWith s ds) ∨
    (firstError s legal inRange = none ∧ s.abortPending = false ∧ body = .next t) := by
  rcases command_cases s legal inRange ds body with ⟨e, he, hc⟩ | ⟨he, ha, hc⟩ | ⟨he, ha, hc⟩
  · exact .inl ⟨e, he, by simpa using (h.symm.trans hc)⟩
  · exact .inr (.inl ⟨he, ha, by simpa using (h.symm.trans hc)⟩)
  · exact .inr (.inr ⟨he, ha, hc.symm.trans h⟩)

/-! ## The failure draw and reads -/

theorem unlessXofFails_next {ds : List Dest} {body : Host.Outcome State Fault Refusal}
    (h : unlessXofFails s ds body = .next t) :
    (Config.xofFails s.draws = true ∧ t = failXof s ds) ∨ (Config.xofFails s.draws = false ∧ body = .next t) := by
  unfold unlessXofFails at h
  cases hx : Config.xofFails s.draws <;> simp only [hx, if_true, Bool.false_eq_true, if_false] at h
  · exact .inr ⟨rfl, h⟩
  · exact .inl ⟨rfl, by simpa using h.symm⟩

@[simp] theorem withRead_some {α : Type} (v : α) (k : α → Host.Outcome State Fault Refusal) :
    withRead (some v) k = k v := rfl

@[simp] theorem withRead_none {α : Type} (k : α → Host.Outcome State Fault Refusal) :
    withRead none k = .fault .readUnwritten := rfl

/-- If a read answers next, memory held what it read. -/
theorem withRead_next {α : Type} {r : Option α} {k : α → Host.Outcome State Fault Refusal}
    (h : withRead r k = .next t) : ∃ v, r = some v ∧ k v = .next t := by
  cases r with
  | none => simp at h
  | some v => exact ⟨v, rfl, h⟩

/-! ## Lanes -/

@[simp] theorem lanes_length (f : Nat → Word → Word) (cs : List Word) : (lanes f cs).length = cs.length := by
  simp [lanes]

theorem lanes_getElem? (f : Nat → Word → Word) (cs : List Word) (i : Nat) :
    (lanes f cs)[i]? = cs[i]?.map (f i) := by
  rw [lanes, List.getElem?_map, List.getElem?_zipIdx]
  cases cs[i]? <;> simp

theorem lanes2_length {f : Nat → Word → Word → Word} {bs cs : List Word} (h : bs.length = cs.length) :
    (lanes2 f bs cs).length = cs.length := by
  simp [lanes2, h]

theorem lanes2_getElem? (f : Nat → Word → Word → Word) (bs cs : List Word) (i : Nat) (b c : Word)
    (hb : bs[i]? = some b) (hc : cs[i]? = some c) : (lanes2 f bs cs)[i]? = some (f i b c) := by
  rw [lanes2, List.getElem?_map, List.getElem?_zipIdx, (List.getElem?_zip_eq_some (z := (b, c))).2 ⟨hb, hc⟩]
  simp

/-! ## Command bodies: if one answers next, it was refused, aborted, or wrote its destinations -/

/-- How a command can end without executing: a failed check, or a pending abort after the checks. -/
def NotRun (s t : State) (legal inRange : Bool) (ds : List Dest) : Prop :=
  (∃ e, firstError s legal inRange = some e ∧ t = complete s e false) ∨
  (firstError s legal inRange = none ∧ s.abortPending = true ∧ t = abortWith s ds)

theorem command_notRun_or {legal inRange : Bool} {ds : List Dest} {body : Host.Outcome State Fault Refusal}
    (h : command s legal inRange ds body = .next t) :
    NotRun s t legal inRange ds ∨
      (firstError s legal inRange = none ∧ s.abortPending = false ∧ body = .next t) := by
  rcases command_next h with h | h | h
  · exact .inl (.inl h)
  · exact .inl (.inr h)
  · exact .inr h

theorem polyUnary_next {a b : Slot} {f : Nat → Word → Word} (h : polyUnary s a b f = .next t) :
    NotRun s t true (slotInRange s.params a.toNat && slotInRange s.params b.toNat) [.slot a.toNat] ∨
    ∃ cs, readSlot s.mem b.toNat = some cs ∧
      t = complete { s with mem := writeCoeffs s.mem a.toNat (lanes f cs) } .ok false := by
  rcases command_notRun_or h with h | ⟨-, -, h⟩
  · exact .inl h
  · obtain ⟨cs, hc, h⟩ := withRead_next h
    exact .inr ⟨cs, hc, by simpa using h.symm⟩

theorem polyBinary_next {a b c : Slot} {f : Nat → Word → Word → Word} (h : polyBinary s a b c f = .next t) :
    NotRun s t true
      (slotInRange s.params a.toNat && slotInRange s.params b.toNat && slotInRange s.params c.toNat)
      [.slot a.toNat] ∨
    ∃ bs cs, readSlot s.mem b.toNat = some bs ∧ readSlot s.mem c.toNat = some cs ∧
      t = complete { s with mem := writeCoeffs s.mem a.toNat (lanes2 f bs cs) } .ok false := by
  rcases command_notRun_or h with h | ⟨-, -, h⟩
  · exact .inl h
  · obtain ⟨bs, hb, h⟩ := withRead_next h
    obtain ⟨cs, hc, h⟩ := withRead_next h
    exact .inr ⟨bs, cs, hb, hc, by simpa using h.symm⟩

theorem polySplit_next {a b c : Slot} {lo hi : Nat → Word → Word} (h : polySplit s a b c lo hi = .next t) :
    NotRun s t (a ≠ c)
      (slotInRange s.params a.toNat && slotInRange s.params b.toNat && slotInRange s.params c.toNat)
      [.slot a.toNat, .slot c.toNat] ∨
    ∃ cs, readSlot s.mem b.toNat = some cs ∧
      t = complete
        { s with mem := writeCoeffs (writeCoeffs s.mem a.toNat (lanes lo cs)) c.toNat (lanes hi cs) } .ok false := by
  rcases command_notRun_or h with h | ⟨-, -, h⟩
  · exact .inl h
  · obtain ⟨cs, hc, h⟩ := withRead_next h
    exact .inr ⟨cs, hc, by simpa using h.symm⟩

theorem packSlot_next {b : Slot} {len : Nat} {enc : List Word → List Byte} (h : packSlot s b len enc = .next t) :
    NotRun s t true (slotInRange s.params b.toNat && windowInRange s len) [.window s.off len] ∨
    ∃ cs, readSlot s.mem b.toNat = some cs ∧
      t = complete { s with mem := memWrite s.mem s.off (enc cs) } .ok false := by
  rcases command_notRun_or h with h | ⟨-, -, h⟩
  · exact .inl h
  · obtain ⟨cs, hc, h⟩ := withRead_next h
    exact .inr ⟨cs, hc, by simpa using h.symm⟩

theorem unpackSlot_next {a : Slot} {len : Nat} {dec : List Byte → List Word} (h : unpackSlot s a len dec = .next t) :
    NotRun s t true (slotInRange s.params a.toNat && windowInRange s len) [.slot a.toNat] ∨
    ∃ w, memRead s.mem s.off len = some w ∧
      t = complete { s with mem := writeCoeffs s.mem a.toNat (dec w) } .ok false := by
  rcases command_notRun_or h with h | ⟨-, -, h⟩
  · exact .inl h
  · obtain ⟨w, hw, h⟩ := withRead_next h
    exact .inr ⟨w, hw, by simpa using h.symm⟩

/-- Everything CBD2 and CBD3 can do. -/
theorem cbd_next {eta : Nat} {a : Slot} (h : cbd s eta a = .next t) :
    NotRun s t true (slotInRange s.params a.toNat) (samplerDests a) ∨
    ∃ seed, readSeed s.mem s.params = some seed ∧
      ((Config.xofFails s.draws = true ∧ t = failXof s (samplerDests a)) ∨
       (Config.xofFails s.draws = false ∧
        t = complete
          { s with
            mem := writeCoeffs s.mem a.toNat
              (cbdCoeffs s.params.q eta ((List.range (64 * eta)).map (Config.xofN (seed ++ [s.argByte0]))))
            xcnt := u32 (64 * eta) } .ok false)) := by
  rcases command_notRun_or h with h | ⟨-, -, h⟩
  · exact .inl h
  · obtain ⟨seed, hs, h⟩ := withRead_next h
    rcases unlessXofFails_next h with h | ⟨hx, h⟩
    · exact .inr ⟨seed, hs, .inl h⟩
    · exact .inr ⟨seed, hs, .inr ⟨hx, by simpa using h.symm⟩⟩

/-- Everything a step of UNIF can do. -/
theorem execUnif_next {a : Slot} (h : execUnif a s = .next t) :
    (s.loop = none ∧ NotRun s t true (slotInRange s.params a.toNat) (samplerDests a)) ∨
    (s.loop ≠ none ∧ s.abortPending = true ∧ t = abortWith s (samplerDests a)) ∨
    (s.abortPending = false ∧ Config.xofFails s.draws = true ∧ t = failXof s (samplerDests a)) ∨
    (s.abortPending = false ∧ Config.xofFails s.draws = false ∧
      ∃ l, t = unifStep s a l ∧
        (s.loop = some l ∨
          (s.loop = none ∧ firstError s true (slotInRange s.params a.toNat) = none ∧
            ∃ seed, readSeed s.mem s.params = some seed ∧ l = ⟨seed ++ [s.argByte0, s.argByte1], 0, []⟩))) := by
  unfold execUnif at h
  cases hl : s.loop with
  | none =>
    rw [hl] at h
    rcases command_notRun_or h with h | ⟨he, ha, h⟩
    · exact .inl ⟨rfl, h⟩
    · obtain ⟨seed, hs, h⟩ := withRead_next h
      rcases unlessXofFails_next h with ⟨hx, h⟩ | ⟨hx, h⟩
      · exact .inr (.inr (.inl ⟨ha, hx, h⟩))
      · exact .inr (.inr (.inr ⟨ha, hx, _, by simpa using h.symm, .inr ⟨rfl, he, seed, hs, rfl⟩⟩))
  | some l =>
    rw [hl] at h
    cases ha : s.abortPending with
    | true =>
      simp only [ha, if_true, Host.Outcome.next.injEq] at h
      exact .inr (.inl ⟨by simp, rfl, h.symm⟩)
    | false =>
      simp only [ha, Bool.false_eq_true, if_false] at h
      rcases unlessXofFails_next h with ⟨hx, h⟩ | ⟨hx, h⟩
      · exact .inr (.inr (.inl ⟨rfl, hx, h⟩))
      · exact .inr (.inr (.inr ⟨rfl, hx, l, by simpa using h.symm, .inl rfl⟩))

/-- One chunk either leaves UNIF running with the chunk counted, or completes it. -/
theorem unifStep_cases (s : State) (a : Slot) (l : UnifLoop) :
    ((unifNext s.params l).accepted.length < ringDegree ∧
      unifStep s a l =
        schedule { s with
          engine := .running s.latched (some (unifNext s.params l)) false, draws := s.draws + 1 }) ∨
    (ringDegree ≤ (unifNext s.params l).accepted.length ∧
      unifStep s a l = complete
        { s with
          mem := writeCoeffs s.mem a.toNat (tangled s.params (unifNext s.params l).accepted)
          xcnt := unifCount s (unifNext s.params l).chunks } .ok false) := by
  by_cases h : (unifNext s.params l).accepted.length < ringDegree
  · exact .inl ⟨h, by simp [unifStep, h]⟩
  · exact .inr ⟨by omega, by simp [unifStep, h]⟩

/-- Everything `deliver` can leave: the accepted coefficients with DFAIL 0, or zeros with DFAIL 1. -/
theorem deliver_cases (s : State) (n count : Nat) (r : Option (List Word)) :
    (∃ cs, r = some cs ∧ deliver s n count r = complete { s with mem := writeCoeffs s.mem n cs } .ok false) ∨
    (r = none ∧ deliver s n count r =
      complete { s with mem := writeCoeffs s.mem n (List.replicate count 0) } .ok true) := by
  cases r with
  | some cs => exact .inl ⟨cs, rfl, rfl⟩
  | none => exact .inr ⟨rfl, rfl⟩

/-! ## Command bodies that execute: no FATAL, no pending abort, in range, every source written -/

theorem slotInRange_eq {p : Params} {n : Nat} (h : n < p.npoly) : slotInRange p n = true := by simp [slotInRange, h]

theorem vecInRange_eq {p : Params} {n : Nat} (h : n + p.k ≤ p.npoly) : vecInRange p n = true := by
  simp [vecInRange, h]

theorem windowInRange_eq {len : Nat} (h : s.off + len ≤ s.params.bufBytes) : windowInRange s len = true := by
  simp [windowInRange, h]

theorem polyUnary_runs {a b : Slot} {f : Nat → Word → Word} {cs : List Word} (hf : s.fatal = false)
    (ha : s.abortPending = false) (h1 : a.toNat < s.params.npoly) (h2 : b.toNat < s.params.npoly)
    (hb : readSlot s.mem b.toNat = some cs) :
    polyUnary s a b f = .next (complete { s with mem := writeCoeffs s.mem a.toNat (lanes f cs) } .ok false) := by
  rw [polyUnary, command_runs hf ha rfl (by simp [slotInRange_eq h1, slotInRange_eq h2]), hb, withRead_some, succeed_eq]

theorem polyBinary_runs {a b c : Slot} {f : Nat → Word → Word → Word} {bs cs : List Word} (hf : s.fatal = false)
    (ha : s.abortPending = false) (h1 : a.toNat < s.params.npoly) (h2 : b.toNat < s.params.npoly)
    (h3 : c.toNat < s.params.npoly) (hb : readSlot s.mem b.toNat = some bs) (hc : readSlot s.mem c.toNat = some cs) :
    polyBinary s a b c f = .next (complete { s with mem := writeCoeffs s.mem a.toNat (lanes2 f bs cs) } .ok false) := by
  rw [polyBinary, command_runs hf ha rfl (by simp [slotInRange_eq h1, slotInRange_eq h2, slotInRange_eq h3]), hb,
    withRead_some, hc, withRead_some, succeed_eq]

theorem polySplit_runs {a b c : Slot} {lo hi : Nat → Word → Word} {cs : List Word} (hf : s.fatal = false)
    (ha : s.abortPending = false) (hac : a ≠ c) (h1 : a.toNat < s.params.npoly) (h2 : b.toNat < s.params.npoly)
    (h3 : c.toNat < s.params.npoly) (hb : readSlot s.mem b.toNat = some cs) :
    polySplit s a b c lo hi = .next (complete
      { s with mem := writeCoeffs (writeCoeffs s.mem a.toNat (lanes lo cs)) c.toNat (lanes hi cs) } .ok false) := by
  rw [polySplit, command_runs hf ha (by simpa using hac)
    (by simp [slotInRange_eq h1, slotInRange_eq h2, slotInRange_eq h3]), hb, withRead_some, succeed_eq]

theorem packSlot_runs {b : Slot} {len : Nat} {enc : List Word → List Byte} {cs : List Word} (hf : s.fatal = false)
    (ha : s.abortPending = false) (h1 : b.toNat < s.params.npoly) (h2 : s.off + len ≤ s.params.bufBytes)
    (hb : readSlot s.mem b.toNat = some cs) :
    packSlot s b len enc = .next (complete { s with mem := memWrite s.mem s.off (enc cs) } .ok false) := by
  rw [packSlot, command_runs hf ha rfl (by simp [slotInRange_eq h1, windowInRange_eq h2]), hb, withRead_some, succeed_eq]

theorem unpackSlot_runs {a : Slot} {len : Nat} {dec : List Byte → List Word} {w : List Byte} (hf : s.fatal = false)
    (ha : s.abortPending = false) (h1 : a.toNat < s.params.npoly) (h2 : s.off + len ≤ s.params.bufBytes)
    (hw : memRead s.mem s.off len = some w) :
    unpackSlot s a len dec = .next (complete { s with mem := writeCoeffs s.mem a.toNat (dec w) } .ok false) := by
  rw [unpackSlot, command_runs hf ha rfl (by simp [slotInRange_eq h1, windowInRange_eq h2]), hw, withRead_some,
    succeed_eq]

theorem execPkhint_runs {b : Slot} {hs : List (List Word)} (hf : s.fatal = false) (ha : s.abortPending = false)
    (h1 : b.toNat + s.params.k ≤ s.params.npoly) (h2 : s.off + hintLen s.params ≤ s.params.bufBytes)
    (hb : readSlots s.mem b.toNat s.params.k = some hs) :
    execPkhint b s = .next (complete { s with
      mem := memWrite s.mem s.off
        (if validHint s.params hs then packHint s.params hs else anyWindow s.draws s.off (hintLen s.params)) }
      .ok false) := by
  rw [execPkhint, command_runs hf ha rfl (by simp [vecInRange_eq h1, windowInRange_eq h2]), hb, withRead_some,
    succeed_eq]

theorem execUpkhint_runs {a : Slot} {w : List Byte} (hf : s.fatal = false) (ha : s.abortPending = false)
    (h1 : a.toNat + s.params.k ≤ s.params.npoly) (h2 : s.off + hintLen s.params ≤ s.params.bufBytes)
    (hw : memRead s.mem s.off (hintLen s.params) = some w) :
    execUpkhint a s =
      .next (deliver s a.toNat (s.params.k * ringDegree) ((unpackHint s.params w).map List.flatten)) := by
  rw [execUpkhint, command_runs hf ha rfl (by simp [vecInRange_eq h1, windowInRange_eq h2]), hw, withRead_some]

theorem execUpkchal_runs {a : Slot} {w : List Byte} (hf : s.fatal = false) (ha : s.abortPending = false)
    (h1 : a.toNat < s.params.npoly) (h2 : s.off + chalLen ≤ s.params.bufBytes)
    (hw : memRead s.mem s.off chalLen = some w) :
    execUpkchal a s = .next (deliver s a.toNat ringDegree (unpackChal s.params w)) := by
  rw [execUpkchal, command_runs hf ha rfl (by simp [slotInRange_eq h1, windowInRange_eq h2]), hw, withRead_some]

/-! ## Free values written to destinations -/

@[simp] theorem anySlot_length (event n : Nat) : (anySlot event n).length = ringDegree := by simp [anySlot]

@[simp] theorem anyWindow_length (event addr len : Nat) : (anyWindow event addr len).length = len := by
  simp [anyWindow]

/-- The port offsets a destination covers. -/
def Dest.covers (a : Nat) : Dest → Prop
  | .slot n => coeffAddr n 0 ≤ a ∧ a < coeffAddr n 0 + 4 * ringDegree
  | .window addr len => bufBase + addr ≤ a ∧ a < bufBase + addr + len
  | .res0 | .res1 | .xcnt => False

theorem anyInto_wf (h : s.mem.wf) (d : Dest) : (anyInto s d).mem.wf := by
  cases d <;> first | exact h | exact writeBytes_wf h _ _

theorem anyAll_wf (h : s.mem.wf) (ds : List Dest) : (anyAll s ds).mem.wf := by
  induction ds generalizing s with
  | nil => exact h
  | cons d ds ih => exact ih (anyInto_wf h d)

theorem readByte_anyInto_outside (d : Dest) (a : Nat) (h : ¬ d.covers a) :
    readByte (anyInto s d).mem a = readByte s.mem a := by
  cases d with
  | res0 | res1 | xcnt => rfl
  | slot n =>
    refine readByte_writeCoeffs_outside _ _ _ _ ?_
    rw [anySlot_length]
    simp only [Dest.covers, not_and, Nat.not_lt] at h
    omega
  | window addr len =>
    refine readByte_writeBytes_outside _ _ _ _ ?_
    rw [anyWindow_length]
    simp only [Dest.covers, not_and, Nat.not_lt] at h
    omega

/-- Free values change no byte outside the destinations they are written to. -/
theorem readByte_anyAll_outside (ds : List Dest) (a : Nat) (h : ∀ d ∈ ds, ¬ d.covers a) :
    readByte (anyAll s ds).mem a = readByte s.mem a := by
  induction ds generalizing s with
  | nil => rfl
  | cons d ds ih =>
    exact (ih fun e he => h e (by simp [he])).trans (readByte_anyInto_outside d a (h d (by simp)))

end Sys2Proof.Machine
end

