-- ==== Sys2Proof/Laws/Codec.lean ====
section
/-! SUPPORT. The lengths of what the samplers and codecs write, so that every write fills exactly its destinations, and
the order of the host's variables. -/

namespace Sys2Proof.Machine

@[simp] theorem densePack_length (event w : Nat) (enc : Nat → Option Nat) (cs : List Word) :
    (densePack event w enc cs).length = denseLen w := by simp [densePack]

@[simp] theorem denseUnpack_length (w : Nat) (dec : Nat → Nat) (bs : List Byte) :
    (denseUnpack w dec bs).length = ringDegree := by simp [denseUnpack]

@[simp] theorem cbdCoeffs_length (q eta : Nat) (bs : List Byte) : (cbdCoeffs q eta bs).length = ringDegree := by
  simp [cbdCoeffs]

theorem foldl_set_length (xs : List (Nat × Word)) (poly : List Word) :
    (xs.foldl (fun poly x => poly.set x.1 x.2) poly).length = poly.length := by
  induction xs generalizing poly with
  | nil => rfl
  | cons x xs ih => rw [List.foldl_cons, ih, List.length_set]

@[simp] theorem tangled_length (p : Params) (accepted : List Word) : (tangled p accepted).length = ringDegree := by
  rw [tangled, foldl_set_length, List.length_replicate]

theorem switchPoints_length (k : Nat) (hs : List (List Word)) : (switchPoints k hs).length = hs.length := by
  induction hs generalizing k with
  | nil => rfl
  | cons h hs ih => simp [switchPoints, ih]

/-- A valid VecK of K elements packs to OMEGA + K bytes (R102). -/
theorem packHint_length {p : Params} {hs : List (List Word)} (hv : validHint p hs = true) (hk : hs.length = p.k) :
    (packHint p hs).length = hintLen p := by
  have h := (Bool.and_eq_true_iff.1 hv).2
  rw [decide_eq_true_eq] at h
  rw [packHint, List.length_map, List.length_append, List.length_append, List.length_replicate, switchPoints_length,
    hintLen, hk]
  omega

@[simp] theorem elementOf_length (ix : List Nat) : (elementOf ix).length = ringDegree := by simp [elementOf]

/-- The elements that the loop over the switch-over points makes: one per point, each of 256 coefficients. -/
theorem unpackElements_length {p : Params} {ix : List Nat} {k : Nat} {sws : List Nat} {hs : List (List Word)}
    (h : unpackElements p ix k sws = some hs) : hs.length = sws.length ∧ ∀ x ∈ hs, x.length = ringDegree := by
  induction sws generalizing k hs with
  | nil =>
    simp only [unpackElements] at h
    split at h
    · obtain rfl := (Option.some.inj h).symm; simp
    · simp at h
  | cons sw rest ih =>
    simp only [unpackElements] at h
    split at h
    · obtain ⟨r, hr, rfl⟩ := Option.map_eq_some_iff.1 h
      have := ih hr
      refine ⟨by simp [this.1], fun x hx => ?_⟩
      rcases List.mem_cons.1 hx with rfl | hx
      · exact elementOf_length _
      · exact this.2 x hx
    · simp at h

/-- An accepted window of OMEGA + K bytes gives K elements. -/
theorem unpackHint_length {p : Params} {w : List Byte} {hs : List (List Word)} (hw : w.length = hintLen p)
    (h : unpackHint p w = some hs) : hs.length = p.k ∧ ∀ x ∈ hs, x.length = ringDegree := by
  have := unpackElements_length h
  refine ⟨?_, this.2⟩
  rw [this.1, List.length_map, List.length_drop, hw, hintLen]
  omega

@[simp] theorem packChal_length (p : Params) (cs : List Word) : (packChal p cs).length = chalLen := by
  simp [packChal, chalLen]

theorem chalCoeffs_length (q : Nat) (ms : List Nat) (signs : Nat) : (chalCoeffs q ms signs).length = ms.length := by
  induction ms generalizing signs with
  | nil => rfl
  | cons m ms ih => simp only [chalCoeffs]; split <;> simp [ih]

/-- An accepted challenge window gives 256 coefficients. -/
theorem unpackChal_length {p : Params} {w : List Byte} {cs : List Word} (h : unpackChal p w = some cs) :
    cs.length = ringDegree := by
  simp only [unpackChal] at h
  split at h
  · simp at h
  · obtain rfl := (Option.some.inj h).symm
    rw [chalCoeffs_length, digits_length]

/-- Setting a variable keeps the names in rising order. -/
theorem setVar_sorted {vars : List (Nat × Word)} (h : vars.Pairwise fun x y => x.1 < y.1) (r : Nat) (v : Word) :
    (setVar vars r v).Pairwise fun x y => x.1 < y.1 := by
  refine List.pairwise_append.2 ⟨h.filter _, List.pairwise_cons.2 ⟨?_, h.filter _⟩, ?_⟩
  · intro y hy
    simpa using (List.mem_filter.1 hy).2
  · intro x hx y hy
    have h1 : x.1 < r := by simpa using (List.mem_filter.1 hx).2
    rcases List.mem_cons.1 hy with rfl | hy
    · exact h1
    · have h2 : r < y.1 := by simpa using (List.mem_filter.1 hy).2
      omega

end Sys2Proof.Machine
end

