-- ==== Sys2Proof/Laws/PerInstr.lean ====
section
/-! SUPPORT. Per-command facts about syntax: the family WordFields says that a command's word has its own fields, its
reserved bits 0 and its opcode in the map (30_encoding.md R56, R59). -/

namespace Sys2Proof

/-- A word has the fields it was made from (R56). -/
theorem fieldsOf_word (f : Fields) : fieldsOf f.word = f := by
  obtain ⟨op, rsv0, a, b, c, rsv1⟩ := f
  have h0 := op.isLt
  have h1 := rsv0.isLt
  have h2 := a.isLt
  have h3 := b.isLt
  have h4 := c.isLt
  have h5 := rsv1.isLt
  simp only [fieldsOf, Fields.word, Fields.mk.injEq]
  refine ⟨?_, ?_, ?_, ?_, ?_, ?_⟩ <;> apply BitVec.eq_of_toNat_eq <;>
    simp only [BitVec.extractLsb'_toNat, BitVec.toNat_ofNat, Nat.shiftRight_eq_div_pow] <;> omega

/-- A word is made from its fields (R56). -/
theorem word_fieldsOf (w : Word) : (fieldsOf w).word = w := by
  have h := w.isLt
  apply BitVec.eq_of_toNat_eq
  simp only [fieldsOf, Fields.word, BitVec.extractLsb'_toNat, BitVec.toNat_ofNat, Nat.shiftRight_eq_div_pow]
  omega

end Sys2Proof

namespace Sys2Proof.Laws.WordFields

/-- The word of `i` has the fields of `i`, its reserved bits are 0 (R56, R59). -/
def Statement (i : Instr) : Prop :=
  fieldsOf (encode i) = i.fields ∧ (fieldsOf (encode i)).rsv0 = 0 ∧ (fieldsOf (encode i)).rsv1 = 0

theorem of_fields (i : Instr) (h0 : i.fields.rsv0 = 0) (h1 : i.fields.rsv1 = 0) : Statement i := by
  have h : fieldsOf (encode i) = i.fields := fieldsOf_word i.fields
  exact ⟨h, h ▸ h0, h ▸ h1⟩

theorem nop : Statement .nop := of_fields _ rfl rfl
theorem rfull : Statement .rfull := of_fields _ rfl rfl
theorem rpart : Statement .rpart := of_fields _ rfl rfl
theorem p2r : Statement .p2r := of_fields _ rfl rfl
theorem decomp : Statement .decomp := of_fields _ rfl rfl
theorem mkhint : Statement .mkhint := of_fields _ rfl rfl
theorem usehint : Statement .usehint := of_fields _ rfl rfl
theorem vrfull (a b : Slot) : Statement (.vrfull a b) := of_fields _ rfl rfl
theorem vrpart (a b : Slot) : Statement (.vrpart a b) := of_fields _ rfl rfl
theorem vp2r (a b c : Slot) : Statement (.vp2r a b c) := of_fields _ rfl rfl
theorem vdecomp (a b c : Slot) : Statement (.vdecomp a b c) := of_fields _ rfl rfl
theorem vmkhint (a b c : Slot) : Statement (.vmkhint a b c) := of_fields _ rfl rfl
theorem vusehint (a b c : Slot) : Statement (.vusehint a b c) := of_fields _ rfl rfl
theorem cbd2 (a : Slot) : Statement (.cbd2 a) := of_fields _ rfl rfl
theorem cbd3 (a : Slot) : Statement (.cbd3 a) := of_fields _ rfl rfl
theorem unif (a : Slot) : Statement (.unif a) := of_fields _ rfl rfl
theorem pkt1 (b : Slot) : Statement (.pkt1 b) := of_fields _ rfl rfl
theorem upkt1 (a : Slot) : Statement (.upkt1 a) := of_fields _ rfl rfl
theorem pkt0 (b : Slot) : Statement (.pkt0 b) := of_fields _ rfl rfl
theorem upkt0 (a : Slot) : Statement (.upkt0 a) := of_fields _ rfl rfl
theorem pketa (b : Slot) : Statement (.pketa b) := of_fields _ rfl rfl
theorem upketa (a : Slot) : Statement (.upketa a) := of_fields _ rfl rfl
theorem pkg1 (b : Slot) : Statement (.pkg1 b) := of_fields _ rfl rfl
theorem upkg1 (a : Slot) : Statement (.upkg1 a) := of_fields _ rfl rfl
theorem pkhint (b : Slot) : Statement (.pkhint b) := of_fields _ rfl rfl
theorem upkhint (a : Slot) : Statement (.upkhint a) := of_fields _ rfl rfl
theorem pkchal (b : Slot) : Statement (.pkchal b) := of_fields _ rfl rfl
theorem upkchal (a : Slot) : Statement (.upkchal a) := of_fields _ rfl rfl

end Sys2Proof.Laws.WordFields
end

