-- ==== Sys2Proof/Laws/Port.lean ====
section
/-! SUPPORT. The port: what stands at an offset, what a read and a write of each kind of place do, whose turn it is, and
everything a step can do. -/

namespace Sys2Proof.Machine

variable {s t : State}

/-! ## The address map -/

/-- From 0x040 on only the windows count. -/
theorem target_window (p : Params) {off : BitVec 15} (h : 0x040 ≤ off.toNat) :
    target p off = windowTarget p off.toNat := by
  unfold target
  split <;> first | omega | rfl

/-- A byte of SEED, BUF or the poly RAM stands in its window. -/
theorem target_mapped {p : Params} (wf : p.WF) {off : BitVec 15} (h : Mapped p off.toNat) :
    (target p off = .seed off.toNat ∧ off.toNat < 0x1000) ∨ (target p off = .buf off.toNat ∧ 0x1000 ≤ off.toNat) ∨
    (target p off = .poly off.toNat ∧ 0x1000 ≤ off.toNat) := by
  have h8 := wf.wf8
  have h80 : 0x040 ≤ off.toNat := by unfold Mapped at h; omega
  rw [target_window p h80, windowTarget]
  unfold Mapped at h
  rcases h with h | h | h
  · exact .inl ⟨by rw [if_pos h], by omega⟩
  · exact .inr (.inl ⟨by rw [if_neg (by omega), if_pos h], by omega⟩)
  · exact .inr (.inr ⟨by rw [if_neg (by omega), if_neg (by omega), if_pos h], by omega⟩)

/-- What is in no window is reserved. -/
theorem target_reserved {p : Params} {off : BitVec 15} (h : 0x040 ≤ off.toNat) (hm : ¬ Mapped p off.toNat) :
    target p off = .reserved := by
  unfold Mapped at hm
  rw [target_window p h, windowTarget, if_neg (by omega), if_neg (by omega), if_neg (by omega)]

/-! ## Reads -/

@[simp] theorem unlessBusy_none (s : State) (off : BitVec 15) : unlessBusy s off none = none := rfl

theorem unlessBusy_idle (h : s.busy = false) (off : BitVec 15) (v : Option Word) : unlessBusy s off v = v := by
  cases v <;> simp [unlessBusy, h]

theorem unlessBusy_busy (h : s.busy = true) (off : BitVec 15) (v : Word) :
    unlessBusy s off (some v) = some (Config.anyWord s.draws off.toNat) := by simp [unlessBusy, h]

/-- A read of a mapped word while IDLE answers what memory holds. -/
theorem portRead_mapped (hb : s.busy = false) {off : BitVec 15} (h : Mapped s.params off.toNat) :
    portRead s off = readWord s.mem off.toNat := by
  unfold portRead
  rcases target_mapped s.chip.wf h with ⟨h, -⟩ | ⟨h, -⟩ | ⟨h, -⟩ <;> rw [h]
  · exact unlessBusy_idle hb _ _
  · exact unlessBusy_idle hb _ _

/-- A read of a SEED word answers what memory holds, BUSY or not. -/
theorem portRead_seed {off : BitVec 15} (h : Mapped s.params off.toNat) (hs : off.toNat < 0x1000) :
    portRead s off = readWord s.mem off.toNat := by
  unfold portRead
  rcases target_mapped s.chip.wf h with ⟨h, -⟩ | ⟨h, hn⟩ | ⟨h, hn⟩
  · rw [h]
  all_goals omega

/-- A read of a written BUF or POLY word while BUSY answers a free value. -/
theorem portRead_busy (hb : s.busy = true) {off : BitVec 15} (h : Mapped s.params off.toNat) (hs : 0x1000 ≤ off.toNat)
    {v : Word} (hv : readWord s.mem off.toNat = some v) :
    portRead s off = some (Config.anyWord s.draws off.toNat) := by
  unfold portRead
  rcases target_mapped s.chip.wf h with ⟨h, hn⟩ | ⟨h, -⟩ | ⟨h, -⟩
  · omega
  all_goals rw [h]; simp only [hv]; exact unlessBusy_busy hb _ _

/-- A read of a word that is not wholly written answers nothing, BUSY or not. -/
theorem portRead_unwritten {off : BitVec 15} (h : Mapped s.params off.toNat) (hv : readWord s.mem off.toNat = none) :
    portRead s off = none := by
  unfold portRead
  rcases target_mapped s.chip.wf h with ⟨h, -⟩ | ⟨h, -⟩ | ⟨h, -⟩ <;> rw [h] <;> simp only [hv, unlessBusy_none]

theorem portRead_reserved {off : BitVec 15} (h : target s.params off = .reserved) : portRead s off = some 0 := by
  rw [portRead, h]

theorem wholeWord_word {off : BitVec 15} (h : off.toNat % 4 = 0) : wholeWord .word off = true := by simp [wholeWord, h]

theorem wholeWord_eq_false {size : AccessSize} {off : BitVec 15} (h : size ≠ .word ∨ off.toNat % 4 ≠ 0) :
    wholeWord size off = false := by
  unfold wholeWord
  rcases h with h | h <;> simp [h]

theorem hostRead_word {r : Nat} {off : BitVec 15} {v : Word} (h4 : off.toNat % 4 = 0) (h : portRead s off = some v) :
    hostRead s .word r off = .next { s with vars := setVar s.vars r v, draws := s.draws + 1 } := by
  rw [hostRead, wholeWord_word h4, if_pos rfl, h]

theorem hostRead_unwritten {r : Nat} {off : BitVec 15} (h4 : off.toNat % 4 = 0) (h : portRead s off = none) :
    hostRead s .word r off = .fault .readUnwritten := by
  rw [hostRead, wholeWord_word h4, if_pos rfl, h]

/-- If a read answers next, it answers a word, and the word went to the host's variable. -/
theorem hostRead_next {size : AccessSize} {r : Nat} {off : BitVec 15} (h : hostRead s size r off = .next t) :
    ∃ v, portRead s off = some v ∧ t = { s with vars := setVar s.vars r v, draws := s.draws + 1 } := by
  unfold hostRead at h
  split at h
  · cases hp : portRead s off with
    | none => simp [hp] at h
    | some v => exact ⟨v, rfl, by simpa [hp] using h.symm⟩
  · simp at h

/-! ## Writes -/

theorem dropIfBusy_idle (h : s.busy = false) (s' : State) : dropIfBusy s s' = s' := by simp [dropIfBusy, h]

theorem dropIfBusy_busy (h : s.busy = true) (s' : State) : dropIfBusy s s' = { s with werr := true } := by
  simp [dropIfBusy, h]

theorem portWrite_cmd (v : Word) : portWrite s 0x020 v = dropIfBusy s (issue s v) := rfl

theorem portWrite_status (v : Word) : portWrite s 0x024 v = writeStatus s v := rfl

theorem portWrite_ctrl (v : Word) : portWrite s 0x028 v = writeCtrl s v := rfl

theorem portWrite_arg0 (v : Word) : portWrite s 0x030 v = dropIfBusy s { s with arg0 := v } := rfl

theorem portWrite_arg1 (v : Word) : portWrite s 0x034 v = dropIfBusy s { s with arg1 := v } := rfl

theorem portWrite_mapped {off : BitVec 15} (h : Mapped s.params off.toNat) (v : Word) :
    portWrite s off v = dropIfBusy s { s with mem := writeBytes s.mem off.toNat (bytesOfWord v) } := by
  unfold portWrite
  rcases target_mapped s.chip.wf h with ⟨h, -⟩ | ⟨h, -⟩ | ⟨h, -⟩ <;> rw [h]

theorem portWrite_reserved {off : BitVec 15} (h : target s.params off = .reserved) (v : Word) : portWrite s off v = s := by
  rw [portWrite, h]

theorem writeCtrl_srst {v : Word} (h : v.getLsbD 2 = true) : writeCtrl s v = resetEngine s := by
  rw [writeCtrl, if_pos h]

theorem writeCtrl_word {v : Word} (h : v.getLsbD 2 = false) :
    writeCtrl s v = { s with
      ie := v.getLsbD 0
      engine := match s.engine with
        | .idle => .idle
        | .running l u b => .running l u (b || v.getLsbD 1) } := by
  have hn : ¬ v.getLsbD 2 = true := by rw [h]; decide
  exact if_neg hn

/-- Below the windows only CMD, STATUS, CTRL, ARG0 and ARG1 can be written. -/
theorem portWrite_low {off : BitVec 15} (h : off.toNat < 0x040) (h1 : off.toNat ≠ 0x020) (h2 : off.toNat ≠ 0x024)
    (h3 : off.toNat ≠ 0x028) (h4 : off.toNat ≠ 0x030) (h5 : off.toNat ≠ 0x034) (v : Word) : portWrite s off v = s := by
  unfold portWrite target
  generalize off.toNat = n at *
  interval_cases n <;> first | rfl | (exfalso; omega)

/-- Everything a write can do: it is dropped, or it issues a command, or it writes STATUS, CTRL, an operand register or
a memory word, or nothing. -/
theorem portWrite_cases (s : State) (off : BitVec 15) (v : Word) :
    portWrite s off v = s ∨ (s.busy = true ∧ portWrite s off v = { s with werr := true }) ∨
    (s.busy = false ∧ off = 0x020 ∧ portWrite s off v = issue s v) ∨
    (off = 0x024 ∧ portWrite s off v = writeStatus s v) ∨ (off = 0x028 ∧ portWrite s off v = writeCtrl s v) ∨
    (s.busy = false ∧ off = 0x030 ∧ portWrite s off v = { s with arg0 := v }) ∨
    (s.busy = false ∧ off = 0x034 ∧ portWrite s off v = { s with arg1 := v }) ∨
    (s.busy = false ∧ Mapped s.params off.toNat ∧
      portWrite s off v = { s with mem := writeBytes s.mem off.toNat (bytesOfWord v) }) := by
  by_cases hm : Mapped s.params off.toNat
  · rw [portWrite_mapped hm]
    cases hb : s.busy
    · rw [dropIfBusy_idle hb]; simp [hm]
    · rw [dropIfBusy_busy hb]; simp
  · by_cases h40 : 0x040 ≤ off.toNat
    · exact .inl (portWrite_reserved (target_reserved h40 hm) v)
    · by_cases h1 : off = 0x020
      · subst h1
        rw [portWrite_cmd]
        cases hb : s.busy
        · rw [dropIfBusy_idle hb]; simp
        · rw [dropIfBusy_busy hb]; simp
      by_cases h2 : off = 0x024
      · subst h2; exact .inr (.inr (.inr (.inl ⟨rfl, rfl⟩)))
      by_cases h3 : off = 0x028
      · subst h3; exact .inr (.inr (.inr (.inr (.inl ⟨rfl, rfl⟩))))
      by_cases h4 : off = 0x030
      · subst h4
        rw [portWrite_arg0]
        cases hb : s.busy
        · rw [dropIfBusy_idle hb]; simp
        · rw [dropIfBusy_busy hb]; simp
      by_cases h5 : off = 0x034
      · subst h5
        rw [portWrite_arg1]
        cases hb : s.busy
        · rw [dropIfBusy_idle hb]; simp
        · rw [dropIfBusy_busy hb]; simp
      exact .inl (portWrite_low (by omega) (fun h => h1 (BitVec.eq_of_toNat_eq h)) (fun h => h2 (BitVec.eq_of_toNat_eq h))
        (fun h => h3 (BitVec.eq_of_toNat_eq h)) (fun h => h4 (BitVec.eq_of_toNat_eq h))
        (fun h => h5 (BitVec.eq_of_toNat_eq h)) v)

/-! ## Whose turn it is -/

theorem step_of_engine_turn (h : turn s = .engine) : step s = engineStep s := by rw [step, machineStep, h]

theorem step_of_host_turn {op : HostOp} {rest : List HostOp} (h : turn s = .host op rest) :
    step s = hostStep { s with host := rest, hostTurns := s.hostTurns - 1 } op := by rw [step, machineStep, h]

theorem step_of_nobody (h : turn s = .nobody) : step s = .next s := by rw [step, machineStep, h]

theorem turn_eq_engine_iff : turn s = .engine ↔ s.busy = true ∧ (s.host = [] ∨ s.hostTurns = 0) := by
  unfold turn
  cases hb : s.busy <;> cases hh : s.host <;> simp

theorem turn_eq_host_iff {op : HostOp} {rest : List HostOp} :
    turn s = .host op rest ↔ s.host = op :: rest ∧ (s.busy = false ∨ s.hostTurns ≠ 0) := by
  unfold turn
  cases hb : s.busy <;> cases hh : s.host <;> by_cases ht : s.hostTurns = 0 <;> simp [ht]

theorem turn_eq_nobody_iff : turn s = .nobody ↔ s.host = [] ∧ s.busy = false := by
  unfold turn
  cases hb : s.busy <;> cases hh : s.host <;> by_cases ht : s.hostTurns = 0 <;> simp [ht]

/-- Everything a step that answers next can do. -/
theorem step_next (h : step s = .next t) :
    (turn s = .engine ∧ engineStep s = .next t) ∨
    (∃ op rest, turn s = .host op rest ∧
      hostStep { s with host := rest, hostTurns := s.hostTurns - 1 } op = .next t) ∨
    (turn s = .nobody ∧ t = s) := by
  cases ht : turn s with
  | engine => exact .inl ⟨rfl, by rwa [step_of_engine_turn ht] at h⟩
  | host op rest => exact .inr (.inl ⟨op, rest, rfl, by rwa [step_of_host_turn ht] at h⟩)
  | nobody => exact .inr (.inr ⟨rfl, by rw [step_of_nobody ht] at h; simpa using h.symm⟩)

/-- Everything an engine step that answers next can do. -/
theorem engineStep_next (h : engineStep s = .next t) :
    (∃ i, decode s.latched.word = .ok i ∧ exec i s = .next t) ∨
    (∃ e, decode s.latched.word = .error e ∧ t = complete s (if s.fatal then .fatal else .illegal) false) := by
  unfold engineStep at h
  cases hd : decode s.latched.word with
  | ok i => exact .inl ⟨i, rfl, by simpa [hd] using h⟩
  | error e => exact .inr ⟨e, rfl, by simpa [hd, illegalCommand] using h.symm⟩

/-- Everything a host step that answers next can do. -/
theorem hostStep_next {op : HostOp} (h : hostStep s op = .next t) :
    (∃ size off v, op = .wr size off v ∧ wholeWord size off = true ∧ t = portWrite s off v) ∨
    (∃ host vars, t = { s with host := host, vars := vars, draws := s.draws + 1 } ∧ ∃ r v, vars = setVar s.vars r v) ∨
    (op = .waitIrq ∧ ∃ host, t = { s with host := host }) ∨ (op = .hardReset ∧ t = resetEngine s) := by
  cases op with
  | wr size off v =>
    simp only [hostStep] at h
    split at h
    · rename_i hw; exact .inl ⟨size, off, v, rfl, hw, by simpa using h.symm⟩
    · simp at h
  | rd size r off =>
    obtain ⟨v, -, rfl⟩ := hostRead_next h
    exact .inr (.inl ⟨s.host, _, rfl, r, v, rfl⟩)
  | wait r =>
    simp only [hostStep] at h
    split at h <;> obtain ⟨v, -, rfl⟩ := hostRead_next h
    · exact .inr (.inl ⟨_, _, rfl, r, v, rfl⟩)
    · exact .inr (.inl ⟨s.host, _, rfl, r, v, rfl⟩)
  | waitIrq =>
    simp only [hostStep, Host.Outcome.next.injEq] at h
    refine .inr (.inr (.inl ⟨rfl, ?_⟩))
    split at h
    · exact ⟨s.host, h.symm⟩
    · exact ⟨_, h.symm⟩
  | hardReset => exact .inr (.inr (.inr ⟨rfl, by simpa [hostStep] using h.symm⟩))

end Sys2Proof.Machine
end

