-- ==== Sys2Proof/Tests/Slice0.lean ====
section
/-! SUPPORT. The model's own tests: words written out from 30_encoding.md, ill-formed terms that the checks refuse,
values from 95_test_vectors.md, and for every statement with hypotheses a witness that meets them. -/

namespace Sys2Proof.Tests

-- One theorem after another: side by side, the waiting threads of the many kernel evaluations fill the memory limit.
set_option Elab.async false

open Sys2Proof.Machine Sys2Proof.Claims

/-! ## Decoding: OP in bits 5:0, A in 11:8, B in 15:12, C in 19:16 (30_encoding.md R56, R59, R63) -/

theorem test_decode_scalar :
    decode 0x00000000 = .ok .nop ∧ decode 0x00000001 = .ok .rfull ∧ decode 0x00000002 = .ok .rpart ∧
    decode 0x00000003 = .ok .p2r ∧ decode 0x00000004 = .ok .decomp ∧ decode 0x00000005 = .ok .mkhint ∧
    decode 0x00000006 = .ok .usehint := by decide

theorem test_decode_poly :
    decode 0x00002111 = .ok (.vrfull 1 2) ∧ decode 0x0000EF12 = .ok (.vrpart 15 14) ∧
    decode 0x00020113 = .ok (.vp2r 1 0 2) ∧ decode 0x00043214 = .ok (.vdecomp 2 3 4) ∧
    decode 0x00054315 = .ok (.vmkhint 3 4 5) ∧ decode 0x00087616 = .ok (.vusehint 6 7 8) := by decide

theorem test_decode_sampler :
    decode 0x00000920 = .ok (.cbd2 9) ∧ decode 0x00000A21 = .ok (.cbd3 10) ∧ decode 0x00000722 = .ok (.unif 7) := by decide

theorem test_decode_dense :
    decode 0x00002030 = .ok (.pkt1 2) ∧ decode 0x00000331 = .ok (.upkt1 3) ∧ decode 0x00001032 = .ok (.pkt0 1) ∧
    decode 0x00000433 = .ok (.upkt0 4) ∧ decode 0x0000B034 = .ok (.pketa 11) ∧ decode 0x00000C35 = .ok (.upketa 12) ∧
    decode 0x0000D036 = .ok (.pkg1 13) ∧ decode 0x00000E37 = .ok (.upkg1 14) := by decide

theorem test_decode_sparse :
    decode 0x00006038 = .ok (.pkhint 6) ∧ decode 0x00000539 = .ok (.upkhint 5) ∧
    decode 0x0000F03A = .ok (.pkchal 15) ∧ decode 0x0000083B = .ok (.upkchal 8) := by decide

/-- R60 (a) to (d), with the spec's own examples of words that are ILLEGAL. -/
theorem test_decode_rejects :
    decode 0x00000007 = .error .unassignedOpcode ∧ decode 0x00000040 = .error .reservedBits ∧
    decode 0x00100000 = .error .reservedBits ∧ decode 0x00000101 = .error .unusedField ∧
    decode 0x00010011 = .error .unusedField ∧ decode 0x00010113 = .error .sameDestination ∧
    decode 0x000F0F14 = .error .sameDestination := by decide

theorem test_decodeTableWord :
    decodeTableWord 32 0x00020113 = some (.vp2r 1 0 2) ∧ decodeTableWord 32 0x10 = none := by decide

/-! ## Well-formedness: an ill-formed term for each check -/

theorem test_wellFormed_vp2r : (Instr.vp2r 1 0 1).wellFormed = false ∧ (Instr.vp2r 1 1 0).wellFormed = true := by decide
theorem test_wellFormed_vdecomp : (Instr.vdecomp 15 0 15).wellFormed = false := by decide

theorem test_wf1 : ¬ Params.WF { Params.ref with q := 8380416 } := fun h => absurd h.wf1.2.1 (by decide)
theorem test_wf3 : ¬ Params.WF { Params.ref with d := 13 } := fun h => absurd h.wf3 (by decide)
theorem test_wf4 : ¬ Params.WF { Params.ref with gamma2 := 261887 } := fun h => absurd h.wf4 (by decide)
theorem test_wf5 : ¬ Params.WF { Params.ref with gamma1 := 524289 } := fun h => absurd h.wf5 (by decide)
theorem test_wf6 : ¬ Params.WF { Params.ref with eta := 8 } := fun h => absurd h.wf6 (by decide)
theorem test_wf7 : ¬ Params.WF { Params.ref with npoly := 4 } := fun h => absurd h.wf7 (by decide)
theorem test_wf8 : ¬ Params.WF { Params.ref with bufBytes := 4100 } := fun h => absurd h.wf8 (by decide)
theorem test_wf9 : ¬ Params.WF { Params.ref with ukeep := 13 } := fun h => absurd h.wf9 (by decide)
theorem test_wf10 : ¬ Params.WF { Params.ref with q := 8380421 } := fun h => absurd (h.wf10 rfl) (by decide)
theorem test_wf11 : ¬ Params.WF { Params.ref with tangle := [0, 0] } := fun h => absurd h.wf11.1 (by decide)

/-! ## Small states -/

/-- Reset with ARG0 and ARG1. -/
def argState (v w : Word) : State := { State.reset with arg0 := v, arg1 := w }

/-- Reset with slot 0 all v. -/
def slotState (v : Word) : State := { State.reset with mem := writeCoeffs [] 0 (List.replicate 256 v) }

/-- Reset with the given bytes in BUF from offset 0. -/
def windowState (bs : List Byte) : State := { State.reset with mem := memWrite [] 0 bs }

/-- Reset with SEED all 7. -/
def seedState : State := { State.reset with mem := writeBytes [] 0x80 (List.replicate 32 7) }

/-- Reset with a command word latched and the engine to move. -/
def issued (w : Word) : State := { State.reset with cmd := w, engine := .running ⟨w, 0, 0⟩ none false }

/-- Reset with one host step to take. -/
def hostState (op : HostOp) : State := { State.reset with host := [op] }

/-- RES0 and RES1 after a command on ARG0 and ARG1. -/
def results (i : Instr) (v w : Word) : Option (Nat × Nat) :=
  match exec i (argState v w) with
  | .next t => some (t.res0.toNat, t.res1.toNat)
  | .fault _ | .refused _ => none

/-- `poly[n][i]` after a command. -/
def laneOf (o : Host.Outcome State Fault Refusal) (n i : Nat) : Option Word :=
  match o with
  | .next t => readCoeff t.mem n i
  | .fault _ | .refused _ => none

theorem slotState_wf (v : Word) : (slotState v).mem.wf := writeCoeffs_wf List.Pairwise.nil _ _

theorem slotState_read (v : Word) : readSlot (slotState v).mem 0 = some (List.replicate 256 v) :=
  readSlot_writeCoeffs _ _ _ List.length_replicate

theorem slotState_holds (v : Word) : HoldsSlot (slotState v).mem 0 fun _ => v := fun i hi => by
  rw [slotState, readCoeff_writeCoeffs List.Pairwise.nil _ _ _ (by rwa [List.length_replicate]),
    List.getElem?_replicate, if_pos hi]

theorem windowState_wf (bs : List Byte) : (windowState bs).mem.wf := memWrite_wf List.Pairwise.nil _ _

theorem windowState_read (bs : List Byte) : memRead (windowState bs).mem 0 bs.length = some bs := memRead_memWrite _ _ _

theorem windowState_holds (bs : List Byte) (W : Nat → Byte) (h : ∀ k < bs.length, bs[k]? = some (W k)) :
    HoldsWindow (windowState bs).mem 0 bs.length W := fun k hk =>
  (((readBytes_eq_some_iff (windowState_wf bs)).1 (windowState_read bs)).2 k hk).trans (h k hk)

theorem seedState_wf : seedState.mem.wf := writeBytes_wf List.Pairwise.nil _ _

theorem seedState_read : readSeed seedState.mem seedState.params = some (List.replicate 32 7) :=
  (congrArg _ List.length_replicate.symm).trans (readBytes_writeBytes [] 0x80 (List.replicate 32 7))

theorem slot_lt (v : Word) (n : Slot) : n.toNat < (slotState v).params.npoly := n.isLt

/-- A lane of a one-source command on slots 0 and 1. -/
theorem unary_lane (v : Word) (f : Nat → Word → Word) (i : Nat) (hi : i < 256) :
    laneOf (polyUnary (slotState v) 1 0 f) 1 i = some (f i v) := by
  rw [polyUnary_runs (s := slotState v) (a := 1) (b := 0) rfl rfl (slot_lt v _) (slot_lt v _) (slotState_read v)]
  show readCoeff (writeCoeffs (slotState v).mem 1 _) 1 i = _
  rw [readCoeff_writeCoeffs (slotState_wf v) _ _ _ (by rwa [lanes_length, List.length_replicate]), lanes_getElem?,
    List.getElem?_replicate, if_pos hi, Option.map_some]

/-- A lane of a two-source command on slots 0 and 1. -/
theorem binary_lane (v : Word) (f : Nat → Word → Word → Word) (i : Nat) (hi : i < 256) :
    laneOf (polyBinary (slotState v) 1 0 0 f) 1 i = some (f i v v) := by
  rw [polyBinary_runs (s := slotState v) (a := 1) (b := 0) (c := 0) rfl rfl (slot_lt v _) (slot_lt v _) (slot_lt v _)
    (slotState_read v) (slotState_read v)]
  show readCoeff (writeCoeffs (slotState v).mem 1 _) 1 i = _
  rw [readCoeff_writeCoeffs (slotState_wf v) _ _ _ (by rwa [lanes2_length rfl, List.length_replicate])]
  exact lanes2_getElem? _ _ _ _ _ _ (by rw [List.getElem?_replicate, if_pos hi])
    (by rw [List.getElem?_replicate, if_pos hi])

/-- The high part of a lane of a command of two destinations. -/
theorem split_lane (v : Word) (lo hi : Nat → Word → Word) (i : Nat) (h : i < 256) :
    laneOf (polySplit (slotState v) 1 0 2 lo hi) 2 i = some (hi i v) := by
  rw [polySplit_runs (s := slotState v) (a := 1) (b := 0) (c := 2) rfl rfl (by decide) (slot_lt v _) (slot_lt v _)
    (slot_lt v _) (slotState_read v)]
  show readCoeff (writeCoeffs (writeCoeffs (slotState v).mem 1 _) 2 _) 2 i = _
  rw [readCoeff_writeCoeffs (writeCoeffs_wf (slotState_wf v) _ _) _ _ _ (by rwa [lanes_length, List.length_replicate]),
    lanes_getElem?, List.getElem?_replicate, if_pos h, Option.map_some]

/-- The low part of a lane of a command of two destinations. -/
theorem split_lane_low (v : Word) (lo hi : Nat → Word → Word) (i : Nat) (h : i < 256) :
    laneOf (polySplit (slotState v) 1 0 2 lo hi) 1 i = some (lo i v) := by
  rw [polySplit_runs (s := slotState v) (a := 1) (b := 0) (c := 2) rfl rfl (by decide) (slot_lt v _) (slot_lt v _)
    (slot_lt v _) (slotState_read v)]
  show readCoeff (writeCoeffs (writeCoeffs (slotState v).mem 1 _) 2 _) 1 i = _
  have hw := writeCoeffs_wf (slotState_wf v) 1 (lanes lo (List.replicate 256 v))
  rw [writeCoeffs, readCoeff_writeBytes_disjoint hw _ _ _ _ (by simp only [coeffAddr]; omega),
    readCoeff_writeCoeffs (slotState_wf v) _ _ _ (by rwa [lanes_length, List.length_replicate]),
    lanes_getElem?, List.getElem?_replicate, if_pos h, Option.map_some]

/-! ## Values of 95_test_vectors.md -/

/-- V1. -/
theorem test_rfull : results .rfull 0xFFFFFFFF 0 = some (4193791, 0) ∧ results .rfull 8380417 0 = some (0, 0) := by
  decide +kernel

/-- V2: Q is not reduced; the largest value of RP_REF. -/
theorem test_rpart :
    results .rpart 8380417 0 = some (8380417, 0) ∧ results .rpart 0xFFFFFFFF 0 = some (12574208, 0) := by
  decide +kernel

/-- V3: the sign change of the low part, and the largest input. -/
theorem test_p2r :
    results .p2r 8193 0 = some (8372226, 1) ∧ results .p2r 8380416 0 = some (8388609, 511) := by decide +kernel

/-- V4: the last value below the wrap point, and the special case. -/
theorem test_decomp :
    results .decomp 8118528 0 = some (8642305, 15) ∧ results .decomp 8118529 0 = some (8118529, 0) := by decide +kernel

/-- V5: Q − GAMMA2 with high part 0 and 1. -/
theorem test_mkhint :
    results .mkhint 8118529 0 = some (0, 0) ∧ results .mkhint 8118529 1 = some (1, 0) := by decide +kernel

/-- V6: up from the top high part and down from 0, both modulo M. -/
theorem test_usehint :
    results .usehint 8118528 1 = some (0, 0) ∧ results .usehint 8380417 1 = some (15, 0) := by decide +kernel

/-- V8. -/
theorem test_vrfull : laneOf (exec (.vrfull 1 0) (slotState 16760834)) 1 255 = some 0 := by
  show laneOf (execVrfull 1 0 _) 1 _ = _
  rw [execVrfull, unary_lane _ _ _ (by decide)]
  decide +kernel

/-- V8. -/
theorem test_vrpart : laneOf (exec (.vrpart 1 0) (slotState 16777216)) 1 255 = some 16382 := by
  show laneOf (execVrpart 1 0 _) 1 _ = _
  rw [execVrpart, unary_lane _ _ _ (by decide)]
  decide +kernel

/-- V8. -/
theorem test_vp2r :
    laneOf (exec (.vp2r 1 0 2) (slotState 16383)) 1 0 = some 8380416 ∧
    laneOf (exec (.vp2r 1 0 2) (slotState 16383)) 2 255 = some 1 := by
  show laneOf (execVp2r 1 0 2 _) 1 _ = _ ∧ laneOf (execVp2r 1 0 2 _) 2 _ = _
  rw [execVp2r, split_lane_low _ _ _ _ (by decide), split_lane _ _ _ _ (by decide)]
  decide +kernel

/-- V8. -/
theorem test_vdecomp :
    laneOf (exec (.vdecomp 1 0 2) (slotState 8380415)) 1 255 = some 8380415 ∧
    laneOf (exec (.vdecomp 1 0 2) (slotState 8380415)) 2 0 = some 0 := by
  show laneOf (execVdecomp 1 0 2 _) 1 _ = _ ∧ laneOf (execVdecomp 1 0 2 _) 2 _ = _
  rw [execVdecomp, split_lane_low _ _ _ _ (by decide), split_lane _ _ _ _ (by decide)]
  decide +kernel

/-- V5 on a lane: z0 = r1 = 2 makes no hint. -/
theorem test_vmkhint : laneOf (exec (.vmkhint 1 0 0) (slotState 2)) 1 7 = some 0 := by
  show laneOf (execVmkhint 1 0 0 _) 1 _ = _
  rw [execVmkhint, binary_lane _ _ _ (by decide)]
  decide +kernel

/-- V6 on a lane: r = 1 with hint 1 goes up. -/
theorem test_vusehint : laneOf (exec (.vusehint 1 0 0) (slotState 1)) 1 7 = some 1 := by
  show laneOf (execVusehint 1 0 0 _) 1 _ = _
  rw [execVusehint, binary_lane _ _ _ (by decide)]
  decide +kernel

/-- The stream whose byte k is k mod 256. -/
def ramp (k : Nat) : Byte := BitVec.ofNat 8 k

/-- V14: coefficients 0 to 15 less Q. -/
theorem test_cbd2 :
    ((cbdCoeffs 8380417 2 ((List.range 128).map ramp)).take 16).map (fun v => (v.toNat : Int) - 8380417) =
      [0, 0, 1, 0, 1, 0, 2, 0, -1, 0, 0, 0, 0, 0, 1, 0] := by decide +kernel

/-- V14: coefficients 0 to 15 less Q. -/
theorem test_cbd3 :
    ((cbdCoeffs 8380417 3 ((List.range 192).map ramp)).take 16).map (fun v => (v.toNat : Int) - 8380417) =
      [0, 1, -1, 0, 2, -1, -1, 1, 2, -1, 0, 1, 0, -2, -2, 1] := by decide +kernel

/-- 41_noise_sampler.md R97, for η = 3: of the 64 groups of stream bits, how many give −3, …, 3. -/
theorem test_cbd_profile :
    [-3, -2, -1, 0, 1, 2, 3].map (fun v : Int => ((List.range 64).filter fun g =>
      (popcount 3 (g % 2 ^ 3) : Int) - popcount 3 (g / 2 ^ 3) = v).length) = [1, 6, 15, 20, 15, 6, 1] := by decide +kernel

/-- V15: chunks 0 to 3 of 12 bits, and with UBITS = 24 and UKEEP = 23. -/
theorem test_unifChunk :
    (List.range 4).map (unifChunk Params.ref ramp) = [256, 32, 1027, 80] ∧
    (List.range 3).map (unifChunk { Params.ref with ubits := 24, ukeep := 23 } ramp) = [131328, 328707, 526086] := by
  decide +kernel

/-- V15: XCNT after 256 chunks of 12 bits. -/
theorem test_unifBytes : unifBytes Params.ref 256 = 384 := by decide

/-- V9: the first bytes of PKT1 of (37·i) mod 512. -/
theorem test_pkt1 :
    (densePack 0 9 encT1 ((List.range 256).map fun i => u32 (37 * i % 512))).take 8 =
      [0x00, 0x4a, 0x28, 0x79, 0x43, 0x29, 0x97, 0xb7] := by decide +kernel

/-- V9: and back. -/
theorem test_upkt1 : (denseUnpack 9 decT1 [0x00, 0x4a, 0x28, 0x79]).take 3 = [0, 37, 74] := by decide +kernel

/-- 42_codec.md R108, example. -/
theorem test_pkt0 :
    (densePack 0 14 (encT0 Params.ref) [8388609, 8372226, 8380417, 8380418]).take 7 =
      [0x00, 0xc0, 0xff, 0x0f, 0x00, 0xfe, 0x7f] := by decide +kernel

/-- 42_codec.md R108, the same bytes read back by R109. -/
theorem test_upkt0 :
    (denseUnpack 14 (decT0 Params.ref) [0x00, 0xc0, 0xff, 0x0f, 0x00, 0xfe, 0x7f]).take 4 =
      [8388609, 8372226, 8380417, 8380418] := by decide +kernel

/-- V11: Q − 3 + (i mod 7). -/
theorem test_pketa :
    (densePack 0 3 (encEta Params.ref) ((List.range 256).map fun i => u32 (8380414 + i % 7))).take 8 =
      [0x2e, 0xa7, 0xc0, 0xe5, 0x14, 0xb8, 0x9c, 0x02] := by decide +kernel

/-- V11: a field of 7 decodes to Q − 4, below the window. -/
theorem test_upketa : (denseUnpack 3 (decEta Params.ref) [0xff]).head? = some 8380413 := by decide +kernel

/-- V11: the first bytes of PKG1. -/
theorem test_pkg1 :
    (densePack 0 20 (encG1 Params.ref) [523775, 519676, 515577]).take 7 =
      [0x00, 0x00, 0x30, 0x00, 0x01, 0x06, 0x20] := by decide +kernel

/-- V11: a field of 2^20 − 1. -/
theorem test_upkg1 : (denseUnpack 20 (decG1 Params.ref) [0xff, 0xff, 0xff]).head? = some 7855617 := by decide +kernel

/-- An element with the given bits set. -/
def bitsAt (ix : List Nat) : List Word := (List.range 256).map fun j => if ix.contains j then 1 else 0

/-- V12: the VecK H. -/
def vecH : List (List Word) := [bitsAt [3, 17, 255], bitsAt [], bitsAt [0], bitsAt [], bitsAt [1, 2, 200]]

/-- V12: the window of H, with byte `i` replaced. -/
def windowH (i : Nat) (b : Byte) : List Byte :=
  (([0x03, 0x11, 0xff, 0x00, 0x01, 0x02, 0xc8] : List Byte) ++ List.replicate 89 0 ++
    [0x03, 0x03, 0x04, 0x04, 0x07]).set i b

/-- V12. -/
theorem test_pkhint : validHint Params.ref vecH = true ∧ packHint Params.ref vecH = windowH 0 3 := by decide +kernel

/-- V12: the unchanged window, and one for each check it can break. -/
theorem test_upkhint :
    unpackHint Params.ref (windowH 0 3) = some vecH ∧ unpackHint Params.ref (windowH 97 2) = none ∧
    unpackHint Params.ref (windowH 1 3) = none ∧ unpackHint Params.ref (windowH 50 1) = none ∧
    unpackHint Params.ref (windowH 100 0x61) = none := by decide +kernel

/-- V13: the challenge C. -/
def chalC : List Word :=
  (List.range 256).map fun i => if i % 4 = 0 ∧ i ≤ 236 then (if i / 4 % 3 = 0 then 8380416 else 1) else 0

/-- V13: the window of C, with byte `i` replaced. -/
def windowC (i : Nat) (b : Byte) : List Byte :=
  (List.replicate 30 (0x11 : Byte) ++ [0x00, 0x00, 0x49, 0x92, 0x24, 0x49, 0x92, 0x24, 0x49, 0x02]).set i b

/-- V13. -/
theorem test_pkchal : validChal Params.ref chalC = true ∧ packChal Params.ref chalC = windowC 0 0x11 := by decide +kernel

/-- V13: the unchanged window, sign bit 60 set, 59 mask bits, 61 mask bits. -/
theorem test_upkchal :
    unpackChal Params.ref (windowC 0 0x11) = some chalC ∧ unpackChal Params.ref (windowC 39 0x12) = none ∧
    unpackChal Params.ref (windowC 0 0x10) = none ∧ unpackChal Params.ref (windowC 31 0x80) = none := by decide +kernel

/-- NOP: DONE after the step that a placed word takes (40_field_primitives.md R78). -/
theorem test_nop :
    (match step (State.reset.withFetchWord 32 0) with
    | .next t => some (statusWord t, t.cmd)
    | .fault _ | .refused _ => none) = some (0x2, 0) := by decide +kernel

/-- The constants of 95_test_vectors.md section 1. -/
theorem test_constants :
    portRead State.reset 0x000 = some 0x4D524537 ∧ portRead State.reset 0x004 = some 0x007FE001 ∧
    portRead State.reset 0x008 = some 0x6005030E ∧ portRead State.reset 0x00C = some 0x0007FE00 ∧
    portRead State.reset 0x010 = some 0x0003FF00 ∧ portRead State.reset 0x014 = some 0x0320100C ∧
    portRead State.reset 0x018 = some 0x00001000 ∧ portRead State.reset 0x01C = some 0x0000000C := by decide +kernel

/-! ## Witnesses: states and operands that meet a statement's hypotheses, in the statements' order -/

/-- The host's turn while the engine runs. -/
def busyState (op : HostOp) : State := { issued 0 with host := [op], hostTurns := 1 }

theorem hostState_does (op : HostOp) : HostDoes (hostState op) op [] := ⟨rfl, .inl rfl⟩

theorem busyState_does (op : HostOp) : HostDoes (busyState op) op [] := ⟨rfl, .inr Nat.one_ne_zero⟩

theorem argState_ready (v w : Word) : Ready (argState v w) := ⟨rfl, rfl⟩

theorem slotState_ready (v : Word) : Ready (slotState v) := ⟨rfl, rfl⟩

theorem windowState_ready (bs : List Byte) : Ready (windowState bs) := ⟨rfl, rfl⟩

theorem issued_inv (w : Word) : Inv (issued w) where
  canonical := List.Pairwise.nil
  mapped := fun c hc => by cases hc
  running := fun cmd loop abort h => by
    cases h
    exact ⟨rfl, ⟨rfl, rfl, rfl⟩, fun l h => by cases h⟩
  rejection := fun h => by cases h
  sticky := fun h => by rcases h with h | h <;> cases h
  vars := List.Pairwise.nil

theorem witness_DecodeOfEncode :
    (Instr.vp2r 15 0 14).wellFormed = true ∧ (Instr.vdecomp 0 15 15).wellFormed = true ∧
    (Instr.upkchal 15).wellFormed = true := by decide

theorem witness_EncodeOfDecode : decode 0x000EF013 = .ok (.vp2r 0 15 14) := by decide

/-- One ILLEGAL word for each clause of R60, the highest unassigned opcode and the highest reserved bit among them. -/
theorem witness_IllegalWordOnlyReports :
    EngineDoes (issued 0x3F) ∧ EngineDoes { issued 0x3F with fatal := true } ∧
    IllegalWord (issued 0x3F).latched.word ∧ IllegalWord (issued 0x80000000).latched.word ∧
    IllegalWord (issued 0x00080000).latched.word ∧ IllegalWord (issued 0x000F0F14).latched.word := by
  refine ⟨⟨rfl, .inl rfl⟩, ⟨rfl, .inl rfl⟩, .inl ?_, .inr (.inl ?_), .inr (.inr (.inl ?_)), .inr (.inr (.inr ?_))⟩ <;>
    simp [issued, State.latched, opAssigned, usesA, usesB, usesC]

theorem witness_StepRunsLatchedCommand :
    EngineDoes (issued 0x00020113) ∧ decode (issued 0x00020113).latched.word = .ok (.vp2r 1 0 2) :=
  ⟨⟨rfl, .inl rfl⟩, by decide⟩

theorem witness_StepTakesHostStep :
    HostDoes (hostState ackOp) ackOp [] ∧ HostDoes (busyState ackOp) ackOp [] ∧ State.reset.host = [] ∧
    State.reset.busy = false := ⟨hostState_does _, busyState_does _, rfl, rfl⟩

/-- NOP, RFULL, RPART, P2R, DECOMP, MKHINT and USEHINT. -/
theorem witness_scalar_ready : Ready (argState 0 0) ∧ Ready (argState 0xFFFFFFFF 0xFFFFFFFF) ∧
    (argState 0 0).params.rp = .ref := ⟨argState_ready _ _, argState_ready _ _, rfl⟩

/-- P2R and DECOMP: both ends of the domain, and both sides of the wrap point Q − GAMMA2. -/
theorem witness_split_domain :
    (argState 0 0).latched.arg0.toNat < Params.ref.q ∧ (argState 8380416 0).latched.arg0.toNat < Params.ref.q ∧
    (argState 8118528 0).latched.arg0.toNat < Params.ref.q - Params.ref.gamma2 ∧
    Params.ref.q - Params.ref.gamma2 ≤ (argState 8118529 0).latched.arg0.toNat ∧
    Params.ref.q - Params.ref.gamma2 ≤ (argState 8380416 0).latched.arg0.toNat := by decide +kernel

/-- MKHINT: the highest inputs of its domain. -/
theorem witness_MkhintClosedForm :
    (argState 16760833 15).latched.arg0.toNat < 2 * Params.ref.q ∧
    (argState 16760833 15).latched.arg1.toNat < Params.ref.m := by decide +kernel

/-- USEHINT: hint 0, hint 1 with a positive low part, hint 1 with low part 0. -/
theorem witness_UsehintCorrects :
    (argState 16760833 0).latched.arg0.toNat < 2 * Params.ref.q ∧ (argState 16760833 0).latched.arg1 = 0 ∧
    Params.ref.q < (decF Params.ref ((argState 1 1).latched.arg0.toNat % Params.ref.q)).1 ∧
    (decF Params.ref ((argState 0 1).latched.arg0.toNat % Params.ref.q)).1 ≤ Params.ref.q ∧
    (argState 0 1).latched.arg1 = 1 := by decide +kernel

/-- V7, the row of w = 8118528 and f = −5, with the three commands' answers. -/
theorem witness_HintRoundTrip :
    Ready (argState 8118528 0) ∧ Ready (argState 261893 15) ∧ Ready (argState 8118533 1) ∧
    8118528 < Params.ref.q ∧ -(Params.ref.gamma2 : Int) ≤ -5 ∧ (-5 : Int) ≤ Params.ref.gamma2 ∧
    results .decomp 8118528 0 = some (8642305, 15) ∧
    ((261893 : Nat) : Int) % Params.ref.q = ((8642305 : Nat) - (-5)) % Params.ref.q ∧
    results .mkhint 261893 15 = some (1, 0) ∧
    ((8118533 : Nat) : Int) % Params.ref.q = ((8118528 : Nat) - (-5)) % Params.ref.q ∧
    results .usehint 8118533 1 = some (15, 0) :=
  ⟨argState_ready _ _, argState_ready _ _, argState_ready _ _, by decide +kernel⟩

/-- VRFULL, VRPART: the highest slot number a command can have and the lowest, on a chip with RP_REF. -/
theorem witness_PolyReduceLanes :
    (slotState 8380417).params.rp = .ref ∧
    Ready (slotState 8380417) ∧ (slotState 8380417).mem.wf ∧ (15 : Slot).toNat < (slotState 8380417).params.npoly ∧
    (0 : Slot).toNat < (slotState 8380417).params.npoly ∧ HoldsSlot (slotState 8380417).mem (0 : Slot).toNat fun _ => 8380417 :=
  ⟨rfl, slotState_ready _, slotState_wf _, slot_lt _ _, slot_lt _ _, slotState_holds _⟩

/-- VP2R, VDECOMP: lanes in the domain, and lanes just outside it. -/
theorem witness_PolySplitLanes :
    (0 : Slot) ≠ 1 ∧ (∀ v, Ready (slotState v) ∧ (slotState v).mem.wf ∧
      HoldsSlot (slotState v).mem (0 : Slot).toNat fun _ => v) ∧
    (1 : Slot).toNat < (slotState 0).params.npoly ∧ (8380416 : Word).toNat < Params.ref.q ∧
    ¬ (8380417 : Word).toNat < Params.ref.q :=
  ⟨by decide, fun v => ⟨slotState_ready _, slotState_wf _, slotState_holds _⟩, slot_lt _ _, by decide, by decide⟩

/-- VMKHINT and VUSEHINT, both sources the same slot: lanes in both domains. -/
theorem witness_PolyHintLanes :
    Ready (slotState 1) ∧ (slotState 1).mem.wf ∧ (0 : Slot).toNat < (slotState 1).params.npoly ∧
    (HoldsSlot (slotState 1).mem (0 : Slot).toNat fun _ => 1) ∧ (1 : Word).toNat < 2 * Params.ref.q ∧
    (1 : Word).toNat < Params.ref.m ∧ (1 : Word).toNat < 2 :=
  ⟨slotState_ready _, slotState_wf _, slot_lt _ _, slotState_holds _, by decide +kernel⟩

theorem witness_CbdMakesCenteredBinomial :
    Ready seedState ∧ seedState.mem.wf ∧ (15 : Slot).toNat < seedState.params.npoly ∧
    readSeed seedState.mem seedState.params = some (List.replicate 32 7) :=
  ⟨⟨rfl, rfl⟩, seedState_wf, by decide, seedState_read⟩

/-- A UNIF that has 255 values, with its loop state in range of the invariant. -/
def unifState : State :=
  { State.reset with
    cmd := 0x22, engine := .running ⟨0x22, 0, 0⟩ (some ⟨[], 255, List.replicate 255 4095⟩) false }

theorem unifState_inv : Inv unifState where
  canonical := List.Pairwise.nil
  mapped := fun c hc => by cases hc
  running := fun cmd loop abort h => by
    cases h
    refine ⟨rfl, ⟨rfl, rfl, rfl⟩, fun l h => ?_⟩
    cases h
    refine ⟨⟨by rw [List.length_replicate]; decide, by rw [List.length_replicate], fun v hv => ?_⟩, rfl, 0, by decide,
      by decide⟩
    obtain rfl := List.eq_of_mem_replicate hv
    decide
  rejection := fun h => by cases h
  sticky := fun h => by rcases h with h | h <;> cases h
  vars := List.Pairwise.nil

/-- The first step of UNIF, and a step with 255 values accepted. -/
theorem witness_UnifExaminesOneChunk :
    (Ready seedState ∧ seedState.mem.wf ∧ seedState.loop = none ∧ (0 : Slot).toNat < seedState.params.npoly ∧
      readSeed seedState.mem seedState.params = some (List.replicate 32 7)) ∧
    Ready unifState ∧ unifState.mem.wf ∧ unifState.loop = some ⟨[], 255, List.replicate 255 4095⟩ ∧
    (List.replicate 255 (4095 : Word)).length < 256 :=
  ⟨⟨⟨rfl, rfl⟩, seedState_wf, rfl, by decide, seedState_read⟩, ⟨rfl, rfl⟩, List.Pairwise.nil, rfl,
    by rw [List.length_replicate]; decide⟩

/-- A UNIF issued with SEED written. -/
theorem witness_UnifEndsWithin256Steps :
    let s : State := { seedState with cmd := 0x722, engine := .running ⟨0x722, 0, 0⟩ none false }
    s.engine = .running ⟨0x722, 0, 0⟩ none false ∧ decode 0x722 = .ok (.unif 7) ∧ s.fatal = false ∧
    (7 : Slot).toNat < s.params.npoly ∧ readSeed s.mem s.params = some (List.replicate 32 7) ∧ s.host = [] ∧
    2 ^ s.params.ukeep ≤ s.params.q :=
  ⟨rfl, by decide, rfl, by decide, seedState_read, rfl, by decide⟩

/-- A UNIF with 255 values accepted; where the draw does not fail, its next step completes it with ERR = 0. -/
theorem witness_UnifOutputsBelowQ :
    Inv unifState ∧ unifState.loop = some ⟨[], 255, List.replicate 255 4095⟩ ∧
    (Config.xofFails unifState.draws = false →
      exec (.unif 0) unifState = .next (unifStep unifState 0 ⟨[], 255, List.replicate 255 4095⟩)) :=
  ⟨unifState_inv, rfl, fun h => by
    show unlessXofFails unifState _ _ = _
    rw [unlessXofFails, h]
    rfl⟩

/-- The dense packs: the ends of each domain, and the first values outside. -/
theorem witness_DensePackWritesFields :
    (∀ v, Ready (slotState v) ∧ (slotState v).mem.wf ∧ (0 : Slot).toNat < (slotState v).params.npoly ∧
      (slotState v).off + 640 ≤ (slotState v).params.bufBytes ∧
      HoldsSlot (slotState v).mem (0 : Slot).toNat fun _ => v) ∧
    (domT1 Params.ref 511 ∧ ¬ domT1 Params.ref 512) ∧
    (domT0 Params.ref 8372226 ∧ domT0 Params.ref 8388609 ∧ ¬ domT0 Params.ref 8372225 ∧ ¬ domT0 Params.ref 8388610) ∧
    (domEta Params.ref 8380414 ∧ domEta Params.ref 8380420 ∧ ¬ domEta Params.ref 8380413 ∧
      ¬ domEta Params.ref 8380421) ∧
    domG1 Params.ref 523775 ∧ domG1 Params.ref 7856642 ∧ domG1 Params.ref 8380416 ∧ ¬ domG1 Params.ref 523776 ∧
    ¬ domG1 Params.ref 7856641 ∧ ¬ domG1 Params.ref 8380417 :=
  ⟨fun v => ⟨slotState_ready _, slotState_wf _, slot_lt _ _, (by show 0 + 640 ≤ 4096; decide), slotState_holds _⟩, by
    unfold domT1 domT0 domEta domG1
    decide +kernel⟩

theorem window_read (n : Nat) (b : Byte) :
    memRead (windowState (List.replicate n b)).mem 0 n = some (List.replicate n b) := by
  have h := windowState_read (List.replicate n b)
  rwa [List.length_replicate] at h

theorem window_holds (n : Nat) (b : Byte) : HoldsWindow (windowState (List.replicate n b)).mem 0 n fun _ => b := by
  have h := windowState_holds (List.replicate n b) (fun _ => b) fun k hk => by
    rw [List.getElem?_replicate, if_pos (by rwa [List.length_replicate] at hk)]
  rwa [List.length_replicate] at h

/-- Every length that a dense codec has, the longest among them. -/
theorem witness_DenseUnpackReadsFields (n : Nat) (hn : n ≤ 640) (b : Byte) :
    let s := windowState (List.replicate n b)
    Ready s ∧ s.mem.wf ∧ (15 : Slot).toNat < s.params.npoly ∧ s.off + n ≤ s.params.bufBytes ∧
    HoldsWindow s.mem s.off n fun _ => b :=
  ⟨windowState_ready _, windowState_wf _, (by show 15 < 16; decide), (by show 0 + n ≤ 4096; omega), window_holds n b⟩

theorem upkg1_leaves {s : State} {a : Slot} {w : List Byte} (hf : s.fatal = false) (hi : s.engine = .idle)
    (h1 : a.toNat < s.params.npoly) (h2 : s.off + denseLen 20 ≤ s.params.bufBytes)
    (hw : memRead s.mem s.off (denseLen 20) = some w) : ∃ t, exec (.upkg1 a) s = .next t ∧ t.err = .ok :=
  ⟨_, unpackSlot_runs hf (by rw [State.abortPending, hi]) h1 h2 hw, rfl⟩

/-- A window all FF, whose fields are outside the pack domain. -/
theorem witness_UnpackedGamma1IsNormalized : ∃ s t, s.mem.wf ∧ exec (.upkg1 15) s = .next t ∧ t.err = .ok := by
  obtain ⟨t, h⟩ := upkg1_leaves (s := windowState (List.replicate (denseLen 20) 0xFF)) (a := 15) rfl rfl
    (by show 15 < 16; decide) (by decide +kernel) (window_read (denseLen 20) 0xFF)
  exact ⟨_, t, windowState_wf _, h⟩

/-- What a codec command leaves for its inverse: a state that is Ready, with the same chip and OFF. -/
def LeavesReady (s : State) (i : Instr) : Prop :=
  ∃ t, exec i s = .next t ∧ Ready t ∧ t.chip = s.chip ∧ t.off = s.off

theorem packSlot_leaves {s : State} {b : Slot} {len : Nat} {enc : List Word → List Byte} {cs : List Word}
    (hf : s.fatal = false) (hi : s.engine = .idle) (h1 : b.toNat < s.params.npoly)
    (h2 : s.off + len ≤ s.params.bufBytes) (hb : readSlot s.mem b.toNat = some cs) :
    ∃ t, packSlot s b len enc = .next t ∧ Ready t ∧ t.chip = s.chip ∧ t.off = s.off :=
  ⟨_, packSlot_runs hf (by rw [State.abortPending, hi]) h1 h2 hb, ⟨hf, rfl⟩, rfl, by
    simp only [State.off, State.op0, State.latched, hi]; rfl⟩

/-- Every pack of one slot, from an idle state that holds it. -/
theorem packs_leave {s : State} {b : Slot} {cs : List Word} (hf : s.fatal = false) (hi : s.engine = .idle)
    (h1 : b.toNat < s.params.npoly) (h2 : ∀ len ≤ 640, s.off + len ≤ s.params.bufBytes)
    (hb : readSlot s.mem b.toNat = some cs) :
    LeavesReady s (.pkt1 b) ∧ LeavesReady s (.pkt0 b) ∧ LeavesReady s (.pketa b) ∧
    LeavesReady s (.pkg1 b) ∧ LeavesReady s (.pkchal b) :=
  ⟨packSlot_leaves hf hi h1 (h2 _ (by decide +kernel)) hb, packSlot_leaves hf hi h1 (h2 _ (by decide +kernel)) hb,
    packSlot_leaves hf hi h1 (h2 _ (by unfold Params.detaBits; split <;> decide +kernel)) hb,
    packSlot_leaves hf hi h1 (h2 _ (by decide +kernel)) hb, packSlot_leaves hf hi h1 (h2 _ (by decide +kernel)) hb⟩

theorem slotState_packs (v : Word) : LeavesReady (slotState v) (.pkt1 0) ∧ LeavesReady (slotState v) (.pkt0 0) ∧
    LeavesReady (slotState v) (.pketa 0) ∧ LeavesReady (slotState v) (.pkg1 0) ∧
    LeavesReady (slotState v) (.pkchal 0) :=
  packs_leave rfl rfl (slot_lt _ _) (fun len h => by show 0 + len ≤ 4096; omega) (slotState_read v)

theorem unpackSlot_leaves {s : State} {a : Slot} {len : Nat} {dec : List Byte → List Word} {w : List Byte}
    (hf : s.fatal = false) (hi : s.engine = .idle) (h1 : a.toNat < s.params.npoly)
    (h2 : s.off + len ≤ s.params.bufBytes) (hw : memRead s.mem s.off len = some w) :
    ∃ t, unpackSlot s a len dec = .next t ∧ Ready t ∧ t.chip = s.chip ∧ t.off = s.off :=
  ⟨_, unpackSlot_runs hf (by rw [State.abortPending, hi]) h1 h2 hw, ⟨hf, rfl⟩, rfl, by
    simp only [State.off, State.op0, State.latched, hi]; rfl⟩

/-- Every dense unpack, from an idle state that holds its window. -/
theorem unpacks_leave {s : State} {a : Slot} {w : Nat → List Byte} (hf : s.fatal = false) (hi : s.engine = .idle)
    (h1 : a.toNat < s.params.npoly) (h2 : ∀ n ≤ 20, s.off + denseLen n ≤ s.params.bufBytes)
    (hw : ∀ n ≤ 20, memRead s.mem s.off (denseLen n) = some (w n)) :
    LeavesReady s (.upkt1 a) ∧ LeavesReady s (.upkt0 a) ∧ LeavesReady s (.upketa a) ∧ LeavesReady s (.upkg1 a) :=
  have he : s.params.detaBits ≤ 20 := by unfold Params.detaBits; split <;> decide
  ⟨unpackSlot_leaves hf hi h1 (h2 9 (by decide)) (hw 9 (by decide)),
    unpackSlot_leaves hf hi h1 (h2 14 (by decide)) (hw 14 (by decide)),
    unpackSlot_leaves hf hi h1 (h2 _ he) (hw _ he), unpackSlot_leaves hf hi h1 (h2 20 (by decide)) (hw 20 (by decide))⟩

/-- A window all 0, whose fields all decode into the pack domain, and each dense unpack of it. -/
theorem witness_unpack_then_pack :
    (let s := windowState (List.replicate 640 0)
     LeavesReady s (.upkt1 15) ∧ LeavesReady s (.upkt0 15) ∧ LeavesReady s (.upketa 15) ∧ LeavesReady s (.upkg1 15)) ∧
    ∀ w j, fld (fun _ => 0) w j = 0 := by
  refine ⟨unpacks_leave (w := fun n => List.replicate (denseLen n) 0) rfl rfl (by show 15 < 16; decide)
    (fun n hn => by show 0 + 256 * n / 8 ≤ 4096; omega) fun n hn => ?_, fun w j => by simp [fld, bitAt]⟩
  exact (readBytes_eq_some_iff (windowState_wf _)).2 ⟨List.length_replicate, fun k hk => by
    rw [List.getElem?_replicate, if_pos hk]
    exact window_holds 640 0 k (by rw [denseLen, ringDegree] at hk; omega)⟩

/-- The fields at the ends of each pack domain, and the first ones past it. -/
theorem witness_field_domains :
    domT1 Params.ref (valT1 Params.ref 511).toNat ∧ Params.ref.d = 14 ∧
    domT0 Params.ref (valT0 Params.ref 0).toNat ∧ domT0 Params.ref (valT0 Params.ref 16383).toNat ∧
    domEta Params.ref (valEta Params.ref 0).toNat ∧ domEta Params.ref (valEta Params.ref 6).toNat ∧
    ¬ domEta Params.ref (valEta Params.ref 7).toNat ∧ domG1 Params.ref (valG1 Params.ref 0).toNat ∧
    domG1 Params.ref (valG1 Params.ref 1047550).toNat ∧ ¬ domG1 Params.ref (valG1 Params.ref 1047551).toNat ∧
    Params.ref.WF := by
  refine ⟨?_, rfl, ?_, ?_, ?_, ?_, ?_, ?_, ?_, ?_, Params.ref_wf⟩ <;>
    simp only [domT1, domT0, domEta, domG1] <;> decide +kernel

/-- Each pack of a slot at an end of its domain. -/
theorem witness_DensePackThenUnpack :
    LeavesReady (slotState 511) (.pkt1 0) ∧ LeavesReady (slotState 8388609) (.pkt0 0) ∧
    LeavesReady (slotState 8380414) (.pketa 0) ∧ LeavesReady (slotState 7856642) (.pkg1 0) :=
  ⟨(slotState_packs _).1, (slotState_packs _).2.1, (slotState_packs _).2.2.1, (slotState_packs _).2.2.2.1⟩

/-! ### Hints: the VecK of V12 -/

/-- The set bits of V12's H. -/
def bitsH : Nat → List Nat
  | 0 => [3, 17, 255]
  | 2 => [0]
  | 4 => [1, 2, 200]
  | _ => []

/-- V12's H as a function. -/
def funH (i j : Nat) : Word := if (bitsH i).contains j then 1 else 0

/-- Reset with H in slots 0 to 4. -/
def vecState : State :=
  { State.reset with mem := writeCoeffs [] 0 ((List.range 1280).map fun x => funH (x / 256) (x % 256)) }

theorem vecState_wf : vecState.mem.wf := writeCoeffs_wf List.Pairwise.nil _ _

theorem vecState_holds (i : Nat) (hi : i < 5) : HoldsSlot vecState.mem (0 + i) (funH i) := fun j hj => by
  have h := readCoeff_writeCoeffs (m := []) List.Pairwise.nil 0 (256 * i + j)
    ((List.range 1280).map fun x => funH (x / 256) (x % 256)) (by rw [List.length_map, List.length_range]; omega)
  rw [List.getElem?_map, List.getElem?_range (by omega), Option.map_some, show (256 * i + j) / 256 = i by omega,
    show (256 * i + j) % 256 = j by omega] at h
  rw [readCoeff, coeffAddr_slot_add]
  exact h

theorem funH_valid : ValidVec Params.ref funH :=
  ⟨fun i _ j _ => by unfold funH; split <;> simp, by decide +kernel⟩

theorem witness_PkhintLaysOutIndices :
    Ready vecState ∧ vecState.mem.wf ∧ (0 : Slot).toNat + vecState.params.k ≤ vecState.params.npoly ∧
    vecState.off + (vecState.params.omega + vecState.params.k) ≤ vecState.params.bufBytes ∧
    (∀ i < vecState.params.k, HoldsSlot vecState.mem ((0 : Slot).toNat + i) (funH i)) ∧
    ValidVec vecState.params funH :=
  ⟨⟨rfl, rfl⟩, vecState_wf, by decide, by decide, vecState_holds, funH_valid⟩

theorem witness_HintPackThenUnpack :
    ∃ t, exec (.pkhint 0) vecState = .next t ∧ Ready t ∧ t.chip = vecState.chip ∧ t.off = vecState.off ∧
      (11 : Slot).toNat + t.params.k ≤ t.params.npoly :=
  ⟨_, execPkhint_runs (s := vecState) (b := 0) rfl rfl (by decide) (by decide)
    (readSlots_of_coeffs vecState_wf (n := 0) (h := funH) vecState_holds), ⟨rfl, rfl⟩, rfl, rfl, by decide⟩

/-- A window that lists index 3 for element 0 only. -/
def acceptedHint (k : Nat) : Byte := if k = 0 then 3 else if 96 ≤ k then 1 else 0

/-- A window whose first switch-over point is above OMEGA. -/
def rejectedHint (k : Nat) : Byte := if k = 96 then 97 else 0

/-- Reset with a window given as a function. -/
def funState (W : Nat → Byte) (n : Nat) : State := windowState ((List.range n).map W)

theorem funState_holds (W : Nat → Byte) (n : Nat) : HoldsWindow (funState W n).mem 0 n W := by
  have h := windowState_holds ((List.range n).map W) W fun k hk => by
    rw [List.length_map, List.length_range] at hk
    rw [List.getElem?_map, List.getElem?_range hk, Option.map_some]
  rwa [List.length_map, List.length_range] at h

theorem funState_read (W : Nat → Byte) (n : Nat) : memRead (funState W n).mem 0 n = some ((List.range n).map W) := by
  have h := windowState_read ((List.range n).map W)
  rwa [List.length_map, List.length_range] at h

theorem witness_UpkhintDecodesOrRejects :
    (∀ W, Ready (funState W 101) ∧ (funState W 101).mem.wf ∧
      (11 : Slot).toNat + (funState W 101).params.k ≤ (funState W 101).params.npoly ∧
      (funState W 101).off + 101 ≤ (funState W 101).params.bufBytes ∧
      HoldsWindow (funState W 101).mem (funState W 101).off 101 W) ∧
    Params.ref.omega + Params.ref.k = 101 ∧ HintAccepted Params.ref acceptedHint ∧
    HintListed Params.ref acceptedHint 0 3 ∧ ¬ HintAccepted Params.ref rejectedHint := by
  have sw : ∀ i, switchBefore Params.ref acceptedHint i = if i = 0 then 0 else 1 := by
    intro i
    by_cases h : i = 0
    · rw [switchBefore, if_pos h, if_pos h]
    · rw [switchBefore, if_neg h, if_neg h]
      show (if 96 + i - 1 = 0 then (3 : Byte) else if 96 ≤ 96 + i - 1 then 1 else 0).toNat = 1
      rw [if_neg (by omega), if_pos (by omega)]
      rfl
  have at_ : ∀ i, (acceptedHint (Params.ref.omega + i)).toNat = 1 := by
    intro i
    show (if 96 + i = 0 then (3 : Byte) else if 96 ≤ 96 + i then 1 else 0).toNat = 1
    rw [if_neg (by omega), if_pos (by omega)]
    rfl
  refine ⟨fun W => ⟨⟨rfl, rfl⟩, windowState_wf _, (by show 11 + 5 ≤ 16; decide),
    (by show 0 + 101 ≤ 4096; decide), funState_holds W 101⟩, rfl,
    ⟨?_, ?_, ?_⟩, ⟨0, ?_, ?_, by decide⟩, ?_⟩
  · intro i _
    rw [sw, at_]
    constructor
    · split <;> omega
    · decide
  · intro i _ k h1 h2
    rw [sw] at h1
    rw [at_] at h2
    omega
  · intro k h1 h2
    rw [sw, if_neg (by decide)] at h1
    have h3 : ¬ k = 0 := by omega
    have h4 : ¬ 96 ≤ k := by simp only [Params.ref] at h2; omega
    simp [acceptedHint, h3, h4]
  · rw [sw]; decide
  · rw [at_]; decide
  · intro h
    exact absurd (h.1 0 (by decide)).2 (by decide)

theorem witness_HintUnpackThenPack :
    let s := funState acceptedHint 101
    ∃ t, exec (.upkhint 11) s = .next t ∧ t.dfail = false ∧ Ready t ∧ t.chip = s.chip ∧
      t.off + (s.params.omega + s.params.k) ≤ s.params.bufBytes := by
  obtain ⟨hs, h⟩ := Option.isSome_iff_exists.1
    (show (unpackHint Params.ref ((List.range 101).map acceptedHint)).isSome = true by decide +kernel)
  refine ⟨_, execUpkhint_runs (s := funState acceptedHint 101) (a := 11) rfl rfl (by decide +kernel) (by decide +kernel)
    (funState_read acceptedHint 101), ?_⟩
  rw [show (funState acceptedHint 101).params = Params.ref from rfl, h]
  exact ⟨rfl, ⟨rfl, rfl⟩, rfl, by show 0 + (96 + 5) ≤ 4096; decide⟩

/-! ### Challenges -/

/-- A challenge with its last coefficient Q − 1. -/
def someChallenge (i : Nat) : Word := if i < 59 then 1 else if i = 255 then 8380416 else 0

theorem someChallenge_valid : ValidChallenge Params.ref someChallenge :=
  ⟨by decide +kernel, fun i _ => by
    unfold someChallenge
    split
    · simp
    · split
      · exact .inr (.inr (by decide))
      · simp⟩

/-- Reset with it in slot 0. -/
def chalState : State := { State.reset with mem := writeCoeffs [] 0 ((List.range 256).map someChallenge) }

theorem chalState_wf : chalState.mem.wf := writeCoeffs_wf List.Pairwise.nil _ _

theorem chalState_holds : HoldsSlot chalState.mem 0 someChallenge := fun i hi => by
  rw [chalState, readCoeff_writeCoeffs List.Pairwise.nil _ _ _ (by rwa [List.length_map, List.length_range]),
    List.getElem?_map, List.getElem?_range hi, Option.map_some]

theorem witness_PkchalWritesMaskAndSigns :
    Ready chalState ∧ chalState.mem.wf ∧ (0 : Slot).toNat < chalState.params.npoly ∧
    chalState.off + 40 ≤ chalState.params.bufBytes ∧ HoldsSlot chalState.mem (0 : Slot).toNat someChallenge ∧
    ValidChallenge chalState.params someChallenge :=
  ⟨⟨rfl, rfl⟩, chalState_wf, by decide, by decide, chalState_holds, someChallenge_valid⟩

theorem chalState_read : readSlot chalState.mem 0 = some ((List.range ringDegree).map someChallenge) :=
  readSlot_of_coeffs chalState_wf chalState_holds

theorem witness_ChallengePackThenUnpack : LeavesReady chalState (.pkchal 0) := by
  have h := packs_leave (s := chalState) (b := 0) rfl rfl (by decide) (fun len h => by show 0 + len ≤ 4096; omega)
    chalState_read
  exact h.2.2.2.2

/-- A window of 60 mask bits and no sign bit. -/
def acceptedChal (k : Nat) : Byte := if k < 7 then 0xFF else if k = 7 then 0x0F else 0

/-- The same with the top sign bit set. -/
def rejectedChal (k : Nat) : Byte := if k = 39 then 0x80 else acceptedChal k

theorem witness_UpkchalDecodesOrRejects :
    (∀ W, Ready (funState W 40) ∧ (funState W 40).mem.wf ∧ (15 : Slot).toNat < (funState W 40).params.npoly ∧
      (funState W 40).off + 40 ≤ (funState W 40).params.bufBytes ∧
      HoldsWindow (funState W 40).mem (funState W 40).off 40 W) ∧
    ChallengeAccepted acceptedChal ∧ ¬ ChallengeAccepted rejectedChal := by
  refine ⟨fun W => ⟨⟨rfl, rfl⟩, windowState_wf _, (by show 15 < 16; decide),
    (by show 0 + 40 ≤ 4096; decide), funState_holds W 40⟩,
    ⟨fun k h1 h2 => ?_, by decide +kernel⟩, fun h => ?_⟩
  · have h3 : (256 + k) / 8 = 39 := by omega
    rw [bitAt, h3]
    exact Nat.mod_eq_of_lt (by rw [show (acceptedChal 39).toNat = 0 from rfl, Nat.zero_div]; decide) |>.trans
      (Nat.zero_div _)
  · exact absurd (h.1 63 (by decide) (by decide)) (by decide)

theorem witness_ChallengeUnpackThenPack :
    let s := funState acceptedChal 40
    ∃ t, exec (.upkchal 15) s = .next t ∧ t.dfail = false ∧ Ready t ∧ t.chip = s.chip ∧
      t.off + 40 ≤ s.params.bufBytes := by
  obtain ⟨cs, h⟩ := Option.isSome_iff_exists.1
    (show (unpackChal Params.ref ((List.range 40).map acceptedChal)).isSome = true by decide +kernel)
  refine ⟨_, execUpkchal_runs (s := funState acceptedChal 40) (a := 15) rfl rfl (by decide +kernel) (by decide +kernel)
    (funState_read acceptedChal 40), ?_⟩
  rw [show (funState acceptedChal 40).params = Params.ref from rfl, h]
  exact ⟨rfl, ⟨rfl, rfl⟩, rfl, by show 0 + 40 ≤ 4096; decide⟩

/-! ### Errors and destinations -/

theorem witness_FatalRefusesEveryCommand :
    let s : State := { issued 0 with fatal := true }
    s.fatal = true ∧ s.loop = none := ⟨rfl, rfl⟩

/-- K slots from slot 12 do not exist, nor does a window from the last byte of BUF. -/
theorem witness_RangeRefusesEveryCommand :
    (argState 0 0).fatal = false ∧ (argState 0 0).loop = none ∧ (Instr.pkhint 12).wellFormed = true ∧
    ¬ InRange (.pkhint 12) (argState 0 0) ∧ ¬ InRange (.upkt1 0) (argState 3809 0) :=
  ⟨rfl, rfl, rfl, fun h => absurd (h.2.1 12 (.inl rfl)) (by decide), fun h => absurd (h.2.2 288 rfl) (by decide)⟩

theorem witness_AbortEndsEveryCommand :
    let s : State := { issued 0x30 with engine := .running ⟨0x30, 3808, 0⟩ none true }
    s.fatal = false ∧ (Instr.pkt1 0).wellFormed = true ∧ InRange (.pkt1 0) s ∧ s.abortPending = true ∧
    namesRes0 (.pkt1 0) = false ∧ ¬ Named (.pkt1 0) s 0x4000 :=
  ⟨rfl, rfl, ⟨fun n _ => n.isLt, fun n hn => by (rcases hn with h | h <;> cases h),
    fun len h => by (cases h; decide)⟩, rfl, rfl, fun h => by
    rcases h with ⟨n, hn, -⟩ | ⟨-, len, hl, h⟩
    · cases hn
    · cases hl
      exact absurd h.2 (by decide)⟩

/-- A UNIF under way, with an abort pending. -/
theorem witness_AbortEndsUnifUnderWay :
    let s : State := { issued 0x722 with engine := .running ⟨0x722, 0, 0⟩ (some ⟨[], 3, [0, 1]⟩) true }
    s.fatal = false ∧ (Instr.unif 7).wellFormed = true ∧ InRange (.unif 7) s ∧ s.abortPending = true ∧
    s.loop = some ⟨[], 3, [0, 1]⟩ ∧ namesXcnt (.unif 7) = true ∧ namesRes0 (.unif 7) = false ∧
    ¬ Named (.unif 7) s 0x4000 :=
  ⟨rfl, rfl, ⟨fun n _ => n.isLt, fun n hn => by (rcases hn with h | h <;> cases h), fun len h => by cases h⟩, rfl, rfl,
    rfl, rfl, fun h => by
    rcases h with ⟨n, hn, h⟩ | ⟨h, -⟩
    · obtain rfl := List.mem_singleton.1 hn
      exact absurd h.1 (by decide)
    · cases h⟩

/-- A step that answers next: also for StepKeepsInv, ChipNeverChanges and FatalStaysUntilReset. -/
theorem witness_OnlyNamedDestinations :
    ∃ t, exec .rfull (argState 8380418 0) = .next t ∧ t.res0 = 1 ∧ namesRes1 .rfull = false ∧
      namesXcnt .rfull = false ∧ ¬ Named .rfull (argState 8380418 0) 0x4000 :=
  ⟨_, rfl, by decide +kernel, rfl, rfl, fun h => by
    rcases h with ⟨n, hn, -⟩ | ⟨h, -⟩
    · cases hn
    · cases h⟩

/-- Both clauses: a command that completes, and, where the draw does not fail, a UNIF that goes on. -/
theorem witness_OnlyUnifStaysRunning :
    (∃ t, exec .nop State.reset = .next t) ∧
    (Config.xofFails unifState.draws = false → ∃ t, exec (.unif 0)
      { unifState with engine := .running ⟨0x22, 0, 0⟩ (some ⟨[], 0, []⟩) false } = .next t ∧ t.busy = true) := by
  refine ⟨⟨_, rfl⟩, fun h => ⟨unifStep { unifState with engine := .running ⟨0x22, 0, 0⟩ (some ⟨[], 0, []⟩) false } 0 ⟨[], 0, []⟩, ?_, ?_⟩⟩
  · show unlessXofFails _ _ _ = _
    rw [unlessXofFails, show Config.xofFails _ = false from h]
    rfl
  · rcases unifStep_cases { unifState with engine := .running ⟨0x22, 0, 0⟩ (some ⟨[], 0, []⟩) false } 0 ⟨[], 0, []⟩ with
      ⟨-, h⟩ | ⟨h, -⟩
    · rw [h]; rfl
    · exfalso
      simp only [unifNext] at h
      split at h <;> simp at h

theorem witness_DfailOnlyFromRejection :
    ∃ t, exec (.upkchal 0) (funState rejectedChal 40) = .next t ∧ t.busy = false ∧ t.dfail = true := by
  have h : unpackChal Params.ref ((List.range 40).map rejectedChal) = none := by decide +kernel
  refine ⟨_, execUpkchal_runs (s := funState rejectedChal 40) (a := 0) rfl rfl (by decide +kernel) (by decide +kernel)
    (funState_read rejectedChal 40), ?_⟩
  rw [show (funState rejectedChal 40).params = Params.ref from rfl, h]
  exact ⟨rfl, rfl⟩

/-- FATAL before and not after: the reset input, and SRST. -/
theorem witness_FatalStaysUntilReset :
    (∃ t, step { hostState .hardReset with fatal := true } = .next t ∧ t.fatal = false) ∧
    (∃ t, step { hostState (wr 0x028 4) with fatal := true } = .next t ∧ t.fatal = false) ∧
    (Config.xofFails 0 = true → ∃ t, step { seedState with engine := .running ⟨0x20, 0, 0⟩ none false } = .next t ∧
      t.fatal = true) := by
  refine ⟨⟨_, rfl, rfl⟩, ⟨_, rfl, rfl⟩, fun h => ⟨failXof { seedState with engine := .running ⟨0x20, 0, 0⟩ none false } (samplerDests 0), ?_, rfl⟩⟩
  show cbd { seedState with engine := .running ⟨0x20, 0, 0⟩ none false } 2 0 = _
  rw [cbd, command_runs rfl rfl rfl (by decide)]
  show withRead (readSeed seedState.mem seedState.params) _ = _
  rw [seedState_read, withRead_some]
  exact if_pos h

/-! ### The port and the machine -/

/-- A sampler word and another one. -/
theorem witness_IssueLatchesCommand :
    (hostState (wr 0x020 0x722)).busy = false ∧
    HostDoes (hostState (wr 0x020 0x722)) (.wr .word 0x020 0x722) [] ∧
    HostDoes (hostState (wr 0x020 0x80000022)) (.wr .word 0x020 0x80000022) [] ∧
    HostDoes (hostState (wr 0x020 1)) (.wr .word 0x020 1) [] :=
  ⟨rfl, hostState_does _, hostState_does _, hostState_does _⟩

/-- The first and the last guarded word of every kind. -/
theorem witness_BusyWritesAreDropped :
    (∀ op, (busyState op).busy = true ∧ HostDoes (busyState op) op []) ∧
    Guarded Params.ref 0x020 ∧ Guarded Params.ref 0x034 ∧ Guarded Params.ref 0x080 ∧ Guarded Params.ref 0x09C ∧
    Guarded Params.ref 0x1000 ∧ Guarded Params.ref 0x1FFC ∧ Guarded Params.ref 0x4000 ∧ Guarded Params.ref 0x7FFC ∧
    ¬ Guarded Params.ref 0x0A0 ∧ ¬ Guarded Params.ref 0x2000 :=
  ⟨fun op => ⟨rfl, busyState_does op⟩, by
    unfold Guarded
    refine ⟨?_, ?_, ?_, ?_, ?_, ?_, ?_, ?_, ?_, ?_⟩ <;> decide +kernel⟩

/-- RegistersReadBack, ConfigRegistersReportRecord, StatusReadsItsFields: a read of any register, BUSY or not. -/
theorem witness_reads (off : BitVec 15) :
    HostDoes (hostState (.rd .word 0 off)) (.rd .word 0 off) [] ∧ (hostState (.rd .word 0 off)).busy = false ∧
    HostDoes (busyState (.rd .word 0 off)) (.rd .word 0 off) [] ∧
    (hostState (.rd .word 0 off)).chip = Chip.ref :=
  ⟨hostState_does _, rfl, busyState_does _, rfl⟩

/-- RegistersReadBack: a word of SEED, of BUF and of POLY that memory holds, BUSY or not, and a write of ARG0 and of ARG1
while IDLE. -/
theorem witness_RegistersReadBack (a : Nat) (v : Word) (op : HostOp) :
    let bs : List Byte := [v.extractLsb' 0 8, v.extractLsb' 8 8, v.extractLsb' 16 8, v.extractLsb' 24 8]
    let s : State := { busyState op with mem := writeBytes [] a bs }
    s.mem.wf ∧ HoldsWord s.mem a v ∧ s.busy = true ∧ HostDoes s op [] ∧
    MemoryOffset Params.ref 0x0080 ∧ MemoryOffset Params.ref 0x1FFC ∧ MemoryOffset Params.ref 0x7FFC ∧
    (hostState (.wr .word 0x030 v)).busy = false ∧ HostDoes (hostState (.wr .word 0x030 v)) (.wr .word 0x030 v) [] ∧
    HostDoes (hostState (.wr .word 0x034 v)) (.wr .word 0x034 v) [] := by
  refine ⟨writeBytes_wf List.Pairwise.nil _ _, fun j hj => ?_, rfl, busyState_does op, ?_, ?_, ?_, rfl, hostState_does _,
    hostState_does _⟩
  · show ∃ b, readByte (writeBytes [] a _) (a + j) = some b ∧ _
    rw [readByte_writeBytes]
    obtain rfl | rfl | rfl | rfl : j = 0 ∨ j = 1 ∨ j = 2 ∨ j = 3 := by omega
    all_goals simp [Nat.shiftRight_eq_div_pow]
  all_goals
    unfold MemoryOffset Mapped
    decide +kernel

/-- The ends of every reserved range that REF has; POLY reaches the end of the map. -/
theorem witness_ReservedAndReadOnlyIgnoreWrites :
    (∀ off v, HostDoes (hostState (.wr .word off v)) (.wr .word off v) []) ∧
    ReservedOffset Params.ref 0x0040 ∧ ReservedOffset Params.ref 0x007C ∧ ReservedOffset Params.ref 0x00A0 ∧
    ReservedOffset Params.ref 0x0FFC ∧ ReservedOffset Params.ref 0x2000 ∧ ReservedOffset Params.ref 0x3FFC ∧
    ¬ ReservedOffset Params.ref 0x003C ∧ ¬ ReservedOffset Params.ref 0x0080 ∧ ¬ ReservedOffset Params.ref 0x4000 ∧
    (0x01C : BitVec 15).toNat < 0x020 ∧ (0x01C : BitVec 15).toNat % 4 = 0 ∧ (0x038 : BitVec 15).toNat % 4 = 0 :=
  ⟨fun _ _ => hostState_does _, by
    unfold ReservedOffset
    refine ⟨?_, ?_, ?_, ?_, ?_, ?_, ?_, ?_, ?_, ?_, ?_, ?_⟩ <;> decide +kernel⟩

theorem witness_PartialAccessIsBusError :
    PartialAccess .word 0x023 ∧ PartialAccess .half 0x020 ∧ ¬ PartialAccess .word 0x7FFC ∧
    HostDoes (hostState (.wr .half 0x020 1)) (.wr .half 0x020 1) [] ∧
    HostDoes (hostState (.rd .word 0 0x023)) (.rd .word 0 0x023) [] :=
  ⟨.inr (by decide), .inl (by decide), fun h => h.elim (fun h => h rfl) (by decide), hostState_does _, hostState_does _⟩

/-- StatusWriteClearsOnes, CtrlWriteSetsEnableAndAbort, ResetsLeaveResetValues: BUSY or not. -/
theorem witness_status_and_control :
    HostDoes (hostState (wr 0x024 0x102)) (.wr .word 0x024 0x102) [] ∧
    HostDoes (busyState (wr 0x024 0x102)) (.wr .word 0x024 0x102) [] ∧
    HostDoes (busyState (wr 0x028 3)) (.wr .word 0x028 3) [] ∧ (3 : Word).getLsbD 2 = false ∧
    HostDoes (busyState (wr 0x028 7)) (.wr .word 0x028 7) [] ∧ (7 : Word).getLsbD 2 = true ∧
    HostDoes (busyState .hardReset) .hardReset [] :=
  ⟨hostState_does _, busyState_does _, busyState_does _, by decide, busyState_does _, by decide, busyState_does _⟩

/-- The first and the last word of every memory. -/
theorem witness_MemoryWordsReadBack :
    (∀ off v, (hostState (.wr .word off v)).busy = false ∧ (hostState (.wr .word off v)).mem.wf ∧
      HostDoes (hostState (.wr .word off v)) (.wr .word off v) []) ∧
    MemoryOffset Params.ref 0x0080 ∧ MemoryOffset Params.ref 0x009C ∧ MemoryOffset Params.ref 0x1000 ∧
    MemoryOffset Params.ref 0x1FFC ∧ MemoryOffset Params.ref 0x4000 ∧ MemoryOffset Params.ref 0x7FFC ∧
    ¬ MemoryOffset Params.ref 0x2000 :=
  ⟨fun _ _ => ⟨rfl, List.Pairwise.nil, hostState_does _⟩, by
    unfold MemoryOffset Mapped
    refine ⟨?_, ?_, ?_, ?_, ?_, ?_, ?_⟩ <;> decide +kernel⟩

/-- Reset memory, for a host read, BUSY or not. -/
theorem witness_UnwrittenReadsFault :
    HostDoes (hostState (.rd .word 0 0x7FFC)) (.rd .word 0 0x7FFC) [] ∧
    HostDoes (busyState (.rd .word 0 0x7FFC)) (.rd .word 0 0x7FFC) [] ∧
    readByte (hostState (.rd .word 0 0x7FFC)).mem (0x7FFC + 3) = none ∧
    readByte (busyState (.rd .word 0 0x7FFC)).mem (0x7FFC + 3) = none ∧ MemoryOffset Params.ref 0x7FFC :=
  ⟨hostState_does _, busyState_does _, rfl, rfl, by unfold MemoryOffset Mapped; decide +kernel⟩

theorem reset_inRange {i : Instr} (h1 : ∀ n, i ≠ .pkhint n ∧ i ≠ .upkhint n)
    (h2 : ∀ len, codecLen Params.ref i = some len → len ≤ 4096) : InRange i State.reset :=
  ⟨fun n _ => n.isLt, fun n h => h.elim (fun h => absurd h (h1 n).1) (fun h => absurd h (h1 n).2),
    fun len h => by show 0 + len ≤ 4096; have := h2 len h; omega⟩

/-- Reset memory, for a command of each kind: one source, the second of two, K of them, a window, SEED. -/
theorem witness_UnwrittenReadsFault_commands :
    Ready State.reset ∧ State.reset.mem.wf ∧ State.reset.loop = none ∧
    (InRange (.vdecomp 1 0 2) State.reset ∧ (Instr.vdecomp 1 0 2).wellFormed = true ∧
      ReadsUnwritten (.vdecomp 1 0 2) State.reset) ∧
    (InRange (.vmkhint 1 0 2) State.reset ∧ 2 ∈ sourceSlots Params.ref (.vmkhint 1 0 2) ∧
      readCoeff State.reset.mem 2 255 = none) ∧
    (InRange (.pkhint 11) State.reset ∧ 15 ∈ sourceSlots Params.ref (.pkhint 11) ∧
      readCoeff State.reset.mem 15 255 = none) ∧
    (InRange (.upkg1 0) State.reset ∧ ReadsUnwritten (.upkg1 0) State.reset) ∧
    (InRange (.upkhint 11) State.reset ∧ ReadsUnwritten (.upkhint 11) State.reset) ∧
    InRange (.cbd3 0) State.reset ∧ ReadsUnwritten (.cbd3 0) State.reset :=
  ⟨⟨rfl, rfl⟩, List.Pairwise.nil, rfl,
    ⟨reset_inRange (fun n => ⟨by simp, by simp⟩) (fun len h => by cases h), rfl, .inl ⟨0, by decide, 0, by decide, rfl⟩⟩,
    ⟨reset_inRange (fun n => ⟨by simp, by simp⟩) (fun len h => by cases h), by decide, rfl⟩,
    ⟨⟨fun n _ => n.isLt, fun n h => by (rcases h with h | h <;> cases h; decide), fun len h => by (cases h; decide)⟩,
      by decide, rfl⟩,
    ⟨reset_inRange (fun n => ⟨by simp, by simp⟩) (fun len h => by (cases h; decide)),
      .inr (.inl ⟨rfl, 640, 639, rfl, by decide, rfl⟩)⟩,
    ⟨⟨fun n _ => n.isLt, fun n h => by (rcases h with h | h <;> cases h; decide), fun len h => by (cases h; decide)⟩,
      .inr (.inl ⟨rfl, 101, 100, rfl, by decide, rfl⟩)⟩,
    reset_inRange (fun n => ⟨by simp, by simp⟩) (fun len h => by cases h), .inr (.inr ⟨rfl, 31, by decide, rfl⟩)⟩

theorem witness_InterruptFollowsDoneAndEnable :
    (∃ t, exec .nop { State.reset with ie := true } = .next t ∧ t.busy = false) ∧
    (∃ t, step (hostState (wr 0x020 0)) = .next t) ∧
    (∃ t, step { hostState (wr 0x024 2) with done := true, ie := true } = .next t) ∧ (2 : Word).getLsbD 1 = true ∧
    (∃ t, step { hostState (wr 0x028 1) with done := true } = .next t) ∧ (1 : Word).getLsbD 2 = false :=
  ⟨⟨_, rfl, rfl⟩, ⟨_, rfl⟩, ⟨_, rfl⟩, by decide, ⟨_, rfl⟩, by decide⟩

/-- StepKeepsInv and ChipNeverChanges. -/
theorem witness_StepKeepsInv : Inv (issued 1) ∧ ∃ t, step (issued 1) = .next t ∧ t.done = true :=
  ⟨issued_inv 1, _, rfl, rfl⟩

theorem witness_NoStepRefuses : step (hostState (.wr .byte 0x020 1)) = .fault .busError := rfl

end Sys2Proof.Tests
end

