-- ==== Sys2Proof/Proofs/Scope.lean ====
section
/-! SUPPORT. 00_scope.md: what every step answers. An engine step gives a next state or stops at an unwritten location;
a host step may also stop with a bus error; no step changes the chip. -/

namespace Sys2Proof.Machine

variable {s t : State}

/-! ## What an engine step answers -/

/-- The outcome is a next state that satisfies `P`, or the stop at an unwritten location (10_state.md R36): no refusal,
no bus error. -/
def Answers (P : State → Prop) : Host.Outcome State Fault Refusal → Prop
  | .next t => P t
  | .fault r => r = .readUnwritten
  | .refused _ => False

theorem Answers.of_next {P : State → Prop} {o : Host.Outcome State Fault Refusal} (h : Answers P o) (ho : o = .next t) :
    P t := by
  subst ho; exact h

theorem Answers.ne_refused {P : State → Prop} {o : Host.Outcome State Fault Refusal} (h : Answers P o) (r : Refusal) :
    o ≠ .refused r := by
  rintro rfl; exact h

theorem Answers.ne_busError {P : State → Prop} {o : Host.Outcome State Fault Refusal} (h : Answers P o) :
    o ≠ .fault .busError := by
  rintro rfl; cases h

/-- The first step of a command answers as its three ends do: a failed check, a pending abort, its body. -/
theorem answers_command {P : State → Prop} {legal inRange : Bool} {ds : List Dest}
    {body : Host.Outcome State Fault Refusal} (herr : ∀ e, P (complete s e false)) (habort : P (abortWith s ds))
    (hbody : Answers P body) : Answers P (command s legal inRange ds body) := by
  rcases command_cases s legal inRange ds body with ⟨e, -, h⟩ | ⟨-, -, h⟩ | ⟨-, -, h⟩ <;> rw [h]
  · exact herr e
  · exact habort
  · exact hbody

theorem answers_withRead {P : State → Prop} {α : Type} {r : Option α} {k : α → Host.Outcome State Fault Refusal}
    (h : ∀ v, Answers P (k v)) : Answers P (withRead r k) := by
  cases r with
  | none => rfl
  | some v => exact h v

theorem answers_unlessXofFails {P : State → Prop} {ds : List Dest} {body : Host.Outcome State Fault Refusal}
    (hfail : P (failXof s ds)) (hbody : Answers P body) : Answers P (unlessXofFails s ds body) := by
  unfold unlessXofFails
  split
  · exact hfail
  · exact hbody

/-! ## Commands keep the chip -/

/-- The outcome, of a step from `s`, is the stop at an unwritten location or a next state with the chip of `s`. -/
abbrev KeepsChip (s : State) : Host.Outcome State Fault Refusal → Prop := Answers fun t => t.chip = s.chip

theorem keepsChip_command {legal inRange : Bool} {ds : List Dest} {body : Host.Outcome State Fault Refusal}
    (h : KeepsChip s body) : KeepsChip s (command s legal inRange ds body) :=
  answers_command (fun _ => rfl) (anyAll_chip s ds) h

theorem keepsChip_unlessXofFails {ds : List Dest} {body : Host.Outcome State Fault Refusal} (h : KeepsChip s body) :
    KeepsChip s (unlessXofFails s ds body) :=
  answers_unlessXofFails (anyAll_chip s ds) h

theorem keepsChip_polyUnary (a b : Slot) (f : Nat → Word → Word) : KeepsChip s (polyUnary s a b f) :=
  keepsChip_command (answers_withRead fun _ => rfl)

theorem keepsChip_polyBinary (a b c : Slot) (f : Nat → Word → Word → Word) : KeepsChip s (polyBinary s a b c f) :=
  keepsChip_command (answers_withRead fun _ => answers_withRead fun _ => rfl)

theorem keepsChip_polySplit (a b c : Slot) (lo hi : Nat → Word → Word) : KeepsChip s (polySplit s a b c lo hi) :=
  keepsChip_command (answers_withRead fun _ => rfl)

theorem keepsChip_packSlot (b : Slot) (len : Nat) (enc : List Word → List Byte) : KeepsChip s (packSlot s b len enc) :=
  keepsChip_command (answers_withRead fun _ => rfl)

theorem keepsChip_unpackSlot (a : Slot) (len : Nat) (dec : List Byte → List Word) :
    KeepsChip s (unpackSlot s a len dec) :=
  keepsChip_command (answers_withRead fun _ => rfl)

theorem keepsChip_cbd (eta : Nat) (a : Slot) : KeepsChip s (cbd s eta a) :=
  keepsChip_command (answers_withRead fun _ => keepsChip_unlessXofFails rfl)

@[simp] theorem deliver_chip (s : State) (n count : Nat) (r : Option (List Word)) :
    (deliver s n count r).chip = s.chip := by
  cases r <;> rfl

@[simp] theorem unifStep_chip (s : State) (a : Slot) (l : UnifLoop) : (unifStep s a l).chip = s.chip := by
  rcases unifStep_cases s a l with ⟨-, h⟩ | ⟨-, h⟩ <;> rw [h]
  · exact schedule_chip _
  · rfl

/-- UNIF, on its first step and on a later one. -/
theorem keepsChip_execUnif (a : Slot) : KeepsChip s (execUnif a s) := by
  unfold execUnif
  split
  · exact keepsChip_command (answers_withRead fun _ => keepsChip_unlessXofFails (unifStep_chip s a _))
  · split
    · exact anyAll_chip s _
    · exact keepsChip_unlessXofFails (unifStep_chip s a _)

/-- Every command keeps the chip, and stops only at an unwritten location. -/
theorem keepsChip_exec (i : Instr) (s : State) : KeepsChip s (exec i s) := by
  cases i with
  | nop | rfull | rpart | p2r | decomp | mkhint | usehint => exact keepsChip_command rfl
  | vrfull a b | vrpart a b => exact keepsChip_polyUnary a b _
  | vp2r a b c | vdecomp a b c => exact keepsChip_polySplit a b c _ _
  | vmkhint a b c | vusehint a b c => exact keepsChip_polyBinary a b c _
  | cbd2 a | cbd3 a => exact keepsChip_cbd _ a
  | unif a => exact keepsChip_execUnif a
  | pkt1 b | pkt0 b | pketa b | pkg1 b | pkchal b => exact keepsChip_packSlot b _ _
  | upkt1 a | upkt0 a | upketa a | upkg1 a => exact keepsChip_unpackSlot a _ _
  | pkhint b => exact keepsChip_command (answers_withRead fun _ => rfl)
  | upkhint a | upkchal a => exact keepsChip_command (answers_withRead fun _ => deliver_chip s _ _ _)

theorem keepsChip_engineStep (s : State) : KeepsChip s (engineStep s) := by
  unfold engineStep
  split
  · exact keepsChip_exec _ s
  · rfl

/-! ## Host steps keep the chip -/

@[simp] theorem writeCtrl_chip (s : State) (v : Word) : (writeCtrl s v).chip = s.chip := by
  unfold writeCtrl
  split <;> rfl

@[simp] theorem portWrite_chip (s : State) (off : BitVec 15) (v : Word) : (portWrite s off v).chip = s.chip := by
  rcases portWrite_cases s off v with h | ⟨-, h⟩ | ⟨-, -, h⟩ | ⟨-, h⟩ | ⟨-, h⟩ | ⟨-, -, h⟩ | ⟨-, -, h⟩ | ⟨-, -, h⟩ <;>
    rw [h]
  case inr.inr.inl => exact schedule_chip s
  case inr.inr.inr.inr.inl => exact writeCtrl_chip s v
  all_goals rfl

theorem hostStep_chip {op : HostOp} (h : hostStep s op = .next t) : t.chip = s.chip := by
  rcases hostStep_next h with ⟨_, off, v, -, -, rfl⟩ | ⟨_, _, rfl, -⟩ | ⟨-, _, rfl⟩ | ⟨-, rfl⟩
  · exact portWrite_chip s off v
  all_goals rfl

/-! ## How a host step stops -/

theorem wholeWord_eq_false_iff {size : AccessSize} {off : BitVec 15} :
    wholeWord size off = false ↔ Claims.PartialAccess size off := by
  refine ⟨fun h => ?_, wholeWord_eq_false⟩
  simpa [wholeWord, Claims.PartialAccess, imp_iff_not_or] using h

theorem hostRead_ne_refused (s : State) (size : AccessSize) (r : Nat) (off : BitVec 15) (e : Refusal) :
    hostRead s size r off ≠ .refused e := by
  unfold hostRead
  split
  · split <;> nofun
  · nofun

/-- A read answers a bus error only where it is not carried out (20_memory.md R48). -/
theorem hostRead_busError {size : AccessSize} {r : Nat} {off : BitVec 15}
    (h : hostRead s size r off = .fault .busError) : Claims.PartialAccess size off := by
  refine wholeWord_eq_false_iff.1 (Bool.eq_false_iff.2 fun hw => ?_)
  rw [hostRead, if_pos hw] at h
  split at h <;> cases h

theorem hostStep_ne_refused (s : State) (op : HostOp) (e : Refusal) : hostStep s op ≠ .refused e := by
  cases op with
  | wr size off v => rw [hostStep]; split <;> nofun
  | rd size r off => exact hostRead_ne_refused s size r off e
  | wait r => exact hostRead_ne_refused _ .word r statusOff e
  | waitIrq | hardReset => nofun

/-- A host step answers a bus error only for a read or write that is not carried out; a wait reads STATUS whole. -/
theorem hostStep_busError {op : HostOp} (h : hostStep s op = .fault .busError) :
    ∃ size off, Claims.PartialAccess size off ∧ ((∃ v, op = .wr size off v) ∨ ∃ r, op = .rd size r off) := by
  cases op with
  | wr size off v =>
    refine ⟨size, off, wholeWord_eq_false_iff.1 (Bool.eq_false_iff.2 fun hw => ?_), .inl ⟨v, rfl⟩⟩
    rw [hostStep, if_pos hw] at h
    cases h
  | rd size r off => exact ⟨size, off, hostRead_busError h, .inr ⟨r, rfl⟩⟩
  | wait r => exact absurd (wholeWord_eq_false_iff.2 (hostRead_busError h)) (by decide)
  | waitIrq | hardReset => cases h

end Sys2Proof.Machine

namespace Sys2Proof.Proofs

open Sys2Proof.Machine Sys2Proof.Claims

/-- Settles O59: an engine step keeps the chip command by command, a host step write by write. -/
theorem chipNeverChanges : Obligations.ChipNeverChanges := by
  intro s t h
  rcases step_next h with ⟨-, h⟩ | ⟨op, rest, -, h⟩ | ⟨-, rfl⟩
  · exact (keepsChip_engineStep s).of_next h
  · exact (hostStep_chip h).trans rfl
  · rfl

/-- Settles O60, by whose turn it is: the engine answers next or stops at an unwritten location, and only the host
makes a partial access. -/
theorem noStepRefuses : Obligations.NoStepRefuses := by
  intro s
  cases ht : turn s with
  | engine =>
    rw [step_of_engine_turn ht]
    exact ⟨(keepsChip_engineStep s).ne_refused, fun h => absurd h (keepsChip_engineStep s).ne_busError⟩
  | host op rest =>
    rw [step_of_host_turn ht]
    exact ⟨hostStep_ne_refused _ op, fun h => ⟨op, rest, turn_eq_host_iff.1 ht, hostStep_busError h⟩⟩
  | nobody =>
    rw [step_of_nobody ht]
    exact ⟨nofun, nofun⟩

end Sys2Proof.Proofs
end

