-- ==== Sys2Proof/Proofs/State.lean ====
section
/-! SUPPORT. 10_state.md: what each step leaves of the state. One lemma says how every command can end and what it may
write (`ends_exec`); the invariant, the destinations and DFAIL follow from it. After it, the port's reads and writes. -/

namespace Sys2Proof.Machine

variable {s t u : State} {i : Instr}

/-! ## Destinations (60_exceptions.md R124) -/

/-- The destinations a command's rule names, as the list its abort fills. -/
def namedDests (s : State) (i : Instr) : List Dest :=
  (if namesRes0 i then [.res0] else []) ++ (if namesRes1 i then [.res1] else []) ++
  (destSlots s.params i).map .slot ++ (if namesXcnt i then [.xcnt] else []) ++
  (if isPack i then (codecLen s.params i).toList.map (.window s.off) else [])

theorem res0_mem_namedDests : .res0 ∈ namedDests s i ↔ namesRes0 i = true := by simp [namedDests]

theorem res1_mem_namedDests : .res1 ∈ namedDests s i ↔ namesRes1 i = true := by simp [namedDests]

theorem xcnt_mem_namedDests : .xcnt ∈ namedDests s i ↔ namesXcnt i = true := by simp [namedDests]

theorem slot_mem_namedDests {n : Nat} : .slot n ∈ namedDests s i ↔ n ∈ destSlots s.params i := by simp [namedDests]

theorem window_mem_namedDests {a len : Nat} :
    .window a len ∈ namedDests s i ↔ isPack i = true ∧ codecLen s.params i = some len ∧ s.off = a := by
  simp [namedDests]

/-- A byte that a named destination covers is one the command names (20_memory.md R49). -/
theorem named_of_covers {d : Dest} {x : Nat} (hd : d ∈ namedDests s i) (hx : d.covers x) : Named i s x := by
  cases d with
  | res0 | res1 | xcnt => exact hx.elim
  | slot n => exact .inl ⟨n, slot_mem_namedDests.1 hd, hx⟩
  | window a len =>
    obtain ⟨hp, hl, rfl⟩ := window_mem_namedDests.1 hd
    exact .inr ⟨hp, len, hl, hx⟩

/-- The destination exists on the chip (30_encoding.md R61). -/
def Dest.Fits (p : Params) : Dest → Prop
  | .slot n => n < p.npoly
  | .window addr len => addr + len ≤ p.bufBytes
  | .res0 | .res1 | .xcnt => True

/-- Every byte of a destination that exists is a byte of the chip's memories. -/
theorem Dest.Fits.mapped {p : Params} {d : Dest} {x : Nat} (h : d.Fits p) (hx : d.covers x) : Mapped p x := by
  unfold Mapped
  cases d with
  | res0 | res1 | xcnt => exact hx.elim
  | slot n => simp only [Dest.Fits, Dest.covers, coeffAddr, ringDegree] at h hx; omega
  | window a len => simp only [Dest.Fits, Dest.covers, bufBase] at h hx; omega

/-! ## Writing destinations -/

/-- `u` is `s` with the destinations `ds` written, and nothing else that a command may not touch. -/
structure WritesOnly (ds : List Dest) (s u : State) : Prop where
  kept      : Kept s u
  res0      : .res0 ∉ ds → u.res0 = s.res0
  res1      : .res1 ∉ ds → u.res1 = s.res1
  xcnt      : .xcnt ∉ ds → u.xcnt = s.xcnt
  canonical : s.mem.wf → u.mem.wf
  bytes     : ∀ x, (∀ d ∈ ds, ¬ d.covers x) → readByte u.mem x = readByte s.mem x

theorem Kept.refl (s : State) : Kept s s := ⟨rfl, rfl, rfl, rfl, rfl, rfl, rfl, rfl, rfl, rfl⟩

theorem Kept.trans (h : Kept s t) (h' : Kept t u) : Kept s u := by
  obtain ⟨h1, h2, h3, h4, h5, h6, h7, h8, h9, h10⟩ := h
  obtain ⟨k1, k2, k3, k4, k5, k6, k7, k8, k9, k10⟩ := h'
  exact ⟨k1.trans h1, k2.trans h2, k3.trans h3, k4.trans h4, k5.trans h5, k6.trans h6, k7.trans h7, k8.trans h8,
    k9.trans h9, k10.trans h10⟩

theorem WritesOnly.refl (s : State) : WritesOnly [] s s :=
  ⟨Kept.refl s, fun _ => rfl, fun _ => rfl, fun _ => rfl, id, fun _ _ => rfl⟩

/-- One write after another writes the destinations of both. -/
theorem WritesOnly.trans {ds es : List Dest} (h : WritesOnly ds s t) (h' : WritesOnly es t u) :
    WritesOnly (ds ++ es) s u where
  kept := h.kept.trans h'.kept
  res0 hn := (h'.res0 fun hm => hn (by simp [hm])).trans (h.res0 fun hm => hn (by simp [hm]))
  res1 hn := (h'.res1 fun hm => hn (by simp [hm])).trans (h.res1 fun hm => hn (by simp [hm]))
  xcnt hn := (h'.xcnt fun hm => hn (by simp [hm])).trans (h.xcnt fun hm => hn (by simp [hm]))
  canonical hm := h'.canonical (h.canonical hm)
  bytes x hx := (h'.bytes x fun d hd => hx d (by simp [hd])).trans (h.bytes x fun d hd => hx d (by simp [hd]))

theorem writesOnly_res0 (s : State) (v : Word) : WritesOnly [.res0] s { s with res0 := v } :=
  ⟨Kept.refl s, fun h => absurd (by simp) h, fun _ => rfl, fun _ => rfl, id, fun _ _ => rfl⟩

theorem writesOnly_res1 (s : State) (v : Word) : WritesOnly [.res1] s { s with res1 := v } :=
  ⟨Kept.refl s, fun _ => rfl, fun h => absurd (by simp) h, fun _ => rfl, id, fun _ _ => rfl⟩

theorem writesOnly_xcnt (s : State) (v : Word) : WritesOnly [.xcnt] s { s with xcnt := v } :=
  ⟨Kept.refl s, fun _ => rfl, fun _ => rfl, fun h => absurd (by simp) h, id, fun _ _ => rfl⟩

theorem writesOnly_results (s : State) (v w : Word) : WritesOnly [.res0, .res1] s { s with res0 := v, res1 := w } :=
  (writesOnly_res0 s v).trans (writesOnly_res1 { s with res0 := v } w)

/-- Writing a byte string whose every byte a destination covers. -/
theorem writesOnly_writeBytes {ds : List Dest} {a : Nat} {bs : List Byte}
    (h : ∀ x, a ≤ x → x < a + bs.length → ∃ d ∈ ds, d.covers x) :
    WritesOnly ds s { s with mem := writeBytes s.mem a bs } where
  kept := Kept.refl s
  res0 _ := rfl
  res1 _ := rfl
  xcnt _ := rfl
  canonical hm := writeBytes_wf hm a bs
  bytes x hx := by
    refine readByte_writeBytes_outside _ _ _ _ (not_and_or.1 (fun hin => ?_) |>.imp Nat.not_le.1 Nat.not_lt.1)
    obtain ⟨d, hd, hc⟩ := h x hin.1 hin.2
    exact hx d hd hc

theorem writesOnly_slot (n : Nat) {cs : List Word} (h : cs.length = ringDegree) :
    WritesOnly [.slot n] s { s with mem := writeCoeffs s.mem n cs } :=
  writesOnly_writeBytes fun x hlo hhi =>
    ⟨_, List.mem_singleton_self _, hlo, by rwa [flatMap_bytesOfWord_length, h] at hhi⟩

theorem writesOnly_window (a : Nat) {len : Nat} {bs : List Byte} (h : bs.length = len) :
    WritesOnly [.window a len] s { s with mem := memWrite s.mem a bs } :=
  writesOnly_writeBytes fun x hlo hhi => ⟨_, List.mem_singleton_self _, hlo, by rwa [h] at hhi⟩

/-- A VecK fills its K slots: byte x of it lies in slot number (x − 0x4000) / 1024. -/
theorem writesOnly_slots (n k : Nat) {cs : List Word} (h : cs.length = k * ringDegree) :
    WritesOnly ((List.range k).map fun j => .slot (n + j)) s { s with mem := writeCoeffs s.mem n cs } :=
  writesOnly_writeBytes fun x hlo hhi => by
    rw [flatMap_bytesOfWord_length, h] at hhi
    simp only [coeffAddr, ringDegree] at hlo hhi
    refine ⟨_, List.mem_map_of_mem (List.mem_range.2 (show (x - 0x4000) / 1024 - n < k by omega)), ?_⟩
    simp only [Dest.covers, coeffAddr, ringDegree]
    omega

theorem writesOnly_anyInto (s : State) (d : Dest) : WritesOnly [d] s (anyInto s d) := by
  cases d with
  | res0 => exact writesOnly_res0 s _
  | res1 => exact writesOnly_res1 s _
  | xcnt => exact writesOnly_xcnt s _
  | slot n => exact writesOnly_slot n (anySlot_length _ _)
  | window a len => exact writesOnly_window a (anyWindow_length _ _ _)

theorem writesOnly_anyAll (s : State) (ds : List Dest) : WritesOnly ds s (anyAll s ds) := by
  induction ds generalizing s with
  | nil => exact WritesOnly.refl s
  | cons d ds ih => exact (writesOnly_anyInto s d).trans (ih (anyInto s d))

/-! ## How a command's step can end -/

/-- `u` is `s` with the command's destinations written; on its first step they exist (30_encoding.md R61). -/
structure WritesNamed (i : Instr) (s u : State) : Prop where
  fits   : s.loop = none → ∀ d ∈ namedDests s i, d.Fits s.params
  writes : WritesOnly (namedDests s i) s u

/-- What a step of a command that answers next leaves (60_exceptions.md R121 to R128). -/
inductive Ends (i : Instr) (s : State) : State → Prop
  /-- A failed check, R125 (1) to (3). -/
  | refused {e : ErrCode} (he : (e = .fatal ∧ s.fatal = true) ∨ e = .illegal ∨ e = .range) :
      Ends i s (complete s e false)
  /-- A pending abort, R128. -/
  | aborted {u : State} (h : WritesNamed i s u) : Ends i s (complete u .aborted false)
  /-- A sampler's failed stream, R127. -/
  | xofFailed {u : State} (h : WritesNamed i s u) : Ends i s (complete { u with fatal := true } .xofFail false)
  | executed {u : State} (h : WritesNamed i s u) : Ends i s (complete u .ok false)
  /-- A decode rejection, R126. -/
  | rejected {u : State} {a : Slot} (hi : i = .upkhint a ∨ i = .upkchal a) (h : WritesNamed i s u) :
      Ends i s (complete u .ok true)
  /-- A UNIF with values still to accept, from its loop state or, on its first step, from an empty one (R121). -/
  | continues {a : Slot} {l : UnifLoop} (hi : i = .unif a)
      (hl : s.loop = some l ∨ (LoopOk s.params l ∧ s.fatal = false ∧ a.toNat < s.params.npoly))
      (hn : (unifNext s.params l).accepted.length < ringDegree) :
      Ends i s (schedule { s with
        engine := .running s.latched (some (unifNext s.params l)) false, draws := s.draws + 1 })

theorem firstError_refuses {legal inRange : Bool} {e : ErrCode} (h : firstError s legal inRange = some e) :
    (e = .fatal ∧ s.fatal = true) ∨ e = .illegal ∨ e = .range := by
  rcases firstError_code h with rfl | h
  · refine .inl ⟨rfl, ?_⟩
    by_contra hf
    unfold firstError at h
    rw [if_neg hf] at h
    cases legal <;> cases inRange <;> cases h
  · exact .inr h

theorem answers_withRead_of_some {P : State → Prop} {α : Type} {r : Option α}
    {k : α → Host.Outcome State Fault Refusal} (h : ∀ v, r = some v → Answers P (k v)) : Answers P (withRead r k) := by
  cases r with
  | none => rfl
  | some v => exact h v rfl

/-- A command with the destinations `ds`, which exist where it is in range, ends well if its body does. -/
theorem ends_command {legal inRange : Bool} {ds : List Dest} {body : Host.Outcome State Fault Refusal}
    (hd : namedDests s i = ds) (hfit : inRange = true → ∀ d ∈ ds, d.Fits s.params)
    (hbody : s.fatal = false → (∀ d ∈ namedDests s i, d.Fits s.params) → Answers (Ends i s) body) :
    Answers (Ends i s) (command s legal inRange ds body) := by
  subst hd
  rcases command_cases s legal inRange (namedDests s i) body with ⟨e, he, h⟩ | ⟨he, -, h⟩ | ⟨he, -, h⟩ <;> rw [h]
  · exact Ends.refused (firstError_refuses he)
  all_goals obtain ⟨hf, -, hr⟩ := firstError_eq_none_iff.1 he
  · exact Ends.aborted ⟨fun _ => hfit hr, writesOnly_anyAll s _⟩
  · exact hbody hf (hfit hr)

/-! ### Scalar and poly-wise commands -/

theorem ends_scalar {ds : List Dest} (hd : namedDests s i = ds) (hfit : ∀ d ∈ ds, d.Fits s.params)
    (hu : WritesOnly ds s u) : Answers (Ends i s) (command s true true ds (.next (succeed u))) :=
  ends_command hd (fun _ => hfit) fun _ hf => Ends.executed ⟨fun _ => hf, hd ▸ hu⟩

theorem ends_polyUnary {a b : Slot} {f : Nat → Word → Word} (hd : namedDests s i = [.slot a.toNat]) :
    Answers (Ends i s) (polyUnary s a b f) :=
  ends_command hd (by simp +contextual [slotInRange, Dest.Fits]) fun _ hf =>
    answers_withRead_of_some fun _ hc =>
      Ends.executed ⟨fun _ => hf, hd ▸ writesOnly_slot _ (by simp [readSlot_length hc])⟩

theorem ends_polyBinary {a b c : Slot} {f : Nat → Word → Word → Word} (hd : namedDests s i = [.slot a.toNat]) :
    Answers (Ends i s) (polyBinary s a b c f) :=
  ends_command hd (by simp +contextual [slotInRange, Dest.Fits]) fun _ hf =>
    answers_withRead_of_some fun _ hb => answers_withRead_of_some fun _ hc =>
      have hl := lanes2_length ((readSlot_length hb).trans (readSlot_length hc).symm)
      Ends.executed ⟨fun _ => hf, hd ▸ writesOnly_slot _ (hl.trans (readSlot_length hc))⟩

theorem ends_polySplit {a b c : Slot} {lo hi : Nat → Word → Word}
    (hd : namedDests s i = [.slot a.toNat, .slot c.toNat]) : Answers (Ends i s) (polySplit s a b c lo hi) :=
  ends_command hd (by simp +contextual [slotInRange, Dest.Fits]) fun _ hf =>
    answers_withRead_of_some fun _ hc =>
      have hlo := writesOnly_slot (s := s) a.toNat (cs := lanes lo _) (by simp [readSlot_length hc])
      Ends.executed ⟨fun _ => hf, hd ▸ hlo.trans (writesOnly_slot c.toNat (by simp [readSlot_length hc]))⟩

/-! ### Codec commands -/

theorem ends_packSlot {b : Slot} {len : Nat} {enc : List Word → List Byte} (hd : namedDests s i = [.window s.off len])
    (henc : ∀ cs, (enc cs).length = len) : Answers (Ends i s) (packSlot s b len enc) :=
  ends_command hd (by simp +contextual [windowInRange, Dest.Fits]) fun _ hf =>
    answers_withRead fun cs => Ends.executed ⟨fun _ => hf, hd ▸ writesOnly_window _ (henc cs)⟩

theorem ends_unpackSlot {a : Slot} {len : Nat} {dec : List Byte → List Word} (hd : namedDests s i = [.slot a.toNat])
    (hdec : ∀ w, (dec w).length = ringDegree) : Answers (Ends i s) (unpackSlot s a len dec) :=
  ends_command hd (by simp +contextual [slotInRange, Dest.Fits]) fun _ hf =>
    answers_withRead fun w => Ends.executed ⟨fun _ => hf, hd ▸ writesOnly_slot _ (hdec w)⟩

/-- An unpack that may reject its window ends accepted or rejected, its slots written either way. -/
theorem ends_deliver {a : Slot} {n count : Nat} {r : Option (List Word)} (hi : i = .upkhint a ∨ i = .upkchal a)
    (hw : ∀ cs : List Word, cs.length = count → WritesNamed i s { s with mem := writeCoeffs s.mem n cs })
    (hr : ∀ cs, r = some cs → cs.length = count) : Ends i s (deliver s n count r) := by
  rcases deliver_cases s n count r with ⟨cs, hc, h⟩ | ⟨-, h⟩ <;> rw [h]
  · exact .executed (hw cs (hr cs hc))
  · exact .rejected hi (hw _ List.length_replicate)

/-- LEN of R102 as the statements write it. -/
theorem denseLen_eq (w : Nat) : denseLen w = 32 * w := by
  simp only [denseLen, ringDegree]
  omega

theorem namedDests_pketa (b : Slot) (s : State) :
    namedDests s (.pketa b) = [.window s.off (denseLen s.params.detaBits)] := by
  rw [denseLen_eq]
  rfl

theorem ends_execPkhint (b : Slot) (s : State) : Answers (Ends (.pkhint b) s) (execPkhint b s) := by
  refine ends_command rfl (by simp +contextual [windowInRange, Dest.Fits]) fun _ hf =>
    answers_withRead_of_some fun hs hr => Ends.executed ⟨fun _ => hf, writesOnly_window _ ?_⟩
  split
  · next hv => exact packHint_length hv (readSlots_length hr).1
  · exact anyWindow_length _ _ _

theorem namedDests_upkhint (a : Slot) (s : State) :
    namedDests s (.upkhint a) = (List.range s.params.k).map fun j => .slot (a.toNat + j) := by
  simp [namedDests, namesRes0, namesRes1, namesXcnt, isPack, destSlots]

theorem flatten_length {n : Nat} {hs : List (List Word)} (h : ∀ x ∈ hs, x.length = n) :
    hs.flatten.length = hs.length * n := by
  rw [List.length_flatten, List.map_congr_left h, List.map_const', List.sum_replicate, smul_eq_mul]

theorem ends_execUpkhint (a : Slot) (s : State) : Answers (Ends (.upkhint a) s) (execUpkhint a s) := by
  have hd := namedDests_upkhint a s
  refine ends_command hd (fun hr => ?_) fun _ hf => answers_withRead_of_some fun w hw =>
    ends_deliver (.inl rfl) (fun cs hc => ⟨fun _ => hf, hd ▸ writesOnly_slots _ _ hc⟩) fun cs hc => ?_
  · simp only [vecInRange, Bool.and_eq_true, decide_eq_true_eq] at hr
    simp only [List.mem_map, List.mem_range]
    rintro _ ⟨j, hj, rfl⟩
    exact show a.toNat + j < s.params.npoly by omega
  · obtain ⟨hs, hu, rfl⟩ := Option.map_eq_some_iff.1 hc
    have hl := unpackHint_length (readBytes_length hw) hu
    rw [flatten_length hl.2, hl.1]

theorem ends_execUpkchal (a : Slot) (s : State) : Answers (Ends (.upkchal a) s) (execUpkchal a s) :=
  ends_command rfl (by simp +contextual [slotInRange, Dest.Fits]) fun _ hf => answers_withRead fun _ =>
    ends_deliver (.inr rfl) (fun _ hc => ⟨fun _ => hf, writesOnly_slot _ hc⟩) fun _ => unpackChal_length

theorem ends_execPkchal (b : Slot) (s : State) : Answers (Ends (.pkchal b) s) (execPkchal b s) :=
  ends_packSlot rfl fun cs => by split <;> simp

/-! ### Samplers -/

theorem ends_unlessXofFails {ds : List Dest} {body : Host.Outcome State Fault Refusal} (hd : namedDests s i = ds)
    (hfit : s.loop = none → ∀ d ∈ namedDests s i, d.Fits s.params) (hbody : Answers (Ends i s) body) :
    Answers (Ends i s) (unlessXofFails s ds body) :=
  answers_unlessXofFails (Ends.xofFailed ⟨hfit, hd ▸ writesOnly_anyAll s ds⟩) hbody

/-- A sampler's slot and XCNT. -/
theorem writesOnly_sampler (a : Slot) {cs : List Word} (h : cs.length = ringDegree) (x : Word) :
    WritesOnly (samplerDests a) s { s with mem := writeCoeffs s.mem a.toNat cs, xcnt := x } :=
  (writesOnly_slot a.toNat h).trans (writesOnly_xcnt _ x)

theorem samplerDests_fit {a : Slot} (h : slotInRange s.params a.toNat = true) :
    ∀ d ∈ samplerDests a, d.Fits s.params := by
  simpa [samplerDests, slotInRange, Dest.Fits] using h

theorem ends_cbd {eta : Nat} {a : Slot} (hd : namedDests s i = samplerDests a) : Answers (Ends i s) (cbd s eta a) :=
  ends_command hd samplerDests_fit fun _ hf => answers_withRead fun _ =>
    ends_unlessXofFails hd (fun _ => hf)
      (Ends.executed ⟨fun _ => hf, hd ▸ writesOnly_sampler a (cbdCoeffs_length _ _ _) _⟩)

/-- One chunk of UNIF. -/
theorem ends_unifStep (a : Slot) {l : UnifLoop} (hfit : s.loop = none → ∀ d ∈ samplerDests a, d.Fits s.params)
    (hl : s.loop = some l ∨ (LoopOk s.params l ∧ s.fatal = false ∧ a.toNat < s.params.npoly)) :
    Ends (.unif a) s (unifStep s a l) := by
  rcases unifStep_cases s a l with ⟨hn, h⟩ | ⟨-, h⟩ <;> rw [h]
  · exact .continues rfl hl hn
  · exact .executed ⟨hfit, writesOnly_sampler a (tangled_length _ _) _⟩

/-- UNIF, on its first step and on a later one. -/
theorem ends_execUnif (a : Slot) (s : State) : Answers (Ends (.unif a) s) (execUnif a s) := by
  unfold execUnif
  split
  · refine ends_command rfl samplerDests_fit fun hfatal hf => answers_withRead fun seed =>
      ends_unlessXofFails rfl (fun _ => hf) (ends_unifStep a (fun _ => hf) (.inr ⟨?_, hfatal, ?_⟩))
    · exact ⟨Nat.succ_pos 255, Nat.le_refl 0, nofun⟩
    · exact hf (.slot a.toNat) (by simp [slot_mem_namedDests, destSlots])
  · next l hl =>
    have hfit : s.loop = none → ∀ d ∈ samplerDests a, d.Fits s.params := fun h => absurd (h.symm.trans hl) nofun
    split
    · exact Ends.aborted ⟨hfit, writesOnly_anyAll s (samplerDests a)⟩
    · exact ends_unlessXofFails rfl hfit (ends_unifStep a hfit (.inl hl))

/-! ### Every command -/

/-- A command's step stops at an unwritten location or ends in one of the ways of `Ends`. -/
theorem ends_exec (i : Instr) (s : State) : Answers (Ends i s) (exec i s) := by
  cases i with
  | nop => exact ends_scalar rfl nofun (WritesOnly.refl s)
  | rfull | rpart | mkhint | usehint => exact ends_scalar rfl (by simp [Dest.Fits]) (writesOnly_res0 s _)
  | p2r | decomp => exact ends_scalar rfl (by simp [Dest.Fits]) (writesOnly_results s _ _)
  | vrfull a b | vrpart a b => exact ends_polyUnary rfl
  | vp2r a b c | vdecomp a b c => exact ends_polySplit rfl
  | vmkhint a b c | vusehint a b c => exact ends_polyBinary rfl
  | cbd2 a | cbd3 a => exact ends_cbd rfl
  | unif a => exact ends_execUnif a s
  | pkt1 b | pkt0 b | pkg1 b => exact ends_packSlot rfl (densePack_length _ _ _)
  | pketa b => exact ends_packSlot (namedDests_pketa b s) (densePack_length _ _ _)
  | upkt1 a | upkt0 a | upketa a | upkg1 a => exact ends_unpackSlot rfl (denseUnpack_length _ _)
  | pkhint b => exact ends_execPkhint b s
  | upkhint a => exact ends_execUpkhint a s
  | pkchal b => exact ends_execPkchal b s
  | upkchal a => exact ends_execUpkchal a s

theorem ends_of_exec (h : exec i s = .next t) : Ends i s t := (ends_exec i s).of_next h

/-! ## The invariant: host steps -/

/-- WERR, the host's steps, the schedule and the counter of draws are not in the invariant, and the host's variables
only by their order. -/
theorem Inv.with_host (h : Inv s) {vars : List (Nat × Word)} (hv : vars.Pairwise fun x y => x.1 < y.1) (werr : Bool)
    (host : List HostOp) (hostTurns draws : Nat) :
    Inv { s with werr := werr, host := host, vars := vars, hostTurns := hostTurns, draws := draws } where
  canonical := h.canonical
  mapped := h.mapped
  running cmd loop abort he := by
    obtain ⟨hl, hs, hu⟩ := h.running cmd loop abort he
    exact ⟨hl, hs, hu⟩
  rejection := h.rejection
  sticky := h.sticky
  vars := hv

theorem inv_resetEngine (h : Inv s) : Inv (resetEngine s) where
  canonical := List.Pairwise.nil
  mapped := nofun
  running := nofun
  rejection := nofun
  sticky := nofun
  vars := h.vars

theorem inv_issue (h : Inv s) (w : Word) : Inv (issue s w) where
  canonical := by simpa [issue] using h.canonical
  mapped := by simpa [issue, State.params] using h.mapped
  running cmd loop abort he := by
    obtain ⟨rfl, rfl, -⟩ := Engine.running.inj he
    exact ⟨rfl, ⟨rfl, rfl, rfl⟩, nofun⟩
  rejection := nofun
  sticky := nofun
  vars := by simpa [issue] using h.vars

theorem inv_writeStatus (h : Inv s) (v : Word) : Inv (writeStatus s v) where
  canonical := h.canonical
  mapped := h.mapped
  running cmd loop abort he := by
    obtain ⟨hl, ⟨hd, hf, hr⟩, hu⟩ := h.running cmd loop abort he
    exact ⟨hl, ⟨by simp [writeStatus, hd], hf, hr⟩, hu⟩
  rejection := h.rejection
  sticky := h.sticky
  vars := h.vars

/-- Only SRST changes more than IE and the pending abort. -/
theorem inv_writeCtrl (h : Inv s) (v : Word) : Inv (writeCtrl s v) := by
  cases hv : v.getLsbD 2 with
  | true => rw [writeCtrl_srst hv]; exact inv_resetEngine h
  | false =>
    rw [writeCtrl_word hv]
    refine ⟨h.canonical, h.mapped, fun cmd loop abort he => ?_, h.rejection, h.sticky, h.vars⟩
    cases hs : s.engine with
    | idle => simp [hs] at he
    | running l u b =>
      simp only [hs, Engine.running.injEq] at he
      obtain ⟨rfl, rfl, -⟩ := he
      obtain ⟨hl, hst, hu⟩ := h.running _ _ _ hs
      exact ⟨hl, hst, hu⟩

theorem engine_ne_running (hb : s.busy = false) {l : Latched} {u : Option UnifLoop} {b : Bool} :
    s.engine ≠ .running l u b := fun he => by simp [State.busy, he] at hb

theorem inv_writeArgs (h : Inv s) (hb : s.busy = false) (v w : Word) : Inv { s with arg0 := v, arg1 := w } where
  canonical := h.canonical
  mapped := h.mapped
  running _ _ _ he := absurd he (engine_ne_running hb)
  rejection := h.rejection
  sticky := h.sticky
  vars := h.vars

/-- The four bytes of an aligned memory word are all in its memory (20_memory.md R42 to R44). -/
theorem Mapped.of_word {p : Params} (wf : p.WF) {a x : Nat} (h : Mapped p a) (h4 : a % 4 = 0) (hlo : a ≤ x)
    (hhi : x < a + 4) : Mapped p x := by
  have h8 := wf.wf8
  unfold Mapped at *
  omega

theorem inv_writeWord (h : Inv s) (hb : s.busy = false) {a : Nat} (ha : Mapped s.params a) (h4 : a % 4 = 0) (v : Word) :
    Inv { s with mem := writeBytes s.mem a (bytesOfWord v) } where
  canonical := writeBytes_wf h.canonical _ _
  mapped c hc := by
    rcases mem_writeBytes hc with hc | ⟨hlo, hhi⟩
    · exact h.mapped c hc
    · exact ha.of_word s.chip.wf h4 hlo hhi
  running _ _ _ he := absurd he (engine_ne_running hb)
  rejection := h.rejection
  sticky := h.sticky
  vars := h.vars

theorem inv_portWrite (h : Inv s) {off : BitVec 15} (h4 : off.toNat % 4 = 0) (v : Word) : Inv (portWrite s off v) := by
  rcases portWrite_cases s off v with hw | ⟨-, hw⟩ | ⟨-, -, hw⟩ | ⟨-, hw⟩ | ⟨-, hw⟩ | ⟨hb, -, hw⟩ | ⟨hb, -, hw⟩ |
    ⟨hb, hm, hw⟩ <;> rw [hw]
  · exact h
  · exact h.with_host h.vars true s.host s.hostTurns s.draws
  · exact inv_issue h v
  · exact inv_writeStatus h v
  · exact inv_writeCtrl h v
  · exact inv_writeArgs h hb v s.arg1
  · exact inv_writeArgs h hb s.arg0 v
  · exact inv_writeWord h hb hm h4 v

theorem inv_hostStep (h : Inv s) {op : HostOp} (hs : hostStep s op = .next t) : Inv t := by
  rcases hostStep_next hs with ⟨size, off, v, -, hw, rfl⟩ | ⟨host, _, rfl, r, v, rfl⟩ | ⟨-, host, rfl⟩ | ⟨-, rfl⟩
  · have h4 : off.toNat % 4 = 0 := by
      simp only [wholeWord, Bool.and_eq_true, decide_eq_true_eq] at hw
      exact hw.2
    exact inv_portWrite h h4 v
  · exact h.with_host (setVar_sorted h.vars r v) s.werr host s.hostTurns (s.draws + 1)
  · exact h.with_host h.vars s.werr host s.hostTurns s.draws
  · exact inv_resetEngine h

/-! ## The invariant: engine steps -/

theorem inv_complete {e : ErrCode} {dfail : Bool} (hc : s.mem.wf) (hm : ∀ c ∈ s.mem, Mapped s.params c.1)
    (hv : s.vars.Pairwise fun x y => x.1 < y.1) (hr : dfail = true → e = .ok)
    (hs : e = .xofFail ∨ e = .fatal → s.fatal = true) : Inv (complete s e dfail) :=
  ⟨hc, hm, nofun, hr, hs, hv⟩

theorem readByte_ne_none_of_mem {m : Memory} {c : Host.Cell} (h : c ∈ m) : readByte m c.1 ≠ none := by
  simp only [readByte, ne_eq, Option.map_eq_none_iff, List.find?_eq_none, decide_eq_true_eq, not_forall, not_not]
  exact ⟨c, h, rfl⟩

/-- Destinations that exist lie in the chip's memories, so writing them keeps memory there. -/
theorem WritesOnly.mapped {ds : List Dest} (hw : WritesOnly ds s u) (hfit : ∀ d ∈ ds, d.Fits s.params)
    (hm : ∀ c ∈ s.mem, Mapped s.params c.1) : ∀ c ∈ u.mem, Mapped s.params c.1 := by
  intro c hc
  by_contra hn
  refine readByte_ne_none_of_mem hc ((hw.bytes c.1 fun d hd hx => hn ((hfit d hd).mapped hx)).trans ?_)
  exact readByte_eq_none fun c' hc' he => hn (he ▸ hm c' hc')

theorem WritesOnly.with_fatal {ds : List Dest} (hw : WritesOnly ds s u) (b : Bool) :
    WritesOnly ds s { u with fatal := b } :=
  ⟨hw.kept, hw.res0, hw.res1, hw.xcnt, hw.canonical, hw.bytes⟩

/-- A completion that writes existing destinations keeps the invariant. -/
theorem inv_complete_of_writesOnly {ds : List Dest} {e : ErrCode} {dfail : Bool} (h : Inv s) (hw : WritesOnly ds s u)
    (hfit : ∀ d ∈ ds, d.Fits s.params) (hr : dfail = true → e = .ok)
    (hs : e = .xofFail ∨ e = .fatal → u.fatal = true) : Inv (complete u e dfail) := by
  obtain ⟨hchip, -, -, -, -, -, -, hvars, -, -⟩ := hw.kept
  refine inv_complete (hw.canonical h.canonical) ?_ (hvars ▸ h.vars) hr hs
  rw [State.params, hchip]
  exact hw.mapped hfit h.mapped

/-- The loop state of a running UNIF, with its command word. -/
theorem Inv.unif_loop (h : Inv s) {l : UnifLoop} (hl : s.loop = some l) :
    LoopOk s.params l ∧ s.fatal = false ∧
      ∃ a : Slot, decode s.latched.word = .ok (.unif a) ∧ a.toNat < s.params.npoly := by
  cases he : s.engine with
  | idle => simp [State.loop, he] at hl
  | running cmd loop abort =>
    obtain ⟨hcmd, hloop, -⟩ := latched_of_running he
    rw [hcmd]
    exact (h.running cmd loop abort he).loop l (hloop ▸ hl)

/-- The destinations of the latched command exist: its first step checks it, and a UNIF under way has passed. -/
theorem Inv.dests_fit (h : Inv s) (hd : decode s.latched.word = .ok i)
    (hfit : s.loop = none → ∀ d ∈ namedDests s i, d.Fits s.params) : ∀ d ∈ namedDests s i, d.Fits s.params := by
  cases hl : s.loop with
  | none => exact hfit hl
  | some l =>
    obtain ⟨-, -, a, ha, hn⟩ := h.unif_loop hl
    obtain rfl : i = .unif a := Except.ok.inj (hd.symm.trans ha)
    exact samplerDests_fit (slotInRange_eq hn)

/-- An accepted value is below Q, hence a u32, and has UKEEP bits (41_noise_sampler.md R98). -/
theorem loopOk_unifNext {p : Params} (wf : p.WF) {l : UnifLoop} (h : LoopOk p l)
    (hn : (unifNext p l).accepted.length < ringDegree) : LoopOk p (unifNext p l) := by
  obtain ⟨-, hc, hv⟩ := h
  have hlt : unifChunk p (Config.xofU l.msg) l.chunks < 2 ^ p.ukeep := Nat.mod_lt _ (Nat.two_pow_pos _)
  refine ⟨hn, ?_⟩
  unfold unifNext
  generalize unifChunk p (Config.xofU l.msg) l.chunks = v at hlt
  by_cases hq : v < p.q
  · have h1 := wf.wf1
    have hu : (u32 v).toNat = v := Nat.mod_eq_of_lt (by omega)
    simp only [hq, if_true, List.length_append, List.length_singleton, List.mem_append, List.mem_singleton]
    refine ⟨by omega, fun w hw => hw.elim (hv w) ?_⟩
    rintro rfl
    rw [hu]
    exact ⟨hq, hlt⟩
  · simp only [hq, if_false]
    exact ⟨by omega, hv⟩

/-- A UNIF that goes on keeps the invariant. -/
theorem inv_unif_continues (h : Inv s) (hb : s.busy = true) {a : Slot} {l : UnifLoop}
    (hd : decode s.latched.word = .ok (.unif a))
    (hl : LoopOk s.params l ∧ s.fatal = false ∧ a.toNat < s.params.npoly) (n : Nat) :
    Inv (schedule { s with engine := .running s.latched (some l) false, draws := n }) where
  canonical := by simpa using h.canonical
  mapped := by simpa [State.params] using h.mapped
  running cmd loop abort he := by
    obtain ⟨cmd', loop', abort', hs⟩ := busy_iff.1 hb
    obtain ⟨hlat, hst, -⟩ := h.running _ _ _ hs
    obtain ⟨hcmd, -⟩ := latched_of_running hs
    rw [schedule_engine] at he
    obtain ⟨rfl, rfl, -⟩ := Engine.running.inj he
    refine ⟨by simp [hcmd, hlat], by simpa using hst, fun l' hl' => ?_⟩
    obtain rfl := Option.some.inj hl'
    obtain ⟨hok, hf, hn⟩ := hl
    simp only [State.params, schedule_chip, schedule_fatal]
    exact ⟨hok, hf, a, hd, hn⟩
  rejection := by simpa using h.rejection
  sticky := by simpa using h.sticky
  vars := by simpa using h.vars

/-- However the latched command's step ends, it keeps the invariant. -/
theorem inv_of_ends (h : Inv s) (hb : s.busy = true) (hd : decode s.latched.word = .ok i) (he : Ends i s t) :
    Inv t := by
  cases he with
  | refused he =>
    refine inv_complete h.canonical h.mapped h.vars nofun fun hs => ?_
    rcases he with ⟨-, hf⟩ | rfl | rfl
    · exact hf
    all_goals exact absurd hs (by decide)
  | aborted hw => exact inv_complete_of_writesOnly h hw.writes (h.dests_fit hd hw.fits) nofun nofun
  | xofFailed hw =>
    exact inv_complete_of_writesOnly h (hw.writes.with_fatal true) (h.dests_fit hd hw.fits) nofun fun _ => rfl
  | executed hw => exact inv_complete_of_writesOnly h hw.writes (h.dests_fit hd hw.fits) nofun nofun
  | rejected _ hw => exact inv_complete_of_writesOnly h hw.writes (h.dests_fit hd hw.fits) (fun _ => rfl) nofun
  | @continues a l hi hl hn =>
    subst hi
    have hok : LoopOk s.params l ∧ s.fatal = false ∧ a.toNat < s.params.npoly := by
      rcases hl with hl | hl
      · obtain ⟨hok, hf, a', ha', hn⟩ := h.unif_loop hl
        obtain rfl := Instr.unif.inj (Except.ok.inj (hd.symm.trans ha'))
        exact ⟨hok, hf, hn⟩
      · exact hl
    exact inv_unif_continues h hb hd ⟨loopOk_unifNext s.chip.wf hok.1 hn, hok.2⟩ _

theorem inv_engineStep (h : Inv s) (hb : s.busy = true) (he : engineStep s = .next t) : Inv t := by
  rcases engineStep_next he with ⟨i, hd, hx⟩ | ⟨_, -, rfl⟩
  · exact inv_of_ends h hb hd (ends_of_exec hx)
  · refine inv_complete h.canonical h.mapped h.vars nofun fun hs => ?_
    by_contra hf
    rw [if_neg hf] at hs
    exact absurd hs (by decide)

/-! ## What a command's step leaves -/

/-- The frame of a command whatever its outcome: what no command writes, and what the rule of `i` does not name. -/
def KeepsUnnamed (i : Instr) (s t : State) : Prop :=
  t.chip = s.chip ∧ t.cmd = s.cmd ∧ t.werr = s.werr ∧ t.ie = s.ie ∧ t.arg0 = s.arg0 ∧ t.arg1 = s.arg1 ∧
  t.host = s.host ∧ t.vars = s.vars ∧
  (namesRes0 i = false → t.res0 = s.res0) ∧ (namesRes1 i = false → t.res1 = s.res1) ∧
  (namesXcnt i = false → t.xcnt = s.xcnt) ∧
  ∀ x, ¬ Named i s x → readByte t.mem x = readByte s.mem x

theorem WritesOnly.keepsUnnamed (h : WritesOnly (namedDests s i) s u) : KeepsUnnamed i s u := by
  obtain ⟨hchip, hcmd, hwerr, hie, harg0, harg1, hhost, hvars, -, -⟩ := h.kept
  refine ⟨hchip, hcmd, hwerr, hie, harg0, harg1, hhost, hvars, fun hn => h.res0 ?_, fun hn => h.res1 ?_,
    fun hn => h.xcnt ?_, fun x hx => h.bytes x fun d hd hc => hx (named_of_covers hd hc)⟩
  · simp [res0_mem_namedDests, hn]
  · simp [res1_mem_namedDests, hn]
  · simp [xcnt_mem_namedDests, hn]

/-- A UNIF that goes on changes its engine and the schedule only. -/
theorem keepsUnnamed_continues (i : Instr) (s : State) (e : Engine) (n : Nat) :
    KeepsUnnamed i s (schedule { s with engine := e, draws := n }) := by
  simp [KeepsUnnamed]

theorem keepsUnnamed_of_ends (h : Ends i s t) : KeepsUnnamed i s t := by
  cases h with
  | refused => exact ⟨rfl, rfl, rfl, rfl, rfl, rfl, rfl, rfl, fun _ => rfl, fun _ => rfl, fun _ => rfl, fun _ _ => rfl⟩
  | aborted h | xofFailed h | executed h | rejected _ h => exact h.writes.keepsUnnamed
  | continues => exact keepsUnnamed_continues i s _ _

theorem dfail_of_ends (h : Ends i s t) (hb : t.busy = false) (hd : t.dfail = true) :
    (∃ a, i = .upkhint a ∨ i = .upkchal a) ∧ t.err = .ok := by
  cases h with
  | refused | aborted | xofFailed | executed => cases hd
  | rejected hi => exact ⟨⟨_, hi⟩, rfl⟩
  | continues => simp [State.busy] at hb

/-! ## Reads of locations that nothing has written (10_state.md R36) -/

theorem readBytes_eq_none {m : Memory} (hm : m.wf) {a n j : Nat} (hj : j < n) (h : readByte m (a + j) = none) :
    readBytes m a n = none := by
  refine Option.eq_none_iff_forall_not_mem.2 fun bs hbs => ?_
  obtain ⟨hl, hr⟩ := (readBytes_eq_some_iff hm).1 hbs
  have := (hr j hj).symm.trans h
  rw [List.getElem?_eq_none_iff] at this
  omega

theorem readWord_eq_none {m : Memory} (hm : m.wf) {a j : Nat} (hj : j < 4) (h : readByte m (a + j) = none) :
    readWord m a = none := by
  rw [readWord, readBytes_eq_none hm hj h, Option.bind_none]

theorem readSlot_eq_none {m : Memory} (hm : m.wf) {n j : Nat} (hj : j < ringDegree) (h : readCoeff m n j = none) :
    readSlot m n = none := by
  refine Option.eq_none_iff_forall_not_mem.2 fun cs hcs => ?_
  obtain ⟨hl, hr⟩ := (readSlot_eq_some_iff hm).1 hcs
  have := (hr j hj).symm.trans h
  rw [List.getElem?_eq_none_iff] at this
  omega

theorem readSlots_eq_none {m : Memory} {n k j : Nat} (hj : j < k) (h : readSlot m (n + j) = none) :
    readSlots m n k = none := by
  induction k generalizing n j with
  | zero => omega
  | succ k ih =>
    cases j with
    | zero => rw [readSlots, ← Nat.add_zero n, h, Option.bind_none]
    | succ j =>
      rw [readSlots, ih (n := n + 1) (j := j) (by omega) (by rwa [Nat.add_assoc, Nat.add_comm 1])]
      cases readSlot m n <;> rfl

section sources

variable (hm : s.mem.wf) (h : ReadsUnwritten i s)
include hm h

/-- A source that the command reads whole is not wholly written: a slot, its window, or SEED. -/
theorem source_of_readsUnwritten :
    (∃ n ∈ sourceSlots s.params i, readSlot s.mem n = none) ∨
    (isUnpack i = true ∧ ∃ len, codecLen s.params i = some len ∧ memRead s.mem s.off len = none) ∨
    (namesXcnt i = true ∧ readSeed s.mem s.params = none) := by
  rcases h with ⟨n, hn, j, hj, h⟩ | ⟨hi, len, x, hl, hx, h⟩ | ⟨hi, j, hj, h⟩
  · exact .inl ⟨n, hn, readSlot_eq_none hm hj h⟩
  · exact .inr (.inl ⟨hi, len, hl, readBytes_eq_none hm hx h⟩)
  · exact .inr (.inr ⟨hi, readBytes_eq_none hm hj h⟩)

theorem slots_unwritten (hu : isUnpack i = false) (hx : namesXcnt i = false) :
    ∃ n ∈ sourceSlots s.params i, readSlot s.mem n = none := by
  simpa [hu, hx] using source_of_readsUnwritten hm h

theorem slot_unwritten {n : Nat} (hs : sourceSlots s.params i = [n]) (hu : isUnpack i = false)
    (hx : namesXcnt i = false) : readSlot s.mem n = none := by
  simpa [hs] using slots_unwritten hm h hu hx

theorem window_unwritten {len : Nat} (hl : codecLen s.params i = some len) (hs : sourceSlots s.params i = [])
    (hx : namesXcnt i = false) : memRead s.mem s.off len = none := by
  have hw : isUnpack i = true ∧ memRead s.mem s.off len = none := by
    simpa [hl, hs, hx] using source_of_readsUnwritten hm h
  exact hw.2

theorem seed_unwritten (hs : sourceSlots s.params i = []) (hu : isUnpack i = false) :
    readSeed s.mem s.params = none := by
  have hw : namesXcnt i = true ∧ readSeed s.mem s.params = none := by
    simpa [hs, hu] using source_of_readsUnwritten hm h
  exact hw.2

end sources

theorem InRange.slot (h : InRange i s) {n : Slot} (hn : n ∈ i.operands) : slotInRange s.params n.toNat = true :=
  slotInRange_eq (h.1 n hn)

theorem InRange.vec (h : InRange i s) {n : Slot} (hn : i = .pkhint n ∨ i = .upkhint n) :
    vecInRange s.params n.toNat = true :=
  vecInRange_eq (h.2.1 n hn)

theorem InRange.window (h : InRange i s) {len : Nat} (hl : codecLen s.params i = some len) :
    windowInRange s len = true :=
  windowInRange_eq (h.2.2 len hl)

theorem withRead_unwritten {α : Type} {r : Option α} (h : r = none) (k : α → Host.Outcome State Fault Refusal) :
    withRead r k = .fault .readUnwritten := by
  rw [h, withRead_none]

/-- A command that passes its checks stops where its body does. -/
theorem command_unwritten {legal inRange : Bool} {ds : List Dest} {body : Host.Outcome State Fault Refusal}
    (hs : Ready s) (hl : legal = true) (hr : inRange = true) (h : body = .fault .readUnwritten) :
    command s legal inRange ds body = .fault .readUnwritten :=
  (command_runs hs.1 hs.2 hl hr ds body).trans h

theorem polyUnary_unwritten {a b : Slot} {f : Nat → Word → Word} (hs : Ready s)
    (ha : slotInRange s.params a.toNat = true) (hb : slotInRange s.params b.toNat = true)
    (h : readSlot s.mem b.toNat = none) : polyUnary s a b f = .fault .readUnwritten :=
  command_unwritten hs rfl (by simp [ha, hb]) (withRead_unwritten h _)

theorem polyBinary_unwritten {a b c : Slot} {f : Nat → Word → Word → Word} (hs : Ready s)
    (ha : slotInRange s.params a.toNat = true) (hb : slotInRange s.params b.toNat = true)
    (hc : slotInRange s.params c.toNat = true) (h : readSlot s.mem b.toNat = none ∨ readSlot s.mem c.toNat = none) :
    polyBinary s a b c f = .fault .readUnwritten := by
  refine command_unwritten hs rfl (by simp [ha, hb, hc]) ?_
  cases hb : readSlot s.mem b.toNat with
  | none => rfl
  | some bs => exact withRead_unwritten (h.resolve_left (by simp [hb])) _

theorem polySplit_unwritten {a b c : Slot} {lo hi : Nat → Word → Word} (hs : Ready s) (hac : a ≠ c)
    (ha : slotInRange s.params a.toNat = true) (hb : slotInRange s.params b.toNat = true)
    (hc : slotInRange s.params c.toNat = true) (h : readSlot s.mem b.toNat = none) :
    polySplit s a b c lo hi = .fault .readUnwritten :=
  command_unwritten hs (by simpa using hac) (by simp [ha, hb, hc]) (withRead_unwritten h _)

theorem packSlot_unwritten {b : Slot} {len : Nat} {enc : List Word → List Byte} (hs : Ready s)
    (hb : slotInRange s.params b.toNat = true) (hw : windowInRange s len = true) (h : readSlot s.mem b.toNat = none) :
    packSlot s b len enc = .fault .readUnwritten :=
  command_unwritten hs rfl (by simp [hb, hw]) (withRead_unwritten h _)

theorem unpackSlot_unwritten {a : Slot} {len : Nat} {dec : List Byte → List Word} (hs : Ready s)
    (ha : slotInRange s.params a.toNat = true) (hw : windowInRange s len = true) (h : memRead s.mem s.off len = none) :
    unpackSlot s a len dec = .fault .readUnwritten :=
  command_unwritten hs rfl (by simp [ha, hw]) (withRead_unwritten h _)

theorem execUnif_first (hl : s.loop = none) (a : Slot) :
    execUnif a s = command s true (slotInRange s.params a.toNat) (samplerDests a)
      (withRead (readSeed s.mem s.params) fun seed => unlessXofFails s (samplerDests a)
        (.next (unifStep s a ⟨seed ++ [s.argByte0, s.argByte1], 0, []⟩))) := by
  rw [execUnif, hl]

/-- Every command that executes and reads an unwritten location stops there. -/
theorem exec_unwritten (hs : Ready s) (hm : s.mem.wf) (hl : s.loop = none) (hi : i.wellFormed = true)
    (hr : InRange i s) (h : ReadsUnwritten i s) : exec i s = .fault .readUnwritten := by
  have heta : some (32 * s.params.detaBits) = some (denseLen s.params.detaBits) := by rw [denseLen_eq]
  cases i with
  | nop | rfull | rpart | p2r | decomp | mkhint | usehint =>
    obtain ⟨n, hn, -⟩ := slots_unwritten hm h rfl rfl
    cases hn
  | vrfull a b | vrpart a b =>
    exact polyUnary_unwritten hs (hr.slot (by simp [Instr.operands])) (hr.slot (by simp [Instr.operands]))
      (slot_unwritten hm h rfl rfl rfl)
  | vp2r a b c | vdecomp a b c =>
    exact polySplit_unwritten hs (by simpa [Instr.wellFormed] using hi) (hr.slot (by simp [Instr.operands]))
      (hr.slot (by simp [Instr.operands])) (hr.slot (by simp [Instr.operands])) (slot_unwritten hm h rfl rfl rfl)
  | vmkhint a b c | vusehint a b c =>
    exact polyBinary_unwritten hs (hr.slot (by simp [Instr.operands])) (hr.slot (by simp [Instr.operands]))
      (hr.slot (by simp [Instr.operands])) (by simpa [sourceSlots] using slots_unwritten hm h rfl rfl)
  | cbd2 a | cbd3 a =>
    exact command_unwritten hs rfl (hr.slot (List.mem_singleton_self a))
      (withRead_unwritten (seed_unwritten hm h rfl rfl) _)
  | unif a =>
    exact (execUnif_first hl a).trans (command_unwritten hs rfl (hr.slot (List.mem_singleton_self a))
      (withRead_unwritten (seed_unwritten hm h rfl rfl) _))
  | pkt1 b | pkt0 b | pkg1 b | pkchal b =>
    exact packSlot_unwritten hs (hr.slot (List.mem_singleton_self b)) (hr.window rfl) (slot_unwritten hm h rfl rfl rfl)
  | pketa b =>
    exact packSlot_unwritten hs (hr.slot (List.mem_singleton_self b)) (hr.window heta)
      (slot_unwritten hm h rfl rfl rfl)
  | upkt1 a | upkt0 a | upkg1 a =>
    exact unpackSlot_unwritten hs (hr.slot (List.mem_singleton_self a)) (hr.window rfl)
      (window_unwritten hm h rfl rfl rfl)
  | upketa a =>
    exact unpackSlot_unwritten hs (hr.slot (List.mem_singleton_self a)) (hr.window heta)
      (window_unwritten hm h heta rfl rfl)
  | pkhint b =>
    obtain ⟨n, hn, hb⟩ := slots_unwritten hm h rfl rfl
    obtain ⟨j, hj, rfl⟩ := List.mem_map.1 hn
    exact command_unwritten hs rfl (Bool.and_eq_true_iff.2 ⟨hr.vec (.inl rfl), hr.window rfl⟩)
      (withRead_unwritten (readSlots_eq_none (List.mem_range.1 hj) hb) _)
  | upkhint a =>
    exact command_unwritten hs rfl (Bool.and_eq_true_iff.2 ⟨hr.vec (.inr rfl), hr.window rfl⟩)
      (withRead_unwritten (window_unwritten hm h rfl rfl rfl) _)
  | upkchal a =>
    exact command_unwritten hs rfl
      (Bool.and_eq_true_iff.2 ⟨hr.slot (List.mem_singleton_self a), hr.window rfl⟩)
      (withRead_unwritten (window_unwritten hm h rfl rfl rfl) _)

/-! ## The port's reads and writes -/

theorem step_of_hostDoes {op : HostOp} {rest : List HostOp} (h : Claims.HostDoes s op rest) :
    step s = hostStep (Claims.taken s rest) op := step_of_host_turn (turn_eq_host_iff.2 h)

/-- A whole-word write steps to what the port makes of it. -/
theorem step_of_write {off : BitVec 15} {v : Word} {rest : List HostOp} (h4 : off.toNat % 4 = 0)
    (h : Claims.HostDoes s (.wr .word off v) rest) : step s = .next (portWrite (Claims.taken s rest) off v) := by
  rw [step_of_hostDoes h, hostStep, wholeWord_word h4, if_pos rfl]

/-- Taking a host step does not change what the port answers. -/
theorem portRead_taken (s : State) (rest : List HostOp) (off : BitVec 15) :
    portRead (Claims.taken s rest) off = portRead s off := rfl

theorem readsAs_of_portRead {off : BitVec 15} {v : Word} (h4 : off.toNat % 4 = 0) (h : portRead s off = some v) :
    Claims.ReadsAs s off v := fun _ rest hd =>
  (step_of_hostDoes hd).trans (hostRead_word h4 ((portRead_taken s rest off).trans h))

theorem bytesOfWord_getElem? (v : Word) {j : Nat} (hj : j < 4) :
    (bytesOfWord v)[j]? = some (BitVec.ofNat 8 (v.toNat / 2 ^ (8 * j) % 2 ^ 8)) := by
  rw [bytesOfWord, bytesOfNum, List.getElem?_map, digits_getElem? _ _ _ _ hj, Option.map_some]

theorem readWord_of_holdsWord {m : Memory} (hm : m.wf) {a : Nat} {v : Word} (h : Claims.HoldsWord m a v) :
    readWord m a = some v := by
  refine (readWord_iff_bytes hm).2 fun j hj => ?_
  obtain ⟨b, hb, hv⟩ := h j hj
  rw [hb, bytesOfWord_getElem? v hj, show v.toNat / 2 ^ (8 * j) % 2 ^ 8 = b.toNat from hv.symm, BitVec.ofNat_toNat,
    BitVec.setWidth_eq]

/-- A written memory word: its value, or a free one where BUSY hides it (70_reset_and_hazards.md R144). -/
theorem portRead_written {off : BitVec 15} {v : Word} (hm : Mapped s.params off.toNat)
    (hv : readWord s.mem off.toNat = some v) :
    portRead s off = some (if s.busy = true ∧ 0x1000 ≤ off.toNat then Config.anyWord s.draws off.toNat else v) := by
  by_cases ho : 0x1000 ≤ off.toNat
  · cases hb : s.busy with
    | true => rw [portRead_busy hb hm ho hv, if_pos ⟨rfl, ho⟩]
    | false => rw [portRead_mapped hb hm, hv, if_neg (by simp)]
  · rw [portRead_seed hm (by omega), hv, if_neg (by simp [ho])]

/-- A bit of a register that is written as a sum of its fields. -/
theorem u32_getLsbD {n j : Nat} {b : Bool} (hj : j < 32) (h : n / 2 ^ j % 2 = b.toNat) : (u32 n).getLsbD j = b := by
  rw [u32, BitVec.getLsbD_ofNat, Nat.testBit_eq_decide_div_mod_eq, h]
  cases b <;> simp [hj]

/-- A field of a register that is written as a sum of its fields. -/
theorem u32_extractLsb' {n : Nat} (hn : n < 2 ^ 32) (start len : Nat) :
    ((u32 n).extractLsb' start len).toNat = n / 2 ^ start % 2 ^ len := by
  rw [BitVec.extractLsb'_toNat, BitVec.toNat_ofNat, Nat.mod_eq_of_lt hn, Nat.shiftRight_eq_div_pow]

theorem u32_toNat {n : Nat} (hn : n < 2 ^ 32) : (u32 n).toNat = n := Nat.mod_eq_of_lt hn

theorem ErrCode.code_lt (e : ErrCode) : e.code < 16 := by cases e <;> decide

theorem statusWord_fields (s : State) :
    (statusWord s).getLsbD 0 = s.busy ∧ (statusWord s).getLsbD 1 = s.done ∧ (statusWord s).getLsbD 2 = s.dfail ∧
    (statusWord s).getLsbD 3 = false ∧ ((statusWord s).extractLsb' 4 4).toNat = s.err.code ∧
    (statusWord s).getLsbD 8 = s.werr ∧ (statusWord s).getLsbD 9 = s.fatal ∧ (statusWord s).toNat / 2 ^ 10 = 0 := by
  have hbusy := s.busy.toNat_lt
  have hdone := s.done.toNat_lt
  have hdfail := s.dfail.toNat_lt
  have herr := s.err.code_lt
  have hwerr := s.werr.toNat_lt
  have hfatal := s.fatal.toNat_lt
  unfold statusWord
  refine ⟨u32_getLsbD (by decide) ?_, u32_getLsbD (by decide) ?_, u32_getLsbD (by decide) ?_,
    u32_getLsbD (by decide) ?reserved, (u32_extractLsb' ?_ 4 4).trans ?_, u32_getLsbD (by decide) ?_,
    u32_getLsbD (by decide) ?_, ?high⟩
  case reserved => rw [Bool.toNat_false]; omega
  case high => rw [u32_toNat (by omega)]; omega
  all_goals omega

theorem ctrlWord_fields (s : State) : (ctrlWord s).getLsbD 0 = s.ie ∧ (ctrlWord s).toNat / 2 = 0 := by
  have hie := s.ie.toNat_lt
  unfold ctrlWord
  refine ⟨u32_getLsbD (by decide) (by omega), ?_⟩
  rw [u32_toNat (by omega)]
  omega

/-- What a read of ID and of each CFG register answers (10_state.md R21 to R26). -/
theorem config_reads (s : State) :
    Claims.ReadsAs s 0x000 s.params.idValue ∧ Claims.ReadsAs s 0x004 (u32 s.params.q) ∧
    Claims.ReadsAs s 0x008 (cfg0Word s.params) ∧ Claims.ReadsAs s 0x00C (u32 s.params.gamma1) ∧
    Claims.ReadsAs s 0x010 (u32 s.params.gamma2) ∧ Claims.ReadsAs s 0x014 (cfg1Word s.params) ∧
    Claims.ReadsAs s 0x018 (u32 s.params.bufBytes) ∧ Claims.ReadsAs s 0x01C (u32 s.params.ukeep) := by
  refine ⟨?_, ?_, ?_, ?_, ?_, ?_, ?_, ?_⟩ <;> exact readsAs_of_portRead rfl rfl

theorem ref_configWords :
    Params.ref.idValue = 0x4D524537 ∧ u32 Params.ref.q = 0x007FE001 ∧ cfg0Word Params.ref = 0x6005030E ∧
    u32 Params.ref.gamma1 = 0x0007FE00 ∧ u32 Params.ref.gamma2 = 0x0003FF00 ∧ cfg1Word Params.ref = 0x0320100C ∧
    u32 Params.ref.bufBytes = 0x00001000 ∧ u32 Params.ref.ukeep = 0x0000000C := by decide

/-- The entries that fill a CFG register of their own are u32 (00_scope.md R6, R7). -/
theorem entries_lt {p : Params} (wf : p.WF) :
    p.q < 2 ^ 32 ∧ p.gamma1 < 2 ^ 32 ∧ p.gamma2 < 2 ^ 32 ∧ p.bufBytes < 2 ^ 32 ∧ p.ukeep < 2 ^ 32 := by
  obtain ⟨-, -, -, hq⟩ := wf.wf1
  obtain ⟨-, -, hm⟩ := wf.wf4
  have h5 := wf.wf5
  have h8 := wf.wf8
  have h9 := wf.wf9
  have hg : p.gamma2 ≤ p.q := by
    by_contra hg
    have h0 : p.m = 0 := Nat.div_eq_of_lt (by unfold Params.alpha; omega)
    omega
  refine ⟨?_, ?_, ?_, ?_, ?_⟩ <;> omega

theorem cfg0Word_fields {p : Params} (wf : p.WF) :
    ((cfg0Word p).extractLsb' 0 8).toNat = p.d ∧ ((cfg0Word p).extractLsb' 8 8).toNat = p.eta ∧
    ((cfg0Word p).extractLsb' 16 8).toNat = p.k ∧ ((cfg0Word p).extractLsb' 24 8).toNat = p.omega := by
  obtain ⟨-, hd, -, -⟩ := wf.wf3
  have h6 := wf.wf6
  have h7 := wf.wf7
  unfold cfg0Word
  rw [u32_extractLsb' (by omega), u32_extractLsb' (by omega), u32_extractLsb' (by omega), u32_extractLsb' (by omega)]
  omega

theorem cfg1Word_fields {p : Params} (wf : p.WF) :
    ((cfg1Word p).extractLsb' 0 8).toNat = p.ubits ∧ ((cfg1Word p).extractLsb' 8 8).toNat = p.npoly ∧
    ((cfg1Word p).extractLsb' 16 8).toNat = p.seedBytes ∧ ((cfg1Word p).extractLsb' 24 4).toNat = p.detaBits ∧
    ((cfg1Word p).extractLsb' 28 4).toNat = 0 := by
  have h7 := wf.wf7
  have h8 := wf.wf8
  have h9 := wf.wf9
  have hd : p.detaBits ≤ 4 := by unfold Params.detaBits; split <;> omega
  unfold cfg1Word
  rw [u32_extractLsb' (by omega), u32_extractLsb' (by omega), u32_extractLsb' (by omega), u32_extractLsb' (by omega),
    u32_extractLsb' (by omega)]
  omega

/-- A CTRL write without SRST: IE is written, the phase stays, and ABORT is recorded while RUNNING. -/
theorem writeCtrl_running {v : Word} (h : v.getLsbD 2 = false) :
    (writeCtrl s v).ie = v.getLsbD 0 ∧ (writeCtrl s v).busy = s.busy ∧ (writeCtrl s v).latched = s.latched ∧
    (writeCtrl s v).loop = s.loop ∧ (writeCtrl s v).abortPending = (s.abortPending || (s.busy && v.getLsbD 1)) ∧
    writeCtrl s v = { s with ie := (writeCtrl s v).ie, engine := (writeCtrl s v).engine } := by
  rw [writeCtrl_word h]
  cases he : s.engine <;> simp [State.busy, State.latched, State.loop, State.abortPending, he]

end Sys2Proof.Machine

namespace Sys2Proof.Proofs

open Sys2Proof.Machine Sys2Proof.Claims

/-- Settles O58, by whose turn it is: the engine's step by how the latched command can end, the host's by what it can
write. -/
theorem stepKeepsInv : Obligations.StepKeepsInv := by
  intro s t h hs
  rcases step_next hs with ⟨ht, hs⟩ | ⟨op, rest, -, hs⟩ | ⟨-, rfl⟩
  · exact inv_engineStep h (turn_eq_engine_iff.1 ht).1 hs
  · exact inv_hostStep (h.with_host h.vars s.werr rest (s.hostTurns - 1) s.draws) hs
  · exact h

/-- Settles O39: however the command's step ends, only its destinations are written. -/
theorem onlyNamedDestinations : Obligations.OnlyNamedDestinations :=
  fun _ _ _ h => keepsUnnamed_of_ends (ends_of_exec h)

/-- Settles O41: of all the ends of a command's step only a decode rejection sets DFAIL. -/
theorem dfailOnlyFromRejection : Obligations.DfailOnlyFromRejection :=
  fun _ _ _ h => dfail_of_ends (ends_of_exec h)

/-- Settles O54: the port answers nothing for a word with an unwritten byte, and a command that executes reads its
sources first. -/
theorem unwrittenReadsFault : Obligations.UnwrittenReadsFault := by
  refine ⟨fun s off r j rest hm hoff hj h hd => ?_, fun i s => exec_unwritten⟩
  rw [step_of_hostDoes hd]
  exact hostRead_unwritten hoff.1 (portRead_unwritten hoff.2 (readWord_eq_none hm hj h))

/-- Settles O45: the port's answer by kind of register, and the two operand writes. -/
theorem registersReadBack : Obligations.RegistersReadBack := by
  refine fun s => ⟨?anyTime, fun hb => ?idle, fun hb off hoff => ?busy, fun off v hm hoff hv => ?memory,
    fun v rest hb => ⟨fun hd => ?arg0, fun hd => ?arg1⟩⟩
  case anyTime => exact ⟨readsAs_of_portRead rfl rfl, readsAs_of_portRead rfl rfl, readsAs_of_portRead rfl rfl⟩
  case idle =>
    exact ⟨readsAs_of_portRead rfl (unlessBusy_idle hb 0x02C _), readsAs_of_portRead rfl (unlessBusy_idle hb 0x038 _),
      readsAs_of_portRead rfl (unlessBusy_idle hb 0x03C _)⟩
  case busy => rcases hoff with rfl | rfl | rfl <;> exact readsAs_of_portRead rfl (unlessBusy_busy hb _ _)
  case memory => exact readsAs_of_portRead hoff.1 (portRead_written hoff.2 (readWord_of_holdsWord hm hv))
  case arg0 => exact (step_of_write rfl hd).trans (congrArg _ (dropIfBusy_idle (s := taken s rest) hb _))
  case arg1 => exact (step_of_write rfl hd).trans (congrArg _ (dropIfBusy_idle (s := taken s rest) hb _))

/-- Settles O46: the chip's record is admissible, so each entry fits its field; REF's words are computed. -/
theorem configRegistersReportRecord : Obligations.ConfigRegistersReportRecord := by
  intro s
  have wf := s.chip.wf
  obtain ⟨hq, hg1, hg2, hbuf, hukeep⟩ := entries_lt wf
  obtain ⟨rid, rq, r0, rg1, rg2, r1, rbuf, r2⟩ := config_reads s
  refine ⟨⟨rid, ⟨_, rq, u32_toNat hq⟩, ⟨_, r0, cfg0Word_fields wf⟩, ⟨_, rg1, u32_toNat hg1⟩, ⟨_, rg2, u32_toNat hg2⟩,
    ⟨_, r1, cfg1Word_fields wf⟩, ⟨_, rbuf, u32_toNat hbuf⟩, ⟨_, r2, u32_toNat hukeep⟩⟩, fun hc => ?_⟩
  have hp : s.params = Params.ref := congrArg Chip.params hc
  simp only [hp, ref_configWords] at rid rq r0 rg1 rg2 r1 rbuf r2
  exact ⟨rid, rq, r0, rg1, rg2, r1, rbuf, r2⟩

/-- Settles O47: each bit of STATUS and CTRL is a digit of the sum the word is written as. -/
theorem statusReadsItsFields : Obligations.StatusReadsItsFields := fun s =>
  ⟨⟨_, readsAs_of_portRead rfl rfl, statusWord_fields s⟩, _, readsAs_of_portRead rfl rfl, ctrlWord_fields s⟩

/-- Settles O50: STATUS is written BUSY or not. -/
theorem statusWriteClearsOnes : Obligations.StatusWriteClearsOnes := fun _ _ _ hd => step_of_write rfl hd

/-- Settles O51: a CTRL write is carried out BUSY or not. -/
theorem ctrlWriteSetsEnableAndAbort : Obligations.CtrlWriteSetsEnableAndAbort :=
  fun s _ rest hd hv => ⟨_, step_of_write rfl hd, writeCtrl_running (s := taken s rest) hv⟩

/-- Settles O57: nothing is written, latched or reported at reset. -/
theorem invAtReset : Obligations.InvAtReset := ⟨List.Pairwise.nil, nofun, nofun, nofun, nofun, List.Pairwise.nil⟩

/-- Settles O56: every register of the reset state is 0, no cell of memory is listed. -/
theorem resetTable : Obligations.ResetTable :=
  ⟨⟨rfl, rfl, rfl, rfl, rfl, rfl, rfl, rfl, rfl, rfl, rfl, rfl, rfl, rfl, rfl, readByte_nil⟩, rfl, rfl⟩

end Sys2Proof.Proofs
end

