-- ==== Sys2Proof/Proofs/Memory.lean ====
section
/-! SUPPORT. 20_memory.md: the reserved offsets of the address map, the writes that the port ignores, the word that a
memory write leaves, and the accesses that are not carried out. -/

namespace Sys2Proof.Machine

variable {s : State} {off : BitVec 15}

/-! ## Reserved offsets and read-only registers (R45) -/

/-- A reserved offset is past the registers and outside SEED, BUF and the poly RAM, which do not overlap. -/
theorem target_of_reservedOffset {p : Params} (wf : p.WF) (h : Claims.ReservedOffset p off) :
    target p off = .reserved := by
  have hw := wf.wf8
  obtain ⟨-, h⟩ := h
  refine target_reserved (by omega) fun hm => ?_
  unfold Mapped at hm
  omega

/-- ID, the CFG registers, XCNT, RES0 and RES1 ignore a write. -/
theorem portWrite_readOnly (h : off.toNat < 0x020 ∨ off = 0x02C ∨ off = 0x038 ∨ off = 0x03C) (v : Word) :
    portWrite s off v = s := by
  rcases h with h | rfl | rfl | rfl
  · refine portWrite_low ?_ ?_ ?_ ?_ ?_ ?_ v <;> omega
  all_goals rfl

theorem writeIgnored_of_portWrite (h4 : off.toNat % 4 = 0)
    (h : ∀ v rest, portWrite (Claims.taken s rest) off v = Claims.taken s rest) : Claims.WriteIgnored s off :=
  fun v rest hd => (step_of_write h4 hd).trans (congrArg _ (h v rest))

/-! ## Memory words (R42 to R44, R46) -/

theorem readWord_writeBytes (m : Memory) (a : Nat) (v : Word) :
    readWord (writeBytes m a (bytesOfWord v)) a = some v :=
  readWord_eq_some_iff.2 (by simpa using readBytes_writeBytes m a (bytesOfWord v))

theorem holdsWord_writeBytes (m : Memory) (a : Nat) (v : Word) :
    Claims.HoldsWord (writeBytes m a (bytesOfWord v)) a v := by
  intro j hj
  have hin : a ≤ a + j ∧ a + j < a + (bytesOfWord v).length := by rw [bytesOfWord_length]; omega
  refine ⟨_, ?_, (BitVec.toNat_ofNat _ 8).trans (Nat.mod_mod _ _)⟩
  rw [readByte_writeBytes, if_pos hin, Nat.add_sub_cancel_left, bytesOfWord_getElem? v hj]

/-- While IDLE a read of a memory word answers the word that memory holds. -/
theorem readsAs_of_readWord {v : Word} (hb : s.busy = false) (h : Claims.MemoryOffset s.params off)
    (hv : readWord s.mem off.toNat = some v) : Claims.ReadsAs s off v := by
  obtain ⟨h4, hm⟩ := h
  exact readsAs_of_portRead h4 ((portRead_mapped hb hm).trans hv)

/-- The host's write of a memory word while IDLE. -/
theorem step_of_memoryWrite {v : Word} {rest : List HostOp} (hb : s.busy = false) (h : Claims.MemoryOffset s.params off)
    (hd : Claims.HostDoes s (.wr .word off v) rest) :
    step s = .next { Claims.taken s rest with mem := writeBytes s.mem off.toNat (bytesOfWord v) } := by
  obtain ⟨h4, hm⟩ := h
  rw [step_of_write h4 hd, portWrite_mapped (s := Claims.taken s rest) hm,
    dropIfBusy_idle (s := Claims.taken s rest) hb]
  rfl

/-! ## Accesses that are not carried out (R48) -/

theorem hostStep_partial {size : AccessSize} (h : Claims.PartialAccess size off) (r : Nat) (v : Word) :
    hostStep s (.wr size off v) = .fault .busError ∧ hostStep s (.rd size r off) = .fault .busError := by
  have hw : ¬ wholeWord size off = true := Bool.eq_false_iff.1 (wholeWord_eq_false_iff.2 h)
  exact ⟨if_neg hw, if_neg hw⟩

end Sys2Proof.Machine

namespace Sys2Proof.Proofs

open Sys2Proof.Machine Sys2Proof.Claims

/-- Settles O48: a reserved offset has no place behind it, and below the windows only five registers can be written. -/
theorem reservedAndReadOnlyIgnoreWrites : Obligations.ReservedAndReadOnlyIgnoreWrites := by
  refine ⟨fun s off h => ?reserved, fun s off h4 h => ?readOnly⟩
  case reserved =>
    have ht := target_of_reservedOffset s.chip.wf h
    obtain ⟨h4, -⟩ := h
    exact ⟨readsAs_of_portRead h4 (portRead_reserved ht),
      writeIgnored_of_portWrite h4 fun v rest => portWrite_reserved (s := taken s rest) ht v⟩
  case readOnly => exact writeIgnored_of_portWrite h4 fun v _ => portWrite_readOnly h v

/-- Settles O53: the write stores the word's four bytes at the offset, and the port reads them back. -/
theorem memoryWordsReadBack : Obligations.MemoryWordsReadBack := by
  intro s off v rest hb _ hoff hd
  refine ⟨_, step_of_memoryWrite hb hoff hd, readsAs_of_readWord hb hoff (readWord_writeBytes s.mem _ v),
    holdsWord_writeBytes s.mem _ v, fun x hx => readByte_writeBytes_outside _ _ _ x ?_, rfl⟩
  rwa [bytesOfWord_length]

/-- Settles O49: the host checks the access's width and alignment before the port sees it. -/
theorem partialAccessIsBusError : Obligations.PartialAccessIsBusError := by
  intro s size off r v rest h
  obtain ⟨hwr, hrd⟩ := hostStep_partial (s := taken s rest) h r v
  exact ⟨fun hd => (step_of_hostDoes hd).trans hwr, fun hd => (step_of_hostDoes hd).trans hrd⟩

end Sys2Proof.Proofs
end

