-- ==== Sys2Proof/Proofs/Encoding.lean ====
section
/-! SUPPORT. 30_encoding.md: the encoder and the decoder undo each other, the decoder accepts exactly the legal words
(`decode_spec`), and what the engine makes of an ILLEGAL word and of a command out of RANGE. -/

namespace Sys2Proof

open Sys2Proof.Claims

/-! ## Encoding, then decoding (R56, R59) -/

theorem wordFields (i : Instr) : Laws.WordFields.Statement i := by cases i <;> exact Laws.WordFields.of_fields _ rfl rfl

theorem decode_of_reserved {w : Word} (h : (fieldsOf w).rsv0 = 0 ∧ (fieldsOf w).rsv1 = 0) :
    decode w = decodeOp (fieldsOf w) := if_pos h

/-- The opcode map reads a legal command back from its fields. -/
theorem decodeOp_fields {i : Instr} (h : i.wellFormed = true) : decodeOp i.fields = .ok i := by
  cases i with
  | vp2r a b c | vdecomp a b c => exact if_neg (of_decide_eq_true h)
  | _ => rfl

theorem decode_encode {i : Instr} (h : i.wellFormed = true) : decode (encode i) = .ok i := by
  obtain ⟨hf, hrsv0, hrsv1⟩ := wordFields i
  rw [decode_of_reserved ⟨hrsv0, hrsv1⟩, hf, decodeOp_fields h]

/-! ## Which words are legal (R60) -/

/-- None of the clauses (a), (c) and (d) of R60, on the fields of a word. -/
def Fields.Legal (f : Fields) : Prop :=
  opAssigned f.op.toNat ∧ ((usesA f.op.toNat ∨ f.a = 0) ∧ (usesB f.op.toNat ∨ f.b = 0) ∧ (usesC f.op.toNat ∨ f.c = 0)) ∧
  ¬ ((f.op.toNat = 0x13 ∨ f.op.toNat = 0x14) ∧ f.a = f.c)

theorem fieldsOf_toNat (w : Word) :
    (fieldsOf w).op.toNat = w.toNat % 64 ∧ (fieldsOf w).rsv0.toNat = w.toNat / 2 ^ 6 % 4 ∧
    (fieldsOf w).a.toNat = w.toNat / 2 ^ 8 % 16 ∧ (fieldsOf w).b.toNat = w.toNat / 2 ^ 12 % 16 ∧
    (fieldsOf w).c.toNat = w.toNat / 2 ^ 16 % 16 ∧ (fieldsOf w).rsv1.toNat = w.toNat / 2 ^ 20 := by
  have h := w.isLt
  simp only [fieldsOf, BitVec.extractLsb'_toNat, Nat.shiftRight_eq_div_pow, true_and]
  omega

/-- R60 on the word's numbers is R60 on its fields. -/
theorem not_illegalWord_iff {w : Word} :
    ¬ IllegalWord w ↔ ((fieldsOf w).rsv0 = 0 ∧ (fieldsOf w).rsv1 = 0) ∧ (fieldsOf w).Legal := by
  obtain ⟨hop, hrsv0, ha, hb, hc, hrsv1⟩ := fieldsOf_toNat w
  simp only [IllegalWord, Fields.Legal, BitVec.toNat_eq, hop, hrsv0, ha, hb, hc, hrsv1, not_or, not_and_or,
    not_not, ne_eq]
  exact and_left_comm

/-! ## What the decoder answers -/

/-- The answer is right for a word with the fields `f` and reserved bits 0: a legal command with these fields, or an
error where the fields are not legal. -/
def Decodes (f : Fields) : Except DecodeError Instr → Prop
  | .ok i => f.Legal ∧ i.wellFormed = true ∧ i.fields = { f with rsv0 := 0, rsv1 := 0 }
  | .error _ => ¬ f.Legal

theorem decodes_withUnused {f : Fields} {unused : List Slot} {i : Instr} (hi : i.wellFormed = true)
    (hlegal : f.Legal ↔ ∀ u ∈ unused, u = 0)
    (hfields : (∀ u ∈ unused, u = 0) → i.fields = { f with rsv0 := 0, rsv1 := 0 }) :
    Decodes f (withUnused unused i) := by
  by_cases hu : ∀ u ∈ unused, u = 0
  · rw [withUnused, if_pos (by simpa using hu)]
    exact ⟨hlegal.2 hu, hi, hfields hu⟩
  · rw [withUnused, if_neg (by simpa using hu)]
    exact mt hlegal.1 hu

theorem decodes_withDistinct {f : Fields} {a c : Slot} {i : Instr} (hi : i.wellFormed = decide (a ≠ c))
    (hlegal : f.Legal ↔ a ≠ c) (hfields : i.fields = { f with rsv0 := 0, rsv1 := 0 }) :
    Decodes f (withDistinct a c i) := by
  by_cases hac : a = c
  · rw [withDistinct, if_pos hac]
    exact fun hl => hlegal.1 hl hac
  · rw [withDistinct, if_neg hac]
    exact ⟨hlegal.2 hac, by simpa [hi] using hac, hfields⟩

/-- The opcode map of R59, row by row: VP2R and VDECOMP check their destinations (rows 10 and 11), VMKHINT and VUSEHINT
use every field (12 and 13), the other rows check their unused fields, and an opcode without a row comes last. -/
theorem decodes_decodeOp (f : Fields) : Decodes f (decodeOp f) := by
  unfold decodeOp
  split
  case h_10 hop | h_11 hop =>
    exact decodes_withDistinct rfl (by simp [Fields.Legal, opAssigned, usesA, usesB, usesC, hop])
      (by simp [Instr.fields, ← BitVec.toNat_inj (y := f.op), hop])
  case h_12 hop | h_13 hop =>
    exact ⟨by simp [Fields.Legal, opAssigned, usesA, usesB, usesC, hop], rfl,
      by simp [Instr.fields, ← BitVec.toNat_inj (y := f.op), hop]⟩
  case h_29 =>
    rintro ⟨hop, -⟩
    simp only [opAssigned, imp_false] at *
    omega
  all_goals
    next hop =>
      exact decodes_withUnused rfl (by simp [Fields.Legal, opAssigned, usesA, usesB, usesC, hop])
        (by simp +contextual [Instr.fields, ← BitVec.toNat_inj (y := f.op), hop])

/-- Everything the decoder can answer: the legal command whose word this is, or an error for an ILLEGAL word. -/
theorem decode_spec (w : Word) :
    (∃ i, decode w = .ok i ∧ encode i = w ∧ i.wellFormed = true ∧ ¬ IllegalWord w) ∨
    (∃ e, decode w = .error e ∧ IllegalWord w) := by
  by_cases hr : (fieldsOf w).rsv0 = 0 ∧ (fieldsOf w).rsv1 = 0
  · have h := decodes_decodeOp (fieldsOf w)
    rw [decode_of_reserved hr]
    cases hd : decodeOp (fieldsOf w) with
    | ok i =>
      rw [hd] at h
      obtain ⟨hl, hi, hf⟩ := h
      rw [← hr.1, ← hr.2] at hf
      refine .inl ⟨i, rfl, ?_, hi, not_illegalWord_iff.2 ⟨hr, hl⟩⟩
      rw [encode, hf, word_fieldsOf]
    | error e =>
      rw [hd] at h
      exact .inr ⟨e, rfl, by_contra fun hw => h (not_illegalWord_iff.1 hw).2⟩
  · exact .inr ⟨_, if_neg hr, by_contra fun hw => hr (not_illegalWord_iff.1 hw).1⟩

theorem decode_illegal {w : Word} (h : IllegalWord w) : ∃ e, decode w = .error e := by
  rcases decode_spec w with ⟨i, -, -, -, hw⟩ | ⟨e, he, -⟩
  · exact absurd h hw
  · exact ⟨e, he⟩

end Sys2Proof

namespace Sys2Proof.Machine

variable {s : State} {i : Instr}

/-! ## Commands that are refused (60_exceptions.md R125) -/

theorem onlyReports_complete (s : State) (e : ErrCode) : OnlyReports s (complete s e false) e :=
  ⟨⟨rfl, rfl, rfl, rfl⟩, Kept.refl s, ⟨rfl, rfl, rfl, rfl⟩, rfl⟩

theorem step_of_engineDoes (h : Claims.EngineDoes s) : step s = engineStep s :=
  step_of_engine_turn (turn_eq_engine_iff.2 h)

theorem engineStep_error {e : DecodeError} (h : decode s.latched.word = .error e) :
    engineStep s = .next (illegalCommand s) := by rw [engineStep, h]

theorem slotInRange_iff {p : Params} {n : Nat} : slotInRange p n = true ↔ n < p.npoly := decide_eq_true_iff

theorem vecInRange_iff {p : Params} {n : Nat} : vecInRange p n = true ↔ n + p.k ≤ p.npoly := decide_eq_true_iff

theorem windowInRange_iff {len : Nat} : windowInRange s len = true ↔ s.off + len ≤ s.params.bufBytes :=
  decide_eq_true_iff

/-- The checks of PKHINT and UPKHINT. Where the K slots exist, so does the first: K is not 0 (00_scope.md R7). -/
theorem hint_inRange_iff {n : Slot} (hi : i = .pkhint n ∨ i = .upkhint n) :
    (vecInRange s.params n.toNat && windowInRange s (hintLen s.params)) = true ↔ InRange i s := by
  obtain ⟨hk, -⟩ := s.chip.wf.wf7
  have hn (h : n.toNat + s.params.k ≤ s.params.npoly) : n.toNat < s.params.npoly :=
    Nat.lt_of_lt_of_le (Nat.lt_add_of_pos_right hk) h
  rw [Bool.and_eq_true, vecInRange_iff, windowInRange_iff]
  rcases hi with rfl | rfl <;> simpa [InRange, Instr.operands, codecLen, hintLen] using fun h _ => hn h

/-- The first step of every command makes the checks of R60 (d) and R61 on it, and an abort ends it with `any` in its
named destinations. -/
theorem exec_first (hl : s.loop = none) : ∃ inRange body, (inRange = true ↔ InRange i s) ∧
    exec i s = command s i.wellFormed inRange (namedDests s i) body := by
  cases i with
  | nop | rfull | rpart | p2r | decomp | mkhint | usehint =>
    exact ⟨_, _, by simp [InRange, Instr.operands, codecLen], rfl⟩
  | vrfull a b | vrpart a b | cbd2 a | cbd3 a =>
    exact ⟨_, _, by simp [InRange, Instr.operands, codecLen, slotInRange_iff], rfl⟩
  | vmkhint a b c | vusehint a b c | vp2r a b c | vdecomp a b c =>
    exact ⟨_, _, by simp [InRange, Instr.operands, codecLen, slotInRange_iff, and_assoc, and_comm], rfl⟩
  | unif a => exact ⟨_, _, by simp [InRange, Instr.operands, codecLen, slotInRange_iff], execUnif_first hl a⟩
  | pkt1 n | upkt1 n | pkt0 n | upkt0 n | upketa n | pkg1 n | upkg1 n =>
    exact ⟨_, _, by simp [InRange, Instr.operands, codecLen, slotInRange_iff, windowInRange_iff, denseLen_eq], rfl⟩
  | pketa b =>
    rw [namedDests_pketa]
    exact ⟨_, _, by simp [InRange, Instr.operands, codecLen, slotInRange_iff, windowInRange_iff, denseLen_eq], rfl⟩
  | pkchal n | upkchal n =>
    exact ⟨_, _, by simp [InRange, Instr.operands, codecLen, slotInRange_iff, windowInRange_iff, chalLen], rfl⟩
  | pkhint b => exact ⟨_, _, hint_inRange_iff (.inl rfl), rfl⟩
  | upkhint a =>
    rw [namedDests_upkhint]
    exact ⟨_, _, hint_inRange_iff (.inr rfl), rfl⟩

/-- RANGE is reported after FATAL and ILLEGAL, before a pending abort (60_exceptions.md R125). -/
theorem exec_outOfRange (hf : s.fatal = false) (hl : s.loop = none) (hi : i.wellFormed = true) (hr : ¬ InRange i s) :
    exec i s = .next (complete s .range false) := by
  obtain ⟨inRange, body, hin, h⟩ := exec_first (i := i) hl
  rw [h, hi, Bool.eq_false_iff.2 (mt hin.1 hr)]
  exact command_error (firstError_range hf) _ _

end Sys2Proof.Machine

namespace Sys2Proof.Proofs

open Sys2Proof.Machine Sys2Proof.Claims

/-- Settles O1: the word has the fields of its command, and the opcode map reads them back. -/
theorem decodeOfEncode : Obligations.DecodeOfEncode := fun _ => decode_encode

/-- Settles O2, from what the decoder can answer. -/
theorem encodeOfDecode : Obligations.EncodeOfDecode := by
  intro w i h
  rcases decode_spec w with ⟨j, hj, he, hwf, -⟩ | ⟨e, he, -⟩
  · cases h.symm.trans hj
    exact ⟨he, hwf⟩
  · cases h.symm.trans he

/-- Settles O3: a word that decodes is not ILLEGAL, and an ILLEGAL one does not decode. -/
theorem rejectedWordsAreIllegal : Obligations.RejectedWordsAreIllegal := by
  refine fun w => ⟨fun ⟨e, h⟩ => ?_, decode_illegal⟩
  rcases decode_spec w with ⟨i, hi, -⟩ | ⟨-, -, hw⟩
  · cases h.symm.trans hi
  · exact hw

/-- Settles O5: the decoder rejects the latched word, and the engine only completes it. -/
theorem illegalWordOnlyReports : Obligations.IllegalWordOnlyReports := by
  intro s hs hw
  obtain ⟨e, he⟩ := decode_illegal hw
  exact ⟨_, (step_of_engineDoes hs).trans (engineStep_error he), onlyReports_complete s _⟩

/-- Settles O37: the range check of the command's first step fails. -/
theorem rangeRefusesEveryCommand : Obligations.RangeRefusesEveryCommand :=
  fun _ s hf hl hi hr => ⟨_, exec_outOfRange hf hl hi hr, onlyReports_complete s .range⟩

/-- Settles O4: ten fixed words, computed. -/
theorem wordsOfTheOpcodeMap : Obligations.WordsOfTheOpcodeMap := by
  unfold Obligations.WordsOfTheOpcodeMap
  decide

end Sys2Proof.Proofs
end

