-- ==== Sys2Proof/Proofs/FieldPrimitives.lean ====
section
/-! SUPPORT. 40_field_primitives.md: the six functions on numbers (what R71 and R72 say of a split, the closed form of
the hint, the hint round trip), what each scalar command leaves in RES0 and RES1, and the lanes of the poly-wise
commands. -/

namespace Sys2Proof

variable {p : Params}

/-! ## The record's numbers (00_scope.md R5, R7) -/

/-- Q − 1 is M steps of ALPHA. -/
theorem Params.WF.q_eq (wf : p.WF) : p.q = p.alpha * p.m + 1 := by
  obtain ⟨-, -, hq, -⟩ := wf.wf1
  obtain ⟨-, hdvd, -⟩ := wf.wf4
  have h : p.alpha * p.m = p.q - 1 := Nat.mul_div_cancel' (Nat.dvd_of_mod_eq_zero hdvd)
  omega

theorem Params.alpha_eq (p : Params) : p.alpha = 2 * p.gamma2 := rfl

/-- The highest multiple of ALPHA that is no wrap point, and the step above it, lie below Q. -/
theorem Params.WF.alpha_mul_add_lt (wf : p.WF) {k : Nat} (h : k < p.m) : p.alpha * k + p.alpha < p.q := by
  have hk : p.alpha * (k + 1) ≤ p.alpha * p.m := Nat.mul_le_mul_left _ h
  rw [Nat.mul_succ] at hk
  have hq := wf.q_eq
  omega

/-- At least two steps of ALPHA, that is 4·GAMMA2, lie below Q. -/
theorem Params.WF.gamma2_bounds (wf : p.WF) : 1 ≤ p.gamma2 ∧ 4 * p.gamma2 < p.q := by
  obtain ⟨hg, -, hm⟩ := wf.wf4
  have h := wf.alpha_mul_add_lt hm
  have ha := p.alpha_eq
  omega

theorem Params.WF.m_lt_q (wf : p.WF) : p.m < p.q := by
  obtain ⟨hg, -⟩ := wf.gamma2_bounds
  have h : 1 * p.m ≤ p.alpha * p.m := Nat.mul_le_mul_right _ (by rw [p.alpha_eq]; omega)
  have hq := wf.q_eq
  omega

theorem Params.WF.q_pos (wf : p.WF) : 0 < p.q := by
  obtain ⟨hprime, -⟩ := wf.wf1
  exact hprime.pos

theorem Params.WF.two_q_lt (wf : p.WF) : 2 * p.q < 2 ^ 32 := by
  obtain ⟨-, -, -, hq⟩ := wf.wf1
  omega

/-- 2^D is even, and its half, the bound of power2round's low part, is far below Q. -/
theorem Params.WF.two_pow_d (wf : p.WF) : 2 ^ p.d = 2 * 2 ^ (p.d - 1) ∧ 2 ^ (p.d - 1) ≤ 2 ^ 13 := by
  obtain ⟨hd, hd', -⟩ := wf.wf3
  exact ⟨by rw [← pow_succ', Nat.sub_add_cancel hd], Nat.pow_le_pow_right (by decide) (by omega)⟩

end Sys2Proof

namespace Sys2Proof.Machine

variable {s t u : State} {p : Params}

/-! ## The centered remainder (R9) -/

/-- Modulo an even number 2h the centered remainder lies in (−h, h]. -/
theorem cmod_bounds (x : Int) {m h : Int} (hm : m = 2 * h) (hh : 0 < h) : -h < cmod x m ∧ cmod x m ≤ h := by
  have hlo := Int.emod_nonneg x (show m ≠ 0 by omega)
  have hhi := Int.emod_lt_of_pos x (show 0 < m by omega)
  unfold cmod
  split <;> omega

/-- The division of R71 and R72 is exact. -/
theorem cmod_add_mul_div (x m : Int) : cmod x m + m * ((x - cmod x m) / m) = x := by
  have hdvd : m ∣ x - cmod x m := by
    have h := Int.emod_add_mul_ediv x m
    unfold cmod
    split
    · exact ⟨x / m, by omega⟩
    · exact ⟨x / m + 1, by rw [mul_add]; omega⟩
  rw [Int.mul_ediv_cancel' hdvd]
  omega

/-- Of a number that is not negative, the quotient is not negative. -/
theorem cmod_div_nonneg {x m h : Int} (hx : 0 ≤ x) (hm : m = 2 * h) (hh : 0 < h) : 0 ≤ (x - cmod x m) / m := by
  obtain ⟨-, hhi⟩ := cmod_bounds x hm hh
  by_contra hneg
  have hmul := Int.mul_le_mul_of_nonneg_left (show (x - cmod x m) / m ≤ -1 by omega) (show 0 ≤ m by omega)
  have hadd := cmod_add_mul_div x m
  omega

/-! ## power2round and decompose (R71, R72) -/

/-- R71: the parts of power2round and the bounds of the low one. -/
theorem p2rF_spec (wf : p.WF) (a : Nat) :
    ∃ a0 : Int, ((p2rF p a).1 : Int) = p.q + a0 ∧ (a : Int) = a0 + 2 ^ p.d * (p2rF p a).2 ∧
      -2 ^ (p.d - 1) < a0 ∧ a0 ≤ 2 ^ (p.d - 1) := by
  obtain ⟨-, -, hq, -⟩ := wf.wf1
  obtain ⟨hpow, hle⟩ := wf.two_pow_d
  zify at hpow hle
  have hpos : 0 < (2 : Int) ^ (p.d - 1) := by positivity
  obtain ⟨hlo, hhi⟩ : -2 ^ (p.d - 1) < p2rLow p a ∧ p2rLow p a ≤ 2 ^ (p.d - 1) := cmod_bounds a hpow hpos
  refine ⟨p2rLow p a, Int.toNat_of_nonneg (by omega), ?_, hlo, hhi⟩
  have h : ((p2rF p a).2 : Int) = (a - p2rLow p a) / 2 ^ p.d :=
    Int.toNat_of_nonneg (cmod_div_nonneg (Int.natCast_nonneg a) hpow hpos)
  rw [h]
  exact (cmod_add_mul_div a (2 ^ p.d)).symm

/-- The second part of power2round above (Q − 1)/2^D would put the input at Q or more, since the division leaves at most
2^(D−1) of Q − 1 (WF3). -/
theorem p2rF_high_le (wf : p.WF) {a : Nat} (ha : a < p.q) : (p2rF p a).2 ≤ (p.q - 1) / 2 ^ p.d := by
  obtain ⟨-, -, hmod, -⟩ := wf.wf3
  obtain ⟨hpow, -⟩ := wf.two_pow_d
  obtain ⟨a0, -, heq, hlo, -⟩ := p2rF_spec wf a
  by_contra hgt
  have hmul : 2 ^ p.d * ((p.q - 1) / 2 ^ p.d + 1) ≤ 2 ^ p.d * (p2rF p a).2 := Nat.mul_le_mul_left _ (by omega)
  have hdiv := Nat.div_add_mod (p.q - 1) (2 ^ p.d)
  rw [Nat.mul_succ] at hmul
  zify at hmul hdiv hmod hpow
  omega

/-- R72: the naive parts of decompose and their bounds. -/
theorem decNaive_spec (wf : p.WF) {a : Nat} (ha : a < p.q) :
    (a : Int) = decLow p a + p.alpha * decHigh p a ∧ -(p.gamma2 : Int) < decLow p a ∧ decLow p a ≤ p.gamma2 ∧
      0 ≤ decHigh p a ∧ decHigh p a ≤ p.m := by
  obtain ⟨hg, -⟩ := wf.gamma2_bounds
  have hal : (p.alpha : Int) = 2 * p.gamma2 := mod_cast p.alpha_eq
  have hpos : 0 < (p.gamma2 : Int) := by omega
  obtain ⟨hlo, hhi⟩ : -(p.gamma2 : Int) < decLow p a ∧ decLow p a ≤ p.gamma2 := cmod_bounds a hal hpos
  have hadd : decLow p a + p.alpha * decHigh p a = a := cmod_add_mul_div a p.alpha
  refine ⟨hadd.symm, hlo, hhi, cmod_div_nonneg (Int.natCast_nonneg a) hal hpos, ?_⟩
  by_contra hgt
  have hmul : (p.alpha : Int) * (p.m + 1) ≤ p.alpha * decHigh p a := 
    Int.mul_le_mul_of_nonneg_left (by omega) (by omega)
  have hq : (p.q : Int) = p.alpha * p.m + 1 := mod_cast wf.q_eq
  rw [mul_add] at hmul
  omega

/-- R72: below the wrap point Q − GAMMA2 the parts of decompose are Q + a0 and a1; from it on they are a and 0. -/
theorem decF_cases (wf : p.WF) {a : Nat} (ha : a < p.q) :
    (∃ a0 : Int, ((decF p a).1 : Int) = p.q + a0 ∧ (a : Int) = a0 + p.alpha * (decF p a).2 ∧
      -(p.gamma2 : Int) < a0 ∧ a0 ≤ p.gamma2 ∧ (decF p a).2 < p.m) ∨
    (p.q ≤ a + p.gamma2 ∧ decF p a = (a, 0)) := by
  obtain ⟨heq, hlo, hhi, h0, hm⟩ := decNaive_spec wf ha
  obtain ⟨-, hg⟩ := wf.gamma2_bounds
  have hq : (p.q : Int) = p.alpha * p.m + 1 := mod_cast wf.q_eq
  unfold decF
  split
  · next hwrap =>
    rw [hwrap] at heq
    exact .inr ⟨by omega, Prod.ext (by simp only; omega) rfl⟩
  · next hwrap =>
    refine .inl ⟨decLow p a, Int.toNat_of_nonneg (by omega), ?_, hlo, hhi, by simp only; omega⟩
    rw [Int.toNat_of_nonneg h0]
    exact heq

theorem decF_high_lt (wf : p.WF) {a : Nat} (ha : a < p.q) : (decF p a).2 < p.m := by
  obtain ⟨-, -, hm⟩ := wf.wf4
  rcases decF_cases wf ha with ⟨-, -, -, -, -, h⟩ | ⟨-, h⟩
  · exact h
  · rw [h]; omega

theorem decF_low_lt (wf : p.WF) {a : Nat} (ha : a < p.q) : (decF p a).1 < 2 * p.q := by
  obtain ⟨-, hg⟩ := wf.gamma2_bounds
  rcases decF_cases wf ha with ⟨a0, h, -, -, hhi, -⟩ | ⟨-, h⟩
  · omega
  · rw [h]; omega

/-- Multiples of w that differ by less than n·w are those of numbers that differ by less than n. -/
theorem lt_add_of_mul_lt {w x y : Nat} (n : Nat) (h : w * x < w * y + n * w) : x < y + n := by
  rw [Nat.mul_comm n, ← Nat.mul_add] at h
  exact Nat.lt_of_mul_lt_mul_left h

/-- Which inputs have the high part k: those within GAMMA2 of its multiple of ALPHA, and for 0 those from the wrap point
on. -/
theorem decF_high_eq_iff (wf : p.WF) {a k : Nat} (ha : a < p.q) (hk : k < p.m) :
    (decF p a).2 = k ↔
      (p.alpha * k < a + p.gamma2 ∧ a ≤ p.alpha * k + p.gamma2) ∨ (p.q ≤ a + p.gamma2 ∧ k = 0) := by
  have hal := p.alpha_eq
  have hbelow := wf.alpha_mul_add_lt hk
  rcases decF_cases wf ha with ⟨a0, -, heq, hlo, hhi, hm⟩ | ⟨hwrap, h⟩
  · have hlt := wf.alpha_mul_add_lt hm
    constructor
    · rintro rfl
      exact .inl ⟨by omega, by omega⟩
    · rintro (⟨h1, h2⟩ | ⟨h1, -⟩)
      · have hle : (decF p a).2 < k + 1 := lt_add_of_mul_lt (w := p.alpha) 1 (by omega)
        have hge : k < (decF p a).2 + 1 := lt_add_of_mul_lt (w := p.alpha) 1 (by omega)
        omega
      · omega
  · rw [h]
    simp only
    omega

/-! ## makeHint and useHint (R73 to R76) -/

theorem mkhF_le_one (p : Params) (z0 r1 : Nat) : mkhF p z0 r1 ≤ 1 := by
  unfold mkhF
  split <;> decide

theorem mkhF_eq_one_iff {z0 r1 : Nat} :
    mkhF p z0 r1 = 1 ↔ (decF p ((z0 + p.alpha * r1) % p.q)).2 ≠ r1 := by simp [mkhF]

theorem mkhF_eq_zero_iff {z0 r1 : Nat} :
    mkhF p z0 r1 = 0 ↔ (decF p ((z0 + p.alpha * r1) % p.q)).2 = r1 := by simp [mkhF]

/-- R74: the closed form of hint 0. Adding ALPHA·r1 leaves z below Q or takes it past Q once; either way the high part
stays r1 exactly near a multiple of Q. -/
theorem mkhF_closed_form (wf : p.WF) {z0 r1 : Nat} (hr : r1 < p.m) :
    mkhF p z0 r1 = 0 ↔
      z0 % p.q ≤ p.gamma2 ∨ p.q - p.gamma2 < z0 % p.q ∨ (z0 % p.q = p.q - p.gamma2 ∧ r1 = 0) := by
  obtain ⟨hg, hg4⟩ := wf.gamma2_bounds
  have hal := p.alpha_eq
  have hbelow := wf.alpha_mul_add_lt hr
  have hz : z0 % p.q < p.q := Nat.mod_lt _ wf.q_pos
  have hr1 : r1 ≠ 0 → p.alpha ≤ p.alpha * r1 := fun h => Nat.le_mul_of_pos_right _ (Nat.pos_of_ne_zero h)
  have hr0 : r1 = 0 → p.alpha * r1 = 0 := fun h => by rw [h, Nat.mul_zero]
  rw [mkhF_eq_zero_iff, ← Nat.mod_add_mod]
  generalize z0 % p.q = z at hz
  by_cases hsum : z + p.alpha * r1 < p.q
  · rw [Nat.mod_eq_of_lt hsum, decF_high_eq_iff wf hsum hr]
    omega
  · have hsub : z + p.alpha * r1 - p.q < p.q := by omega
    rw [Nat.mod_eq_sub_mod (by omega), Nat.mod_eq_of_lt hsub, decF_high_eq_iff wf hsub hr]
    omega

theorem usehF_zero (p : Params) (r : Nat) : usehF p r 0 = (decF p (r % p.q)).2 := rfl

theorem usehF_up {r : Nat} (h : p.q < (decF p (r % p.q)).1) :
    usehF p r 1 = ((decF p (r % p.q)).2 + 1) % p.m := if_pos h

theorem usehF_down {r : Nat} (h : (decF p (r % p.q)).1 ≤ p.q) :
    usehF p r 1 = ((decF p (r % p.q)).2 + p.m - 1) % p.m := if_neg (Nat.not_lt.2 h)

theorem usehF_lt (wf : p.WF) (r h : Nat) : usehF p r h < p.m := by
  have hd := decF_high_lt wf (Nat.mod_lt r wf.q_pos)
  have hm := Nat.zero_lt_of_lt hd
  unfold usehF
  dsimp only
  split
  · exact hd
  · split <;> exact Nat.mod_lt _ hm

/-- A perturbation of ALPHA·k by at most ALPHA stays in [0, Q), or takes 0 below 0, where Q is added. -/
theorem perturbed_cases (wf : p.WF) {x k : Nat} {s : Int} (hk : k < p.m) (hlo : -(p.alpha : Int) ≤ s)
    (hhi : s ≤ p.alpha) (hx : (x : Int) = (p.alpha * k + s) % p.q) :
    (x : Int) = p.alpha * k + s ∨ (k = 0 ∧ s < 0 ∧ (x : Int) = p.q + s) := by
  have hbelow := wf.alpha_mul_add_lt hk
  by_cases h0 : 0 ≤ p.alpha * k + s
  · exact .inl (by rw [hx, Int.emod_eq_of_lt h0 (by omega)])
  · have hk0 : k = 0 := by
      by_contra hk0
      have h := Nat.le_mul_of_pos_right p.alpha (Nat.pos_of_ne_zero hk0)
      omega
    subst hk0
    have hs : s < 0 := by simpa using h0
    refine .inr ⟨rfl, hs, ?_⟩
    rw [hx, Nat.cast_zero, mul_zero, zero_add, ← Int.add_emod_right, Int.emod_eq_of_lt (by omega) (by omega),
      Int.add_comm]

/-- Where a perturbation s of ALPHA·k leaves the high part k, the new one is next to k modulo M, and the sign of the
new low part says on which side. The cases: the new input lies below the wrap point or not, and the perturbation passed
0 or not. -/
theorem decF_crossed (wf : p.WF) {x k : Nat} {s : Int} (hxq : x < p.q) (hk : k < p.m) (hlo : -(p.alpha : Int) ≤ s)
    (hhi : s ≤ p.alpha) (h0 : s = -p.alpha → k = 0) (hx : (x : Int) = (p.alpha * k + s) % p.q)
    (hne : (decF p x).2 ≠ k) :
    (p.q < (decF p x).1 ∧ ((decF p x).2 + 1) % p.m = k) ∨
    ((decF p x).1 ≤ p.q ∧ ((decF p x).2 + p.m - 1) % p.m = k) := by
  have hal := p.alpha_eq
  have hq := wf.q_eq
  have hbelow := wf.alpha_mul_add_lt hk
  rcases decF_cases wf hxq with ⟨a0, hd, heq, halo, hahi, hm⟩ | ⟨hwrap, hd⟩ <;>
    rcases perturbed_cases wf hk hlo hhi hx with hx | ⟨rfl, hs, hx⟩
  · -- Both are within GAMMA2 and ALPHA of their multiples, so the high parts are neighbours.
    have hle : (decF p x).2 < k + 2 := lt_add_of_mul_lt (w := p.alpha) 2 (by omega)
    have hge : k < (decF p x).2 + 2 := lt_add_of_mul_lt (w := p.alpha) 2 (by omega)
    rcases (show k = (decF p x).2 + 1 ∨ (decF p x).2 = k + 1 by omega) with h | h
    · have hstep : p.alpha * k = p.alpha * (decF p x).2 + p.alpha := by rw [h, Nat.mul_succ]
      exact .inl ⟨by omega, by rw [← h, Nat.mod_eq_of_lt hk]⟩
    · have hstep : p.alpha * (decF p x).2 = p.alpha * k + p.alpha := by rw [h, Nat.mul_succ]
      refine .inr ⟨by omega, ?_⟩
      rw [h, show k + 1 + p.m - 1 = k + p.m by omega, Nat.add_mod_right, Nat.mod_eq_of_lt hk]
  · -- Below 0 the residue is near Q − 1, M steps of ALPHA: the high part is M − 1 and its successor 0.
    have hge : p.m < (decF p x).2 + 2 := lt_add_of_mul_lt (w := p.alpha) 2 (by omega)
    have h : p.m = (decF p x).2 + 1 := by omega
    rw [h, Nat.mul_succ] at hq
    refine .inl ⟨by omega, ?_⟩
    rw [← h, Nat.mod_self]
  · -- From the wrap point on the high part is 0, so k is its predecessor M − 1.
    have hge : p.m < k + 2 := lt_add_of_mul_lt (w := p.alpha) 2 (by omega)
    rw [hd] at hne ⊢
    refine .inr ⟨hxq.le, ?_⟩
    rw [Nat.zero_add, Nat.mod_eq_of_lt (by omega)]
    omega
  · exact absurd (congrArg Prod.snd hd) hne

/-- R72: modulo Q, w is ALPHA times its high part plus a low part a0 within GAMMA2; the first result is Q + a0. -/
theorem decF_congr (wf : p.WF) {w : Nat} (hw : w < p.q) :
    ∃ a0 : Int, ((decF p w).1 : Int) = p.q + a0 ∧ -(p.gamma2 : Int) ≤ a0 ∧ a0 ≤ p.gamma2 ∧
      (a0 = -p.gamma2 → (decF p w).2 = 0) ∧ (w : Int) ≡ p.alpha * (decF p w).2 + a0 [ZMOD p.q] := by
  rcases decF_cases wf hw with ⟨a0, hd, heq, hlo, hhi, -⟩ | ⟨hwrap, hd⟩
  · exact ⟨a0, hd, by omega, hhi, by omega, by rw [heq, add_comm]⟩
  · refine ⟨w - p.q, by rw [hd]; simp, by omega, by omega, fun _ => by rw [hd], ?_⟩
    rw [hd]
    simp [Int.ModEq]

/-- R76: useHint of any r ≡ w − f, with the hint that makeHint makes of any z0 ≡ w0 − f and the high part of w, gives
that high part. Both look at the same residue, that of ALPHA times the high part plus a0 − f. -/
theorem usehF_mkhF (wf : p.WF) {w z0 r : Nat} {f : Int} (hw : w < p.q) (hlo : -(p.gamma2 : Int) ≤ f)
    (hhi : f ≤ p.gamma2) (hz : (z0 : Int) ≡ (decF p w).1 - f [ZMOD p.q]) (hr : (r : Int) ≡ w - f [ZMOD p.q]) :
    usehF p r (mkhF p z0 (decF p w).2) = (decF p w).2 := by
  have hal := p.alpha_eq
  have hk := decF_high_lt wf hw
  obtain ⟨a0, hd, ha0, ha0', ha00, hcongr⟩ := decF_congr wf hw
  have hr' : (r : Int) ≡ p.alpha * (decF p w).2 + (a0 - f) [ZMOD p.q] := by
    rw [← add_sub_assoc]
    exact hr.trans (hcongr.sub_right f)
  have hzr : (z0 + p.alpha * (decF p w).2) % p.q = r % p.q := by
    have h : (z0 : Int) + p.alpha * (decF p w).2 ≡ r [ZMOD p.q] := by
      refine (hz.add_right _).trans (Int.ModEq.trans ?_ hr'.symm)
      rw [hd, show (p.q : Int) + a0 - f + p.alpha * (decF p w).2 = p.alpha * (decF p w).2 + (a0 - f) + p.q by ring]
      exact Int.add_emod_right ..
    exact_mod_cast h
  by_cases hsame : (decF p (r % p.q)).2 = (decF p w).2
  · rw [mkhF_eq_zero_iff.2 (by rw [hzr, hsame]), usehF_zero, hsame]
  · rw [mkhF_eq_one_iff.2 (by rwa [hzr])]
    rcases decF_crossed wf (s := a0 - f) (Nat.mod_lt r wf.q_pos) hk (by omega) (by omega) (fun h => ha00 (by omega))
      (by exact_mod_cast hr') hsame with ⟨h, hup⟩ | ⟨h, hdown⟩
    · rw [usehF_up h, hup]
    · rw [usehF_down h, hdown]

/-! ## reducePartial (R69, R70) -/

theorem rpRef_contract {x : Nat} (hx : x < 2 ^ 32) : rpRef x < 2 * 8380417 ∧ rpRef x % 8380417 = x % 8380417 := by
  unfold rpRef
  omega

theorem rpRef_word (x : Word) :
    rpRef x.toNat = (x.extractLsb' 0 23).toNat + (x.extractLsb' 23 9).toNat * (2 ^ 13 - 1) := by
  have hx := x.isLt
  rw [rpRef, BitVec.extractLsb'_toNat, BitVec.extractLsb'_toNat, Nat.shiftRight_eq_div_pow, Nat.shiftRight_eq_div_pow,
    pow_zero, Nat.div_one, Nat.mod_eq_of_lt (show x.toNat / 2 ^ 23 < 2 ^ 9 by omega)]

theorem rpF_ref (h : p.rp = .ref) (x : Nat) : rpF p x = rpRef x := by rw [rpF, h]

/-- R69, on every chip: RP_REF meets the contract for its Q, and the other chips choose one of the two values that
do. -/
theorem rpF_contract (wf : p.WF) {x : Nat} (hx : x < 2 ^ 32) : rpF p x < 2 * p.q ∧ rpF p x % p.q = x % p.q := by
  cases hrp : p.rp with
  | ref =>
    rw [rpF_ref hrp, wf.wf10 hrp]
    exact rpRef_contract hx
  | contractOnly =>
    have hlt : x % p.q < p.q := Nat.mod_lt x wf.q_pos
    simp only [rpF, hrp]
    split
    · exact ⟨by omega, by rw [Nat.add_mod_right, Nat.mod_mod]⟩
    · exact ⟨by omega, by rw [Nat.add_zero, Nat.mod_mod]⟩

/-! ## Results as words (R77) -/

theorem rfullF_toNat (wf : p.WF) (x : Word) : (u32 (rfullF p x.toNat)).toNat = x.toNat % p.q := by
  have h : x.toNat % p.q < p.q := Nat.mod_lt _ wf.q_pos
  have hq := wf.two_q_lt
  exact u32_toNat (by unfold rfullF; omega)

theorem rpF_toNat (wf : p.WF) (x : Word) : (u32 (rpF p x.toNat)).toNat = rpF p x.toNat := by
  obtain ⟨h, -⟩ := rpF_contract wf x.isLt
  exact u32_toNat (h.trans wf.two_q_lt)

theorem belowQ_toNat {f : Nat → Nat} {any x : Word} (hx : x.toNat < p.q) (hf : f x.toNat < 2 ^ 32) :
    (belowQ p f any x).toNat = f x.toNat := by rw [belowQ, if_pos hx, u32_toNat hf]

theorem p2rF_high_lt (wf : p.WF) {a : Nat} (ha : a < p.q) : (p2rF p a).2 < 2 ^ 9 := by
  obtain ⟨-, -, -, h511⟩ := wf.wf3
  have h := p2rF_high_le wf ha
  omega

theorem p2rF_lt (wf : p.WF) (a : Nat) (ha : a < p.q) : (p2rF p a).1 < 2 ^ 32 ∧ (p2rF p a).2 < 2 ^ 32 := by
  obtain ⟨a0, hlow, -, -, hhi⟩ := p2rF_spec wf a
  obtain ⟨-, hle⟩ := wf.two_pow_d
  obtain ⟨-, -, -, hq⟩ := wf.wf1
  have hhigh := p2rF_high_lt wf ha
  zify at hle
  omega

theorem decF_lt (wf : p.WF) (a : Nat) (ha : a < p.q) : (decF p a).1 < 2 ^ 32 ∧ (decF p a).2 < 2 ^ 32 := by
  have hq := wf.two_q_lt
  have hm := wf.m_lt_q
  have hlow := decF_low_lt wf ha
  have hhigh := decF_high_lt wf ha
  omega

/-- The two results of a split whose parts are words. -/
theorem belowQ_pair {f : Nat → Nat × Nat} (hf : ∀ a < p.q, (f a).1 < 2 ^ 32 ∧ (f a).2 < 2 ^ 32) {x : Word}
    (hx : x.toNat < p.q) (any any' : Word) :
    ((belowQ p (fun a => (f a).1) any x).toNat, (belowQ p (fun a => (f a).2) any' x).toNat) = f x.toNat := by
  obtain ⟨h1, h2⟩ := hf _ hx
  exact Prod.ext (belowQ_toNat hx h1) (belowQ_toNat hx h2)

theorem mkhLane_toNat {any z0 r1 : Word} (hz : z0.toNat < 2 * p.q) (hr : r1.toNat < p.m) :
    (mkhLane p any z0 r1).toNat = mkhF p z0.toNat r1.toNat := by
  have h := mkhF_le_one p z0.toNat r1.toNat
  rw [mkhLane, if_pos ⟨hz, hr⟩, u32_toNat (by omega)]

theorem usehLane_toNat (wf : p.WF) {any r h : Word} (hr : r.toNat < 2 * p.q) (hh : h.toNat < 2) :
    (usehLane p any r h).toNat = usehF p r.toNat h.toNat := by
  have hlt := usehF_lt wf r.toNat h.toNat
  have hm := wf.m_lt_q
  have hq := wf.two_q_lt
  rw [usehLane, if_pos ⟨hr, hh⟩, u32_toNat (by omega)]

/-! ## Scalar commands -/

theorem scalar_runs (h : Ready s) (ds : List Dest) (u : State) :
    command s true true ds (.next (succeed u)) = .next (succeed u) :=
  command_runs h.1 h.2 rfl rfl _ _

theorem scalarDone_results (s : State) (v w : Word) : Claims.ScalarDone s (succeed { s with res0 := v, res1 := w }) :=
  ⟨⟨rfl, rfl, rfl, rfl⟩, Kept.refl s, rfl, rfl, rfl⟩

/-- A scalar command of one result. -/
theorem scalar_res0_runs (h : Ready s) (ds : List Dest) (v : Word) :
    ∃ t, command s true true ds (.next (succeed { s with res0 := v })) = .next t ∧ Claims.ScalarDone s t ∧
      t.res1 = s.res1 ∧ t.res0 = v :=
  ⟨_, scalar_runs h ds _, scalarDone_results s v s.res1, rfl, rfl⟩

/-- A scalar command that splits ARG0 into two words. -/
theorem scalar_split_runs (h : Ready s) {f : Nat → Nat × Nat}
    (hf : ∀ a < s.params.q, (f a).1 < 2 ^ 32 ∧ (f a).2 < 2 ^ 32) (ds : List Dest) (any any' : Word) :
    ∃ t, command s true true ds (.next (succeed { s with
        res0 := belowQ s.params (fun a => (f a).1) any s.latched.arg0
        res1 := belowQ s.params (fun a => (f a).2) any' s.latched.arg0 })) = .next t ∧
      Claims.ScalarDone s t ∧
      (s.latched.arg0.toNat < s.params.q → (t.res0.toNat, t.res1.toNat) = f s.latched.arg0.toNat) :=
  ⟨_, scalar_runs h ds _, scalarDone_results s _ _, fun hx => belowQ_pair hf hx any any'⟩

theorem exec_rpart (h : Ready s) :
    ∃ t, exec .rpart s = .next t ∧ Claims.ScalarDone s t ∧ t.res1 = s.res1 ∧
      t.res0.toNat = rpF s.params s.latched.arg0.toNat := by
  obtain ⟨t, ht, hd, h1, h0⟩ := scalar_res0_runs h [.res0] (u32 (rpF s.params s.op0))
  exact ⟨t, ht, hd, h1, h0 ▸ rpF_toNat s.chip.wf _⟩

theorem exec_p2r (h : Ready s) :
    ∃ t, exec .p2r s = .next t ∧ Claims.ScalarDone s t ∧
      (s.latched.arg0.toNat < s.params.q → (t.res0.toNat, t.res1.toNat) = p2rF s.params s.latched.arg0.toNat) :=
  scalar_split_runs h (p2rF_lt s.chip.wf) [.res0, .res1] _ _

theorem exec_decomp (h : Ready s) :
    ∃ t, exec .decomp s = .next t ∧ Claims.ScalarDone s t ∧
      (s.latched.arg0.toNat < s.params.q → (t.res0.toNat, t.res1.toNat) = decF s.params s.latched.arg0.toNat) :=
  scalar_split_runs h (decF_lt s.chip.wf) [.res0, .res1] _ _

theorem exec_mkhint (h : Ready s) :
    ∃ t, exec .mkhint s = .next t ∧ Claims.ScalarDone s t ∧ t.res1 = s.res1 ∧
      (s.latched.arg0.toNat < 2 * s.params.q → s.latched.arg1.toNat < s.params.m →
        t.res0.toNat = mkhF s.params s.latched.arg0.toNat s.latched.arg1.toNat) := by
  obtain ⟨t, ht, hd, h1, h0⟩ := scalar_res0_runs h [.res0]
    (mkhLane s.params (Config.anyWord s.draws res0At) s.latched.arg0 s.latched.arg1)
  exact ⟨t, ht, hd, h1, fun hz hr => h0 ▸ mkhLane_toNat hz hr⟩

theorem exec_usehint (h : Ready s) :
    ∃ t, exec .usehint s = .next t ∧ Claims.ScalarDone s t ∧ t.res1 = s.res1 ∧
      (s.latched.arg0.toNat < 2 * s.params.q → s.latched.arg1.toNat < 2 →
        t.res0.toNat = usehF s.params s.latched.arg0.toNat s.latched.arg1.toNat) := by
  obtain ⟨t, ht, hd, h1, h0⟩ := scalar_res0_runs h [.res0]
    (usehLane s.params (Config.anyWord s.draws res0At) s.latched.arg0 s.latched.arg1)
  exact ⟨t, ht, hd, h1, fun hr hh => h0 ▸ usehLane_toNat s.chip.wf hr hh⟩

/-! ## Lanes of the poly-wise commands (R85) -/

theorem lanes_map_range (f : Nat → Word → Word) (n : Nat) (c : Nat → Word) :
    lanes f ((List.range n).map c) = (List.range n).map fun i => f i (c i) :=
  List.ext_getElem (by simp) fun i _ _ => by simp [lanes]

theorem lanes2_map_range (f : Nat → Word → Word → Word) (n : Nat) (c d : Nat → Word) :
    lanes2 f ((List.range n).map c) ((List.range n).map d) = (List.range n).map fun i => f i (c i) (d i) :=
  List.ext_getElem (by simp [lanes2_length]) fun i _ _ => by simp [lanes2]

/-- The 256 coefficients written to a slot are what it holds. -/
theorem holdsSlot_writeCoeffs {m : Memory} (hm : m.wf) (n : Nat) (c : Nat → Word) :
    HoldsSlot (writeCoeffs m n ((List.range ringDegree).map c)) n c := by
  intro i hi
  rw [readCoeff_writeCoeffs hm n i _ (by simpa using hi), List.getElem?_map, List.getElem?_range hi, Option.map_some]

/-- A write of another slot leaves what a slot holds. -/
theorem holdsSlot_writeCoeffs_of_ne {m : Memory} (hm : m.wf) {n k : Nat} (hnk : n ≠ k) {cs : List Word}
    (hl : cs.length = ringDegree) {c : Nat → Word} (h : HoldsSlot m n c) : HoldsSlot (writeCoeffs m k cs) n c := by
  intro i hi
  rw [writeCoeffs, readCoeff_writeBytes_disjoint hm, h i hi]
  rw [flatMap_bytesOfWord_length, hl]
  simp only [coeffAddr, ringDegree]
  omega

/-- What a command leaves that wrote slots only. -/
theorem WritesOnly.wroteSlots {slots : List Nat} (h : WritesOnly (slots.map .slot) s u) (hf : u.fatal = s.fatal)
    (dfail : Bool) : WroteSlots s (complete u .ok dfail) slots dfail := by
  refine ⟨⟨rfl, rfl, rfl, rfl⟩, h.kept, ⟨h.res0 (by simp), h.res1 (by simp), h.xcnt (by simp), hf⟩,
    fun x hx => h.bytes x fun d hd => ?_⟩
  obtain ⟨n, hn, rfl⟩ := List.mem_map.1 hd
  exact hx n hn

section lanes

variable {a b c : Slot} (hs : Ready s) (hm : s.mem.wf) (ha : a.toNat < s.params.npoly) (hb : b.toNat < s.params.npoly)
include hs hm ha hb

/-- A poly-wise command of one source leaves its function of every lane in slot a. -/
theorem polyUnary_holds {x : Nat → Word} (hx : HoldsSlot s.mem b.toNat x) (f : Nat → Word → Word) :
    ∃ t, polyUnary s a b f = .next t ∧ WroteSlots s t [a.toNat] false ∧
      HoldsSlot t.mem a.toNat fun i => f i (x i) := by
  refine ⟨_, polyUnary_runs hs.1 hs.2 ha hb (readSlot_of_coeffs hm hx), ?_, ?_⟩
  · exact (writesOnly_slot (s := s) a.toNat (by simp)).wroteSlots (slots := [a.toNat]) rfl false
  · rw [lanes_map_range]
    exact holdsSlot_writeCoeffs hm _ _

/-- A poly-wise command of two sources leaves its function of every two lanes in slot a. -/
theorem polyBinary_holds (hc : c.toNat < s.params.npoly) {x y : Nat → Word} (hx : HoldsSlot s.mem b.toNat x)
    (hy : HoldsSlot s.mem c.toNat y) (f : Nat → Word → Word → Word) :
    ∃ t, polyBinary s a b c f = .next t ∧ WroteSlots s t [a.toNat] false ∧
      HoldsSlot t.mem a.toNat fun i => f i (x i) (y i) := by
  refine ⟨_, polyBinary_runs hs.1 hs.2 ha hb hc (readSlot_of_coeffs hm hx) (readSlot_of_coeffs hm hy), ?_, ?_⟩
  · exact (writesOnly_slot (s := s) a.toNat (by simp [lanes2_map_range])).wroteSlots (slots := [a.toNat]) rfl false
  · rw [lanes2_map_range]
    exact holdsSlot_writeCoeffs hm _ _

/-- A poly-wise command of two destinations leaves its functions of every lane in slots a and c. -/
theorem polySplit_holds (hac : a ≠ c) (hc : c.toNat < s.params.npoly) {x : Nat → Word}
    (hx : HoldsSlot s.mem b.toNat x) (lo hi : Nat → Word → Word) :
    ∃ t, polySplit s a b c lo hi = .next t ∧ WroteSlots s t [a.toNat, c.toNat] false ∧
      (HoldsSlot t.mem a.toNat fun i => lo i (x i)) ∧ HoldsSlot t.mem c.toNat fun i => hi i (x i) := by
  refine ⟨_, polySplit_runs hs.1 hs.2 hac ha hb hc (readSlot_of_coeffs hm hx), ?_, ?_⟩
  · exact ((writesOnly_slot (s := s) a.toNat (by simp)).trans (writesOnly_slot c.toNat (by simp))).wroteSlots
      (slots := [a.toNat, c.toNat]) rfl false
  · rw [lanes_map_range, lanes_map_range]
    have hwf := writeCoeffs_wf hm a.toNat
    have hne := mt BitVec.eq_of_toNat_eq hac
    exact ⟨holdsSlot_writeCoeffs_of_ne (hwf _) hne (by simp) (holdsSlot_writeCoeffs hm _ _),
      holdsSlot_writeCoeffs (hwf _) _ _⟩

/-- A poly-wise command that splits every lane into two words. -/
theorem polySplit_lanes (hac : a ≠ c) (hc : c.toNat < s.params.npoly) {x : Nat → Word}
    (hx : HoldsSlot s.mem b.toNat x) {f : Nat → Nat × Nat}
    (hf : ∀ v < s.params.q, (f v).1 < 2 ^ 32 ∧ (f v).2 < 2 ^ 32) (any any' : Nat → Word) :
    ∃ t, polySplit s a b c (fun i v => belowQ s.params (fun v => (f v).1) (any i) v)
        (fun i v => belowQ s.params (fun v => (f v).2) (any' i) v) = .next t ∧
      WroteSlots s t [a.toNat, c.toNat] false ∧
      ∀ i < 256, ∃ lo hi, readCoeff t.mem a.toNat i = some lo ∧ readCoeff t.mem c.toNat i = some hi ∧
        ((x i).toNat < s.params.q → (lo.toNat, hi.toNat) = f (x i).toNat) := by
  obtain ⟨t, ht, hw, hlo, hhi⟩ := polySplit_holds hs hm ha hb hac hc hx _ _
  exact ⟨t, ht, hw, fun i hi => ⟨_, _, hlo i hi, hhi i hi, fun hq => belowQ_pair hf hq (any i) (any' i)⟩⟩

end lanes

end Sys2Proof.Machine

namespace Sys2Proof.Proofs

open Sys2Proof.Machine Sys2Proof.Claims

/-- Settles O10: every chip's RP meets the contract. -/
theorem rpartMeetsContract : Obligations.RpartMeetsContract := by
  intro s h
  obtain ⟨t, ht, hd, h1, h0⟩ := exec_rpart h
  exact ⟨t, ht, hd, h1, h0 ▸ rpF_contract s.chip.wf s.latched.arg0.isLt⟩

/-- Settles O12, from the parts of power2round. -/
theorem p2rDecomposes : Obligations.P2rDecomposes := by
  intro s h
  have wf : s.params.WF := s.chip.wf
  obtain ⟨t, ht, hd, hres⟩ := exec_p2r h
  refine ⟨t, ht, hd, fun hx => ?_⟩
  obtain ⟨a0, hlow, heq, hlo, hhi⟩ := p2rF_spec wf s.latched.arg0.toNat
  have hle := p2rF_high_le wf hx
  have hlt := p2rF_high_lt wf hx
  rw [← hres hx] at hlow heq hle hlt
  exact ⟨a0, hlow, heq, hlo, hhi, hle, hlt⟩

/-- Settles O13: the wrap point splits the domain at Q − GAMMA2. -/
theorem decompDecomposes : Obligations.DecompDecomposes := by
  intro s h
  have wf : s.params.WF := s.chip.wf
  obtain ⟨t, ht, hd, hres⟩ := exec_decomp h
  refine ⟨t, ht, hd, fun hx => ?_, fun hlo hx => ?_⟩
  · have hxq : s.latched.arg0.toNat < s.params.q := by omega
    rcases decF_cases wf hxq with hcase | ⟨hwrap, -⟩
    · rwa [← hres hxq] at hcase
    · omega
  · rcases decF_cases wf hx with ⟨a0, -, heq, -, hhi, hm⟩ | ⟨-, hwrap⟩
    · have hbelow := wf.alpha_mul_add_lt hm
      have hal := s.params.alpha_eq
      omega
    · obtain ⟨h0, h1⟩ := Prod.ext_iff.1 ((hres hx).trans hwrap)
      exact ⟨BitVec.eq_of_toNat_eq h0, BitVec.eq_of_toNat_eq h1⟩

/-- Settles O14, from the closed form of R74. -/
theorem mkhintClosedForm : Obligations.MkhintClosedForm := by
  intro s h
  obtain ⟨t, ht, hd, h1, hres⟩ := exec_mkhint h
  refine ⟨t, ht, hd, h1, fun hz hr => ?_⟩
  have hres := hres hz hr
  have hle := mkhF_le_one s.params s.latched.arg0.toNat s.latched.arg1.toNat
  have h0 : t.res0 = 0 ↔ mkhF s.params s.latched.arg0.toNat s.latched.arg1.toNat = 0 := by
    rw [← BitVec.toNat_inj, hres]; rfl
  have h1 : t.res0 = 1 ↔ mkhF s.params s.latched.arg0.toNat s.latched.arg1.toNat = 1 := by
    rw [← BitVec.toNat_inj, hres]; rfl
  refine ⟨?_, h1.trans mkhF_eq_one_iff, h0.trans (mkhF_closed_form s.chip.wf hr)⟩
  rw [h0, h1]
  omega

/-- Settles O16, from the round trip of the three functions. -/
theorem hintRoundTrip : Obligations.HintRoundTrip := by
  intro s1 s2 s3 f h1 h2 h3 hc2 hc3 hw hlo hhi
  have wf := s1.chip.wf
  have hp2 : s2.params = s1.params := congrArg Chip.params hc2
  have hp3 : s3.params = s1.params := congrArg Chip.params hc3
  obtain ⟨t1, ht1, -, hres1⟩ := exec_decomp h1
  obtain ⟨t2, ht2, -, -, hres2⟩ := exec_mkhint h2
  obtain ⟨t3, ht3, -, -, hres3⟩ := exec_usehint h3
  obtain ⟨hlow, hhigh⟩ := Prod.ext_iff.1 (hres1 hw)
  simp only at hlow hhigh
  refine ⟨t1, ht1, fun hz harg hzc => ⟨t2, ht2, fun hr harg' hrc => ⟨t3, ht3, BitVec.eq_of_toNat_eq ?_⟩⟩⟩
  rw [hp2, harg, hhigh] at hres2
  have hhint := hres2 hz (decF_high_lt wf hw)
  have hle := mkhF_le_one s1.params s2.latched.arg0.toNat (decF s1.params s1.latched.arg0.toNat).2
  rw [hp3, harg', hhint] at hres3
  rw [hres3 hr (by omega), hhigh]
  rw [hlow] at hzc
  exact usehF_mkhF wf hw hlo hhi hzc hrc

/-- Settles O17, lane by lane. -/
theorem polyReduceLanes : Obligations.PolyReduceLanes := by
  intro s a b c hs hm ha hb hc
  have wf : s.params.WF := s.chip.wf
  constructor
  · obtain ⟨t, ht, hw, hlane⟩ := polyUnary_holds hs hm ha hb hc fun _ x => u32 (rfullF s.params x.toNat)
    exact ⟨t, ht, hw, fun i hi => ⟨_, hlane i hi, rfullF_toNat wf _⟩⟩
  · obtain ⟨t, ht, hw, hlane⟩ := polyUnary_holds hs hm ha hb hc fun _ x => u32 (rpF s.params x.toNat)
    refine ⟨t, ht, hw, fun i hi => ⟨_, hlane i hi, ?_⟩⟩
    obtain ⟨hlt, hmod⟩ := rpF_contract wf (c i).isLt
    rw [rpF_toNat wf]
    exact ⟨hlt, hmod, fun hrp => (rpF_ref hrp _).trans (rpRef_word _)⟩

/-- Settles O18: the parts of both splits are words. -/
theorem polySplitLanes : Obligations.PolySplitLanes := fun s a _ c _ hs hm hac ha hb hc hx =>
  ⟨polySplit_lanes hs hm ha hb hac hc hx (p2rF_lt s.chip.wf) (anyLane s a) (anyLane s c),
    polySplit_lanes hs hm ha hb hac hc hx (decF_lt s.chip.wf) (anyLane s a) (anyLane s c)⟩

/-- Settles O19, lane by lane. -/
theorem polyHintLanes : Obligations.PolyHintLanes := by
  intro s a b c x y hs hm ha hb hc hx hy
  constructor
  · obtain ⟨t, ht, hw, hlane⟩ := polyBinary_holds hs hm ha hb hc hx hy
      fun i z0 r1 => mkhLane s.params (anyLane s a i) z0 r1
    exact ⟨t, ht, hw, fun i hi => ⟨_, hlane i hi, mkhLane_toNat⟩⟩
  · obtain ⟨t, ht, hw, hlane⟩ := polyBinary_holds hs hm ha hb hc hx hy
      fun i r h => usehLane s.params (anyLane s a i) r h
    exact ⟨t, ht, hw, fun i hi => ⟨_, hlane i hi, usehLane_toNat s.chip.wf⟩⟩

/-- Settles O8: NOP's body is its completion. -/
theorem nopOnlyCompletes : Obligations.NopOnlyCompletes := fun s h =>
  ⟨_, scalar_runs h [] s, onlyReports_complete s .ok⟩

/-- Settles O9: the remainder by Q is a word. -/
theorem rfullReduces : Obligations.RfullReduces := by
  intro s h
  obtain ⟨t, ht, hd, h1, h0⟩ := scalar_res0_runs h [.res0] (u32 (rfullF s.params s.op0))
  exact ⟨t, ht, hd, h1, h0 ▸ rfullF_toNat s.chip.wf _⟩

/-- Settles O11: the two fields of RP_REF are the bits 22:0 and 31:23 of the operand. -/
theorem rpartRefValue : Obligations.RpartRefValue := by
  intro s h hrp
  obtain ⟨t, ht, hd, h1, h0⟩ := exec_rpart h
  exact ⟨t, ht, hd, h1, h0.trans ((rpF_ref hrp _).trans (rpRef_word _))⟩

/-- Settles O15, by the hint and the sign of the low part. -/
theorem usehintCorrects : Obligations.UsehintCorrects := by
  intro s h
  obtain ⟨t, ht, hd, h1, hres⟩ := exec_usehint h
  refine ⟨t, ht, hd, h1, fun hr => ⟨fun hh => ?_, fun hh hlow => ?_, fun hh hlow => ?_⟩⟩ <;> rw [hh] at hres
  · exact (hres hr (by decide)).trans (usehF_zero _ _)
  · exact (hres hr (by decide)).trans (usehF_up hlow)
  · exact (hres hr (by decide)).trans (usehF_down hlow)

end Sys2Proof.Proofs
end

