-- ==== Sys2Proof/Proofs/NoiseSampler.lean ====
section
/-! SUPPORT. 41_noise_sampler.md: what the failure draw decides, the bits of a CBD coefficient, the slot that UNIF fills
through TANGLE, and a UNIF that the host leaves alone. -/

namespace Sys2Proof.Machine

variable {s t u : State} {a : Slot} {p : Params} {l : UnifLoop}

/-! ## The failure draw and the frame (R93) -/

/-- A sampler's body that answers `u` answers, by the failure draw, the failed stream's completion or `u`. -/
theorem unlessXofFails_answers (s u : State) (ds : List Dest) :
    ∃ t, unlessXofFails s ds (.next u) = .next t ∧
      ((Config.xofFails s.draws = true ∧ t = failXof s ds) ∨ (Config.xofFails s.draws = false ∧ t = u)) := by
  cases hx : Config.xofFails s.draws with
  | true => exact ⟨_, by rw [unlessXofFails, hx, if_pos rfl], .inl ⟨rfl, rfl⟩⟩
  | false => exact ⟨_, by rw [unlessXofFails, hx, if_neg Bool.false_ne_true], .inr ⟨rfl, rfl⟩⟩

/-- A completion keeps what its destinations' writes kept. -/
theorem WritesOnly.completed {ds : List Dest} (h : WritesOnly ds s u) (e : ErrCode) (dfail : Bool) :
    WritesOnly ds s (complete u e dfail) :=
  ⟨h.kept, h.res0, h.res1, h.xcnt, h.canonical, h.bytes⟩

theorem writesOnly_failXof (s : State) (ds : List Dest) : WritesOnly ds s (failXof s ds) :=
  ((writesOnly_anyAll s ds).with_fatal true).completed .xofFail false

theorem failXof_reports (s : State) (ds : List Dest) :
    Completed (failXof s ds) .xofFail false ∧ (failXof s ds).fatal = true :=
  ⟨⟨rfl, rfl, rfl, rfl⟩, rfl⟩

/-- A sampler's completion changes no result register and no byte outside its slot (R95, R98). -/
theorem WritesOnly.sampler_frame (h : WritesOnly (samplerDests a) s t) :
    Kept s t ∧ t.res0 = s.res0 ∧ t.res1 = s.res1 ∧
      ∀ x, ¬ InSlot a.toNat x → readByte t.mem x = readByte s.mem x := by
  refine ⟨h.kept, h.res0 (by simp [samplerDests]), h.res1 (by simp [samplerDests]), fun x hx => h.bytes x ?_⟩
  simp only [samplerDests, List.mem_cons, List.not_mem_nil, or_false]
  rintro d (rfl | rfl)
  · exact hx
  · exact id

/-! ## CBD2 and CBD3 (R94 to R96) -/

/-- The sum of w bits of a stream from bit k on: the a and the b of a CBD group. -/
def bitSum (B : Nat → Byte) (k w : Nat) : Nat := ((List.range w).map fun j => bitAt B (k + j)).sum

theorem bitSum_le (B : Nat → Byte) (k w : Nat) : bitSum B k w ≤ w := by
  have h := List.sum_le_card_nsmul ((List.range w).map fun j => bitAt B (k + j)) 1 (by
    simp only [List.mem_map]
    rintro _ ⟨j, -, rfl⟩
    exact Nat.le_of_lt_succ (Nat.mod_lt _ two_pos))
  simpa [bitSum] using h

/-- A bit of a stream's first n bytes, read as one number, is that bit of the stream. -/
theorem numOfBytes_stream_bit (B : Nat → Byte) {n j : Nat} (hj : j < 8 * n) :
    numOfBytes ((List.range n).map B) / 2 ^ j % 2 = bitAt B j := by
  have hn : j / 8 < n := Nat.div_lt_of_lt_mul hj
  simp [numOfBytes_bit, bitAt, hn]

theorem popcount_eq_sum (w x : Nat) : popcount w x = ((List.range w).map fun j => x / 2 ^ j % 2).sum := by
  refine congrArg List.sum (List.ext_getElem? fun j => ?_)
  by_cases hj : j < w
  · rw [digits_getElem? 1 w x j hj, List.getElem?_map, List.getElem?_range hj]
    simp
  · rw [List.getElem?_eq_none (by simpa using hj), List.getElem?_eq_none (by simpa using hj)]

/-- The popcount of w bits within a stream's first n bytes. -/
theorem popcount_stream (B : Nat → Byte) {n k w : Nat} (h : k + w ≤ 8 * n) :
    popcount w (numOfBytes ((List.range n).map B) / 2 ^ k % 2 ^ w) = bitSum B k w := by
  rw [popcount_eq_sum, bitSum]
  refine congrArg List.sum (List.map_congr_left fun j hj => ?_)
  have hj : j < w := List.mem_range.1 hj
  rw [mod_two_pow_bit w j _ hj, Nat.div_div_eq_div_mul, ← pow_add, numOfBytes_stream_bit B (by omega)]

/-- Coefficient n of CBD is Q + a − b of group n of the stream. -/
theorem cbdCoeffs_getElem? (q eta : Nat) (B : Nat → Byte) {n : Nat} (hn : n < ringDegree) :
    (cbdCoeffs q eta ((List.range (64 * eta)).map B))[n]? =
      some (u32 (q + bitSum B (2 * eta * n) eta - bitSum B (2 * eta * n + eta) eta)) := by
  have hend : 2 * eta * n + 2 * eta ≤ 8 * (64 * eta) :=
    calc 2 * eta * n + 2 * eta = 2 * eta * (n + 1) := rfl
      _ ≤ 2 * eta * 256 := Nat.mul_le_mul_left _ hn
      _ = 8 * (64 * eta) := by omega
  have hpow : 2 ^ (2 * eta) = 2 ^ eta * 2 ^ eta := by rw [two_mul, pow_add]
  rw [cbdCoeffs, List.getElem?_map, fields, digits_getElem? _ _ _ _ hn, Option.map_some, hpow,
    Nat.mod_mul_right_mod, Nat.mod_mul_right_div_self, Nat.div_div_eq_div_mul, ← pow_add,
    popcount_stream B (by omega), popcount_stream B (by omega)]

theorem readCoeff_cbdCoeffs {m : Memory} (hm : m.wf) (k q eta : Nat) (B : Nat → Byte) {n : Nat} (hn : n < ringDegree) :
    readCoeff (writeCoeffs m k (cbdCoeffs q eta ((List.range (64 * eta)).map B))) k n =
      some (u32 (q + bitSum B (2 * eta * n) eta - bitSum B (2 * eta * n + eta) eta)) := by
  rw [readCoeff_writeCoeffs hm k n _ (by rwa [cbdCoeffs_length]), cbdCoeffs_getElem? q eta B hn]

/-- CBD's coefficient is a word in [Q − η, Q + η]. -/
theorem cbdWord_toNat (wf : p.WF) {eta x y : Nat} (heta : eta ≤ 3) (hx : x ≤ eta) (hy : y ≤ eta) :
    ((u32 (p.q + x - y)).toNat : Int) = p.q + x - y ∧
      p.q - eta ≤ (u32 (p.q + x - y)).toNat ∧ (u32 (p.q + x - y)).toNat ≤ p.q + eta := by
  obtain ⟨-, -, hlo, hhi⟩ := wf.wf1
  rw [u32_toNat (by omega)]
  omega

theorem cbd_runs {eta : Nat} {seed : List Byte} (hs : Ready s) (ha : a.toNat < s.params.npoly)
    (hseed : readSeed s.mem s.params = some seed) :
    cbd s eta a = unlessXofFails s (samplerDests a) (.next (succeed
      { s with
        mem := writeCoeffs s.mem a.toNat
          (cbdCoeffs s.params.q eta ((List.range (64 * eta)).map (Config.xofN (seed ++ [s.argByte0]))))
        xcnt := u32 (64 * eta) })) := by
  rw [cbd, command_runs hs.1 hs.2 rfl (slotInRange_eq ha), hseed, withRead_some]

/-! ## The chunks of UNIF (R98) -/

theorem unifChunk_lt (p : Params) (B : Nat → Byte) (j : Nat) : unifChunk p B j < 2 ^ p.ukeep :=
  Nat.mod_lt _ (Nat.two_pow_pos _)

theorem unifNext_length_le (p : Params) (l : UnifLoop) : (unifNext p l).accepted.length ≤ l.accepted.length + 1 := by
  simp only [unifNext]
  split <;> simp

/-- Where 2^UKEEP ≤ Q no chunk is rejected (R100). -/
theorem unifNext_length (hq : 2 ^ p.ukeep ≤ p.q) (l : UnifLoop) :
    (unifNext p l).accepted.length = l.accepted.length + 1 := by
  simp only [unifNext, if_pos (Nat.lt_of_lt_of_le (unifChunk_lt p _ _) hq), List.length_append, List.length_singleton]

/-- A chunk keeps every accepted value below Q and 2^UKEEP (R99). -/
theorem unifNext_bounded (wf : p.WF) (h : ∀ v ∈ l.accepted, v.toNat < p.q ∧ v.toNat < 2 ^ p.ukeep) :
    ∀ v ∈ (unifNext p l).accepted, v.toNat < p.q ∧ v.toNat < 2 ^ p.ukeep := by
  simp only [unifNext]
  split
  · next hlt =>
    intro v hv
    rcases List.mem_append.1 hv with hv | hv
    · exact h v hv
    · have hq := wf.two_q_lt
      rw [List.mem_singleton.1 hv, u32_toNat (by omega)]
      exact ⟨hlt, unifChunk_lt p _ _⟩
  · exact h

/-! ## The slot that UNIF fills (R101) -/

theorem foldl_set_getElem?_of_notMem {xs : List (Nat × Word)} {n : Nat} (h : n ∉ xs.map Prod.fst) (poly : List Word) :
    (xs.foldl (fun poly x => poly.set x.1 x.2) poly)[n]? = poly[n]? := by
  induction xs generalizing poly with
  | nil => rfl
  | cons x xs ih =>
    obtain ⟨hx, hxs⟩ := not_or.1 (mt List.mem_cons.2 h)
    rw [List.foldl_cons, ih hxs, List.getElem?_set_ne (Ne.symm hx)]

/-- With distinct places, every write stands at its place in the end. -/
theorem foldl_set_getElem? {xs : List (Nat × Word)} (hxs : (xs.map Prod.fst).Nodup) {n : Nat} {v : Word}
    (h : (n, v) ∈ xs) {poly : List Word} (hn : n < poly.length) :
    (xs.foldl (fun poly x => poly.set x.1 x.2) poly)[n]? = some v := by
  induction xs generalizing poly with
  | nil => cases h
  | cons x xs ih =>
    obtain ⟨hx, hnodup⟩ := List.nodup_cons.1 hxs
    rw [List.foldl_cons]
    rcases List.mem_cons.1 h with rfl | h
    · rw [foldl_set_getElem?_of_notMem hx, List.getElem?_set_self hn]
    · exact ih hnodup h (by rwa [List.length_set])

/-- Value i stands at coefficient TANGLE(i), since TANGLE takes no coefficient twice. -/
theorem tangled_getElem? (wf : p.WF) {acc : List Word} (hacc : acc.length = ringDegree) {i n : Nat} {v : Word}
    (hn : p.tangle[i]? = some n) (hv : acc[i]? = some v) : (tangled p acc)[n]? = some v := by
  obtain ⟨hlen, hnodup, hlt⟩ := wf.wf11
  refine foldl_set_getElem? ?_ ?_ ?_
  · rwa [List.map_fst_zip (by rw [hlen, hacc])]
  · exact List.mem_of_getElem? (List.getElem?_zip_eq_some.2 ⟨hn, hv⟩)
  · rw [List.length_replicate]
    exact hlt n (List.mem_of_getElem? hn)

/-- TANGLE is a bijection of the coefficients, so each of them is TANGLE of some i. -/
theorem exists_tangle (wf : p.WF) {n : Nat} (hn : n < 256) : ∃ i : Nat, i < 256 ∧ p.tangle[i]? = some n := by
  obtain ⟨hlen, hnodup, hlt⟩ := wf.wf11
  have hsub : p.tangle ⊆ List.range 256 := fun k hk => List.mem_range.2 (hlt k hk)
  have hperm := (hnodup.subperm hsub).perm_of_length_le (by rw [hlen, List.length_range])
  obtain ⟨i, hi, rfl⟩ := List.mem_iff_getElem.1 (hperm.mem_iff.2 (List.mem_range.2 hn))
  exact ⟨i, hlen ▸ hi, List.getElem?_eq_getElem hi⟩

theorem readCoeff_tangled {m : Memory} (hm : m.wf) (wf : p.WF) {acc : List Word} (hacc : acc.length = ringDegree)
    {i n : Nat} {v : Word} (hn : p.tangle[i]? = some n) (hv : acc[i]? = some v) (k : Nat) :
    readCoeff (writeCoeffs m k (tangled p acc)) k n = some v := by
  obtain ⟨-, -, hlt⟩ := wf.wf11
  rw [readCoeff_writeCoeffs hm k n _ ((tangled_length p acc).symm ▸ hlt n (List.mem_of_getElem? hn)),
    tangled_getElem? wf hacc hn hv]

/-! ## A step of UNIF (R100) -/

/-- The step of UNIF starts from the loop state `l`: that of a later step, or the empty one of a first step that finds
its slot on the chip and SEED written. -/
def UnifAt (s : State) (a : Slot) (l : UnifLoop) : Prop :=
  s.loop = some l ∨
    (s.loop = none ∧ a.toNat < s.params.npoly ∧
      ∃ seed, readSeed s.mem s.params = some seed ∧ l = ⟨seed ++ [s.argByte0, s.argByte1], 0, []⟩)

/-- A step of UNIF that nothing ends early makes its failure draw, then examines its chunk. -/
theorem exec_unif_runs (hs : Ready s) (h : UnifAt s a l) :
    ∃ t, exec (.unif a) s = .next t ∧
      ((Config.xofFails s.draws = true ∧ t = failXof s (samplerDests a)) ∨
        (Config.xofFails s.draws = false ∧ t = unifStep s a l)) := by
  have hexec : exec (.unif a) s = unlessXofFails s (samplerDests a) (.next (unifStep s a l)) := by
    show execUnif a s = _
    rcases h with h | ⟨h, ha, seed, hseed, rfl⟩
    · rw [execUnif, h]
      exact if_neg (Bool.eq_false_iff.1 hs.2)
    · rw [execUnif_first h, command_runs hs.1 hs.2 rfl (slotInRange_eq ha), hseed, withRead_some]
  rw [hexec]
  exact unlessXofFails_answers s _ _

theorem unifCount_toNat {j : Nat} (h : unifBytes s.params j < 2 ^ 32) :
    (unifCount s j).toNat = unifBytes s.params j := by rw [unifCount, if_pos h, u32_toNat h]

/-- The only byte places UNIF names are those of its slot. -/
theorem named_unif_iff {x : Nat} : Named (.unif a) s x ↔ InSlot a.toNat x := by
  simp [Named, destSlots, isPack]

/-! ## A UNIF that the host leaves alone (R121, log entry 6) -/

/-- A UNIF is under way from the loop state `l`, nothing can end it early, and the host has no step left. -/
structure UnifAlone (a : Slot) (l : UnifLoop) (s : State) : Prop where
  busy    : s.busy = true
  command : decode s.latched.word = .ok (.unif a)
  ready   : Ready s
  host    : s.host = []
  starts  : UnifAt s a l

theorem UnifAlone.step_eq (h : UnifAlone a l s) : step s = exec (.unif a) s := by
  rw [step_of_engine_turn (turn_eq_engine_iff.2 ⟨h.busy, .inl h.host⟩), engineStep, h.command]

theorem UnifAlone.goes_on (h : UnifAlone a l s) {l' : UnifLoop} (he : t.engine = .running s.latched (some l') false)
    (hf : t.fatal = s.fatal) (hh : t.host = s.host) : UnifAlone a l' t := by
  obtain ⟨hlatched, hloop, habort, hbusy⟩ := latched_of_running he
  exact ⟨hbusy, hlatched ▸ h.command, ⟨hf.trans h.ready.1, habort⟩, hh.trans h.host, .inl hloop⟩

/-- Everything a UNIF left alone can do in one step. -/
theorem UnifAlone.step_cases (h : UnifAlone a l s) :
    step s = .next (failXof s (samplerDests a)) ∨
    ((unifNext s.params l).accepted.length < ringDegree ∧
      ∃ t, step s = .next t ∧ t.chip = s.chip ∧ UnifAlone a (unifNext s.params l) t) ∨
    (ringDegree ≤ (unifNext s.params l).accepted.length ∧
      ∃ t, step s = .next t ∧ t.busy = false ∧ t.err = .ok ∧ t.xcnt = unifCount s (l.chunks + 1)) := by
  rw [h.step_eq]
  obtain ⟨t, ht, ⟨-, rfl⟩ | ⟨-, rfl⟩⟩ := exec_unif_runs h.ready h.starts <;> rw [ht]
  · exact .inl rfl
  · rcases unifStep_cases s a l with ⟨hlen, hu⟩ | ⟨hlen, hu⟩ <;> rw [hu]
    · exact .inr (.inl ⟨hlen, _, rfl, schedule_chip _,
        h.goes_on (schedule_engine _) (schedule_fatal _) (schedule_host _)⟩)
    · exact .inr (.inr ⟨hlen, _, rfl, rfl, rfl, rfl⟩)

theorem run_succ (h : step s = .next t) (n : Nat) : core.run (n + 1) s = core.run n t := by
  simp only [Host.Core.run, show core.step s = .next t from h]

/-- 256 chunks are at most 1024 bytes. -/
theorem unifBytes_256_lt (wf : p.WF) : unifBytes p 256 < 2 ^ 32 := by
  obtain ⟨-, -, hu⟩ := wf.wf9
  unfold unifBytes
  omega

/-- Where every chunk is accepted, a UNIF left alone with m values to accept ends after m steps, or sooner by a failure
of its stream. -/
theorem UnifAlone.ends {m : Nat} (h : UnifAlone a l s) (hq : 2 ^ s.params.ukeep ≤ s.params.q)
    (hlt : l.accepted.length < 256) (hm : l.accepted.length + m = 256) (hc : l.chunks = l.accepted.length) :
    ∃ n t, 1 ≤ n ∧ n ≤ m ∧ core.run n s = .next t ∧ t.busy = false ∧
      ((t.err = .ok ∧ n = m ∧ t.xcnt.toNat = unifBytes s.params 256) ∨ (t.err = .xofFail ∧ t.fatal = true)) := by
  induction m generalizing s l with
  | zero => omega
  | succ m ih =>
    have hnext := unifNext_length hq l
    rcases h.step_cases with hs | ⟨hlen, t, hs, hchip, ht⟩ | ⟨hlen, t, hs, hbusy, herr, hx⟩
    · exact ⟨1, _, le_refl 1, by omega, run_succ hs 0, rfl, .inr ⟨rfl, rfl⟩⟩
    · have hp : t.params = s.params := congrArg Chip.params hchip
      obtain ⟨n, u, -, hn, hrun, hb, hend⟩ := ih ht (hp ▸ hq) hlen (by omega) (by rw [hnext, ← hc]; rfl)
      rw [hp] at hend
      exact ⟨n + 1, u, by omega, by omega, (run_succ hs n).trans hrun, hb,
        hend.imp_left fun ⟨he, hn, hx⟩ => ⟨he, by omega, hx⟩⟩
    · obtain rfl : m = 0 := by simp only [ringDegree] at hlen; omega
      have h256 : l.chunks + 1 = 256 := by omega
      refine ⟨1, t, le_refl 1, le_refl 1, run_succ hs 0, hbusy, .inl ⟨herr, rfl, ?_⟩⟩
      rw [hx, h256, unifCount_toNat (unifBytes_256_lt s.chip.wf)]

end Sys2Proof.Machine

namespace Sys2Proof.Proofs

open Sys2Proof.Machine Sys2Proof.Claims

/-- Settles O20, by the failure draw; where the stream did not fail, by the bits of each group. -/
theorem cbdMakesCenteredBinomial : Obligations.CbdMakesCenteredBinomial := by
  intro s a seed i eta hi hs hm ha hseed
  have heta : eta ≤ 3 := by omega
  have hexec : exec i s = cbd s eta a := by rcases hi with ⟨rfl, rfl⟩ | ⟨rfl, rfl⟩ <;> rfl
  rw [hexec, cbd_runs hs ha hseed]
  obtain ⟨t, ht, ⟨hx, rfl⟩ | ⟨hx, rfl⟩⟩ := unlessXofFails_answers s _ (samplerDests a) <;> rw [ht]
  · obtain ⟨hkept, h0, h1, hbytes⟩ := (writesOnly_failXof s (samplerDests a)).sampler_frame
    exact ⟨_, rfl, hkept, h0, h1, hbytes, fun _ => failXof_reports s _, fun h => absurd (hx.symm.trans h) nofun⟩
  · obtain ⟨hkept, h0, h1, hbytes⟩ :=
      ((writesOnly_sampler (s := s) a (cbdCoeffs_length _ eta _) (u32 (64 * eta))).completed .ok false).sampler_frame
    refine ⟨_, rfl, hkept, h0, h1, hbytes, fun h => absurd (hx.symm.trans h) nofun,
      fun _ => ⟨⟨rfl, rfl, rfl, rfl⟩, hs.1, u32_toNat (by omega), fun n hn => ?_⟩⟩
    exact ⟨_, readCoeff_cbdCoeffs hm _ _ _ _ hn, cbdWord_toNat s.chip.wf heta (bitSum_le _ _ _) (bitSum_le _ _ _)⟩

/-- Settles O21, by the failure draw, then by whether the chunk's value is the 256th. -/
theorem unifExaminesOneChunk : Obligations.UnifExaminesOneChunk := by
  intro s a l hs hm hlt hl v acc
  have hat : UnifAt s a l := by
    obtain ⟨msg, chunks, accepted⟩ := l
    rcases hl with hl | ⟨hl, ha, rfl, rfl, seed, hseed, rfl⟩
    · exact .inl hl
    · exact .inr ⟨hl, ha, seed, hseed, rfl⟩
  obtain ⟨t, ht, hdraw⟩ := exec_unif_runs hs hat
  obtain ⟨hchip, hcmd, hwerr, hie, harg0, harg1, hhost, hvars, hres0, hres1, -, hbytes⟩ :=
    keepsUnnamed_of_ends (ends_of_exec ht)
  refine ⟨t, ht, hchip, hcmd, hwerr, hie, harg0, harg1, hhost, hvars, hres0 rfl, hres1 rfl,
    fun x hn => hbytes x (mt named_unif_iff.1 hn), ?_⟩
  rcases hdraw with ⟨hx, rfl⟩ | ⟨hx, rfl⟩
  · exact ⟨fun _ => failXof_reports s _, fun h => absurd (hx.symm.trans h) nofun,
      fun h => absurd (hx.symm.trans h) nofun⟩
  · refine ⟨fun h => absurd (hx.symm.trans h) nofun, ?_⟩
    rcases unifStep_cases s a l with ⟨hlen, hu⟩ | ⟨hlen, hu⟩ <;> rw [hu]
    · exact ⟨fun _ _ => ⟨schedule_engine _, schedule_mem _,
          ⟨schedule_res0 _, schedule_res1 _, schedule_xcnt _, schedule_fatal _⟩,
          schedule_done _, schedule_err _, schedule_dfail _⟩,
        fun _ h => absurd h (Nat.ne_of_lt hlen)⟩
    · refine ⟨fun _ h => absurd h (Nat.not_lt.2 hlen), fun _ h256 => ?_⟩
      exact ⟨⟨rfl, rfl, rfl, rfl⟩, hs.1, fun i n v hn hv => readCoeff_tangled hm s.chip.wf h256 hn hv _,
        unifCount_toNat⟩

/-- Settles O22: an issued UNIF starts with 256 values to accept. -/
theorem unifEndsWithin256Steps : Obligations.UnifEndsWithin256Steps := by
  intro s cmd a seed he hd hf ha hseed hh hq
  obtain ⟨hlatched, hloop, habort, hbusy⟩ := latched_of_running he
  have h : UnifAlone a ⟨seed ++ [s.argByte0, s.argByte1], 0, []⟩ s :=
    ⟨hbusy, hlatched.symm ▸ hd, ⟨hf, habort⟩, hh, .inr ⟨hloop, ha, seed, hseed, rfl⟩⟩
  exact h.ends hq (Nat.succ_pos 255) rfl rfl

/-- Settles O23: the 256 accepted values are below both bounds, and TANGLE reaches every coefficient. -/
theorem unifOutputsBelowQ : Obligations.UnifOutputsBelowQ := by
  intro s a l hi hl
  obtain ⟨⟨hlt, -, hv⟩, hf, -⟩ := hi.unif_loop hl
  have wf := s.chip.wf
  cases ha : s.abortPending with
  | true =>
    refine ⟨abortWith s (samplerDests a), ?_, nofun⟩
    show execUnif a s = _
    rw [execUnif, hl]
    exact if_pos ha
  | false =>
    obtain ⟨t, ht, ⟨-, rfl⟩ | ⟨-, rfl⟩⟩ := exec_unif_runs ⟨hf, ha⟩ (.inl hl) <;> rw [ht]
    · exact ⟨_, rfl, nofun⟩
    · refine ⟨_, rfl, fun _ hbusy n hn => ?_⟩
      rcases unifStep_cases s a l with ⟨-, hu⟩ | ⟨hlen, hu⟩ <;> rw [hu] at hbusy ⊢
      · simp [State.busy] at hbusy
      · have h256 : (unifNext s.params l).accepted.length = ringDegree :=
          le_antisymm ((unifNext_length_le _ _).trans hlt) hlen
        obtain ⟨i, hi256, hn⟩ := exists_tangle wf hn
        have hget := List.getElem?_eq_getElem (lt_of_lt_of_eq hi256 h256.symm)
        exact ⟨_, readCoeff_tangled hi.canonical wf h256 hn hget _,
          unifNext_bounded wf hv _ (List.mem_of_getElem? hget)⟩

end Sys2Proof.Proofs
end

section
/-! SUPPORT. 42_codec.md: a window of BUF as a stream of bits, the four dense codecs, the hint vector and the challenge.
For each codec: what its pack lays out in the window, which windows its unpack accepts and what they decode to, and that
the two undo each other. -/

namespace Sys2Proof.Machine

open Claims

variable {s t u : State} {p : Params} {a b : Slot} {i : Instr}

/-! ## Streams and windows (00_scope.md R11, R103) -/

/-- A byte string is the first bytes of a stream. -/
theorem exists_stream {bs : List Byte} {n : Nat} (h : bs.length = n) :
    ∃ W : Nat → Byte, bs = (List.range n).map W := by
  subst h
  exact ⟨fun k => bs.getD k 0, List.ext_getElem (by simp) fun k hk _ => by simp [hk]⟩

theorem map_range_add (W : Nat → Byte) (n m : Nat) :
    (List.range (n + m)).map W = (List.range n).map W ++ (List.range m).map fun k => W (n + k) := by
  rw [List.range_add, List.map_append, List.map_map]
  rfl

/-- The first m fields of the bytes of a stream that hold them. -/
theorem fields_stream (B : Nat → Byte) {w m n : Nat} (h : w * m ≤ 8 * n) :
    fields w m ((List.range n).map B) = (List.range m).map (fld B w) := by
  refine List.ext_getElem (by simp) fun i hi _ => Option.some.inj ?_
  have hi : i < m := by simpa using hi
  have hend : w * i + w ≤ 8 * n := (Nat.mul_le_mul_left w hi).trans h
  rw [← List.getElem?_eq_getElem, fields, digits_getElem? _ _ _ _ hi, ← sum_bits, List.getElem_map, List.getElem_range,
    fld]
  refine congrArg (fun l : List Nat => some l.sum) (List.map_congr_left fun b hb => ?_)
  have hb : b < w := List.mem_range.1 hb
  rw [Nat.div_div_eq_div_mul, ← pow_add, numOfBytes_stream_bit B (by omega)]

theorem fld_lt (B : Nat → Byte) (w i : Nat) : fld B w i < 2 ^ w := by
  have h := fields_stream B (w := w) (m := i + 1) (n := w * (i + 1)) (Nat.le_mul_of_pos_left _ (by decide))
  exact digits_lt w _ _ _ (h ▸ List.mem_map_of_mem (List.mem_range.2 i.lt_succ_self))

/-- Fields that fill whole bytes determine the bytes. -/
theorem bytes_eq_of_fld_eq {B B' : Nat → Byte} {w m n : Nat} (h : 8 * n = w * m)
    (hf : ∀ j < m, fld B w j = fld B' w j) : ∀ k < n, B k = B' k := by
  have hl : ∀ B : Nat → Byte, (List.range n).map B = packFields w n ((List.range m).map (fld B w)) := fun B => by
    rw [← fields_stream B h.ge]
    simpa using (packFields_fields w m ((List.range n).map B) (by simpa using h)).symm
  have heq : (List.range n).map B = (List.range n).map B' := by
    rw [hl B, hl B', List.map_congr_left fun j hj => hf j (List.mem_range.1 hj)]
  exact fun k hk => List.map_inj_left.1 heq k (List.mem_range.2 hk)

theorem holdsWindow_memWrite (m : Memory) (off n : Nat) (W : Nat → Byte) :
    HoldsWindow (memWrite m off ((List.range n).map W)) off n W := by
  intro k hk
  rw [memWrite, readByte_writeBytes, if_pos (by simp [bufBase, hk])]
  simp [bufBase, hk]

theorem memRead_of_holdsWindow {m : Memory} (hm : m.wf) {off n : Nat} {W : Nat → Byte} (h : HoldsWindow m off n W) :
    memRead m off n = some ((List.range n).map W) := memRead_of_bytes hm h

theorem HoldsWindow.congr {m : Memory} {off n : Nat} {W W' : Nat → Byte} (h : HoldsWindow m off n W)
    (hW : ∀ k < n, W k = W' k) : HoldsWindow m off n W' := fun k hk => by rw [h k hk, hW k hk]

/-! ## What a pack and an unpack leave (R103, R104) -/

/-- No command takes memory out of its canonical form. -/
theorem exec_mem_wf (hm : s.mem.wf) (h : exec i s = .next t) : t.mem.wf := by
  cases ends_of_exec h with
  | refused => exact hm
  | aborted hw | xofFailed hw | executed hw | rejected _ hw => exact hw.writes.canonical hm
  | continues => rwa [schedule_mem]

/-- What a command leaves that wrote its window only. -/
theorem WritesOnly.wroteWindow {len : Nat} (h : WritesOnly [.window s.off len] s u) (hf : u.fatal = s.fatal) :
    WroteWindow s (complete u .ok false) len :=
  ⟨⟨rfl, rfl, rfl, rfl⟩, h.kept, ⟨h.res0 (by simp), h.res1 (by simp), h.xcnt (by simp), hf⟩,
    fun x hx => h.bytes x fun _ hd => List.mem_singleton.1 hd ▸ hx⟩

section slots

variable (hs : Ready s) (hm : s.mem.wf)
include hs hm

/-- A pack of one slot leaves the bytes of its encoder in the window. -/
theorem packSlot_holds {len : Nat} (hb : b.toNat < s.params.npoly) (ho : s.off + len ≤ s.params.bufBytes)
    {c : Nat → Word} (hc : HoldsSlot s.mem b.toNat c) {enc : List Word → List Byte}
    (hl : (enc ((List.range ringDegree).map c)).length = len) :
    ∃ t W, packSlot s b len enc = .next t ∧ WroteWindow s t len ∧ HoldsWindow t.mem s.off len W ∧
      enc ((List.range ringDegree).map c) = (List.range len).map W := by
  obtain ⟨W, hW⟩ := exists_stream hl
  refine ⟨_, W, packSlot_runs hs.1 hs.2 hb ho (readSlot_of_coeffs hm hc), ?_, ?_, hW⟩
  · exact (writesOnly_window s.off hl).wroteWindow rfl
  · rw [hW]
    exact holdsWindow_memWrite _ _ _ _

/-- An unpack to one slot leaves the coefficients of its decoder there. -/
theorem unpackSlot_holds {len : Nat} (ha : a.toNat < s.params.npoly) (ho : s.off + len ≤ s.params.bufBytes)
    {W : Nat → Byte} (hW : HoldsWindow s.mem s.off len W) {dec : List Byte → List Word} {c : Nat → Word}
    (hdec : dec ((List.range len).map W) = (List.range ringDegree).map c) :
    ∃ t, unpackSlot s a len dec = .next t ∧ WroteSlots s t [a.toNat] false ∧ HoldsSlot t.mem a.toNat c := by
  refine ⟨_, unpackSlot_runs hs.1 hs.2 ha ho (memRead_of_holdsWindow hm hW), ?_, ?_⟩ <;> rw [hdec]
  · exact (writesOnly_slot (s := s) a.toNat (by simp)).wroteSlots (slots := [a.toNat]) rfl false
  · exact holdsSlot_writeCoeffs hm _ _

end slots

/-! ## Dense fields (R104) -/

theorem zipIdx_map_range (n : Nat) (c : Nat → Word) :
    ((List.range n).map c).zipIdx = (List.range n).map fun i => (c i, i) :=
  List.ext_getElem (by simp) fun i _ _ => by simp

theorem denseField_of_some {enc : Nat → Option Nat} {c : Word} {v : Nat} (h : enc c.toNat = some v) (event w j : Nat) :
    denseField event w enc j c = v := by rw [denseField, h]

/-- A field has its width, a free one too. -/
theorem denseField_lt {w : Nat} {enc : Nat → Option Nat} (henc : ∀ c v, enc c = some v → v < 2 ^ w) (event j : Nat)
    (c : Word) : denseField event w enc j c < 2 ^ w := by
  unfold denseField
  split
  · next v h => exact henc _ v h
  · exact Nat.mod_lt _ (Nat.two_pow_pos w)

/-- The fields of the window that a dense pack makes. -/
theorem fld_densePack {event w : Nat} {enc : Nat → Option Nat} (henc : ∀ c v, enc c = some v → v < 2 ^ w)
    {c : Nat → Word} {W : Nat → Byte}
    (h : densePack event w enc ((List.range ringDegree).map c) = (List.range (denseLen w)).map W) :
    ∀ j < ringDegree, fld W w j = denseField event w enc j (c j) := by
  have hlen : 8 * denseLen w = w * ringDegree := by rw [denseLen_eq]; simp only [ringDegree]; omega
  have hvs := fields_packFields w (denseLen w) ((List.range ringDegree).map fun j => denseField event w enc j (c j))
    (by simp only [List.mem_map]; rintro _ ⟨j, -, rfl⟩; exact denseField_lt henc event j (c j)) (by simpa using hlen)
  rw [densePack, zipIdx_map_range, List.map_map] at h
  rw [List.length_map, List.length_range] at hvs
  have hfields := (congrArg (fields w ringDegree) h).symm.trans hvs
  rw [fields_stream W hlen.ge] at hfields
  exact fun j hj => List.map_inj_left.1 hfields j (List.mem_range.2 hj)

/-- The coefficients that a dense unpack makes of a window. -/
theorem denseUnpack_stream (w : Nat) (dec : Nat → Nat) (W : Nat → Byte) :
    denseUnpack w dec ((List.range (denseLen w)).map W) =
      (List.range ringDegree).map fun j => u32 (dec (fld W w j)) := by
  rw [denseUnpack, fields_stream W (by rw [denseLen_eq]; simp only [ringDegree]; omega), List.map_map]
  rfl

section codec

variable {pk upk : Slot → Instr} {w : Params → Nat} {dom : Params → Nat → Prop} {code val : Params → Nat → Int}

/-- A dense pack whose encoder is defined on the domain, where it gives codes of w bits. -/
theorem packsFields_of_encoder {enc : Params → Nat → Option Nat}
    (hexec : ∀ b s, exec (pk b) s =
      packSlot s b (denseLen (w s.params)) (densePack s.draws (w s.params) (enc s.params)))
    (henc : ∀ p : Params, p.WF → ∀ c v, enc p c = some v ↔ dom p c ∧ (v : Int) = code p c)
    (hcode : ∀ p : Params, p.WF → ∀ c, dom p c → 0 ≤ code p c ∧ code p c < 2 ^ w p) :
    PacksFields pk w dom code := by
  intro s b c hs hm hb ho hc
  have wf : s.params.WF := s.chip.wf
  rw [← denseLen_eq] at ho ⊢
  obtain ⟨t, W, ht, hwrote, hW, hpack⟩ := packSlot_holds hs hm hb ho hc (densePack_length s.draws _ (enc s.params) _)
  have hlt : ∀ c v, enc s.params c = some v → v < 2 ^ w s.params := fun c v h => by
    obtain ⟨hd, hv⟩ := (henc s.params wf c v).1 h
    exact_mod_cast hv.trans_lt (hcode s.params wf c hd).2
  refine ⟨t, W, (hexec b s).trans ht, hwrote, hW, fun j hj hd => ?_⟩
  have hv := Int.toNat_of_nonneg (hcode s.params wf _ hd).1
  rw [fld_densePack hlt hpack j hj, denseField_of_some ((henc s.params wf _ _).2 ⟨hd, hv⟩), hv]

/-- A dense unpack whose decoder gives every field its value, a word. -/
theorem unpacksFields_of_decoder {dec : Params → Nat → Nat}
    (hexec : ∀ a s, exec (upk a) s = unpackSlot s a (denseLen (w s.params)) (denseUnpack (w s.params) (dec s.params)))
    (hdec : ∀ p : Params, p.WF → ∀ v < 2 ^ w p, (dec p v : Int) = val p v ∧ dec p v < 2 ^ 32) :
    UnpacksFields upk w val := by
  intro s a W hs hm ha ho hW
  rw [← denseLen_eq] at ho hW
  obtain ⟨t, ht, hwrote, hslot⟩ := unpackSlot_holds hs hm ha ho hW (denseUnpack_stream _ (dec s.params) W)
  refine ⟨t, (hexec a s).trans ht, hwrote, fun j hj => ⟨_, hslot j hj, ?_⟩⟩
  obtain ⟨hval, hlt⟩ := hdec s.params s.chip.wf _ (fld_lt W (w s.params) j)
  rw [u32_toNat hlt, hval]

/-- R105, first half: unpacking what was packed, where the value of a code is its coefficient. -/
theorem roundTrips_of_value_code (hpk : PacksFields pk w dom code) (hupk : UnpacksFields upk w val)
    (hv : ∀ p : Params, p.WF → ∀ c v : Nat, dom p c → (v : Int) = code p c → val p v = c) :
    RoundTrips pk upk w dom := by
  intro s t s' a b c hs hm hb ho hc hd ht hs' hchip hmem hoff ha
  have hp : s'.params = s.params := congrArg Chip.params hchip
  obtain ⟨t', W, ht', -, hW, hfld⟩ := hpk s b c hs hm hb ho hc
  obtain rfl : t = t' := Host.Outcome.next.inj (ht.symm.trans ht')
  obtain ⟨u, hu, ⟨hdone, -⟩, hslot⟩ := hupk s' a W hs' (hmem ▸ exec_mem_wf hm ht) (hp ▸ ha) (by rwa [hp, hoff])
    (by rwa [hp, hoff, hmem])
  refine ⟨u, hu, hdone, fun j hj => ?_⟩
  obtain ⟨v, hread, hval⟩ := hslot j hj
  rw [hp, hv s.params s.chip.wf _ _ (hd j hj) (hfld j hj (hd j hj))] at hval
  rw [hread, BitVec.eq_of_toNat_eq (Int.ofNat.inj hval)]

/-- R105, second half: packing what was unpacked, where the code of a value is its field. -/
theorem windowRoundTrips_of_code_value (hpk : PacksFields pk w dom code) (hupk : UnpacksFields upk w val)
    (hc : ∀ p : Params, p.WF → ∀ v < 2 ^ w p, ∀ c : Nat, (c : Int) = val p v → code p c = v) :
    WindowRoundTrips pk upk w dom val := by
  intro s t s' a W hs hm ha ho hW hd ht hs' hchip hmem ho'
  have hp : s'.params = s.params := congrArg Chip.params hchip
  obtain ⟨t', ht', -, hslot⟩ := hupk s a W hs hm ha ho hW
  obtain rfl : t = t' := Host.Outcome.next.inj (ht.symm.trans ht')
  choose! c hread hval using hslot
  obtain ⟨u, W', hu, ⟨hdone, -⟩, hW', hfld⟩ := hpk s' a c hs' (hmem ▸ exec_mem_wf hm ht) (hp ▸ ha) (by rwa [hp])
    (by rwa [hmem])
  rw [hp] at hW' hfld
  refine ⟨u, hu, hdone, hW'.congr (bytes_eq_of_fld_eq (w := w s.params) (m := 256) (by omega) fun j hj => ?_)⟩
  have hcode := hfld j hj (by simpa [← hval j hj] using hd j hj)
  rw [hc s.params s.chip.wf _ (fld_lt W _ j) _ (hval j hj)] at hcode
  exact Int.ofNat.inj hcode

end codec

/-! ## The four codecs (R106 to R113) -/

theorem two_eta_lt (wf : p.WF) : 2 * p.eta < 2 ^ p.detaBits := by
  have h6 := wf.wf6
  unfold Params.detaBits
  split <;> omega

/-- An encoder that is a code where a condition holds. -/
theorem ite_some_eq_iff {d d' : Prop} [Decidable d] {x v : Nat} {y : Int} (hd : d ↔ d') (hx : d' → (x : Int) = y) :
    (if d then some x else none) = some v ↔ d' ∧ (v : Int) = y := by
  rw [Option.ite_none_right_eq_some, hd, Option.some.injEq]
  exact and_congr_right fun h => by rw [← hx h, Nat.cast_inj, eq_comm]

/-- A field of Eta is at most 15, far below Q. -/
theorem two_pow_detaBits_le (p : Params) : 2 ^ p.detaBits ≤ 16 := by
  unfold Params.detaBits
  split <;> decide

theorem pkt1_packs : PacksFields .pkt1 (fun _ => 9) domT1 (fun _ c => c) :=
  packsFields_of_encoder (enc := fun _ => encT1) (fun _ _ => rfl)
    (fun _ _ _ _ => ite_some_eq_iff Iff.rfl fun _ => rfl)
    fun _ _ c hc => ⟨Int.natCast_nonneg c, Int.ofNat_lt.2 hc⟩

theorem upkt1_unpacks : UnpacksFields .upkt1 (fun _ => 9) valT1 :=
  unpacksFields_of_decoder (dec := fun _ => decT1) (fun _ _ => rfl) fun _ _ _ hv => ⟨rfl, hv.trans (by decide)⟩

theorem pkt0_packs : PacksFields .pkt0 (fun _ => 14) domT0 (fun p c => p.q + 2 ^ (p.d - 1) - c) := by
  refine packsFields_of_encoder (enc := encT0) (fun _ _ => rfl) (fun p wf c v => ?_) fun p wf c hc => ?_
  · obtain ⟨-, hh⟩ := wf.two_pow_d
    obtain ⟨-, -, hq, -⟩ := wf.wf1
    refine ite_some_eq_iff (by unfold domT0; omega) fun hc => ?_
    push_cast [hc.2]
    rfl
  · obtain ⟨-, hh⟩ := wf.two_pow_d
    obtain ⟨-, -, hq, -⟩ := wf.wf1
    obtain ⟨hlo, hhi⟩ := hc
    zify at hh hlo hhi
    omega

theorem upkt0_unpacks : UnpacksFields .upkt0 (fun _ => 14) valT0 := by
  refine unpacksFields_of_decoder (dec := decT0) (fun _ _ => rfl) fun p wf v hv => ?_
  obtain ⟨-, hh⟩ := wf.two_pow_d
  obtain ⟨-, -, hq, hq'⟩ := wf.wf1
  have hle : v ≤ p.q + 2 ^ (p.d - 1) := Nat.le_add_right_of_le (by omega)
  unfold decT0 valT0
  exact ⟨by push_cast [hle]; rfl, by omega⟩

theorem pketa_packs : PacksFields .pketa Params.detaBits domEta (fun p c => p.q + p.eta - c) := by
  refine packsFields_of_encoder (enc := encEta) (fun _ _ => rfl) (fun p wf c v => ?_) fun p wf c hc => ?_
  · exact ite_some_eq_iff (by unfold domEta; omega) fun hc => by unfold domEta at hc; omega
  · have he := two_eta_lt wf
    zify at he
    unfold domEta at hc
    omega

theorem upketa_unpacks : UnpacksFields .upketa Params.detaBits valEta := by
  refine unpacksFields_of_decoder (dec := decEta) (fun _ _ => rfl) fun p wf v hv => ?_
  obtain ⟨-, -, hq, hq'⟩ := wf.wf1
  have h6 := wf.wf6
  have he := two_pow_detaBits_le p
  unfold decEta valEta
  omega

/-- The code of a Gamma1 coefficient, without the remainder. -/
theorem codeG1_eq (wf : p.WF) {c : Nat} (hc : domG1 p c) :
    ((p.gamma1 : Int) - 1 - c) % p.q = if c < p.gamma1 then (p.gamma1 : Int) - 1 - c else p.gamma1 - 1 - c + p.q := by
  obtain ⟨-, -, hq, -⟩ := wf.wf1
  have h5 := wf.wf5
  unfold domG1 at hc
  split
  · exact Int.emod_eq_of_lt (by omega) (by omega)
  · rw [← Int.add_emod_right, Int.emod_eq_of_lt (by omega) (by omega)]

theorem pkg1_packs : PacksFields .pkg1 (fun _ => 20) domG1 (fun p c => ((p.gamma1 : Int) - 1 - c) % p.q) := by
  refine packsFields_of_encoder (enc := encG1) (fun _ _ => rfl) (fun p wf c v => ?_) fun p wf c hc => ?_
  · obtain ⟨-, -, hq, -⟩ := wf.wf1
    exact ite_some_eq_iff (by unfold domG1; omega) fun _ => Int.toNat_of_nonneg (Int.emod_nonneg _ (by omega))
  · obtain ⟨-, -, hq, -⟩ := wf.wf1
    have h5 := wf.wf5
    rw [codeG1_eq wf hc]
    unfold domG1 at hc
    split <;> omega

/-- A Gamma1 field decodes below Q (R113). -/
theorem decG1_spec (wf : p.WF) {v : Nat} (hv : v < 2 ^ 20) : (decG1 p v : Int) = valG1 p v ∧ decG1 p v < p.q := by
  obtain ⟨-, -, hq, -⟩ := wf.wf1
  have h5 := wf.wf5
  unfold decG1 valG1
  dsimp only
  split <;> omega

theorem upkg1_unpacks : UnpacksFields .upkg1 (fun _ => 20) valG1 := by
  refine unpacksFields_of_decoder (dec := decG1) (fun _ _ => rfl) fun p wf v hv => ?_
  have hq := wf.two_q_lt
  obtain ⟨hval, hlt⟩ := decG1_spec wf hv
  exact ⟨hval, by omega⟩

/-! ## Which fields decode into the pack domain (R105) -/

theorem domT0_value (wf : p.WF) (hd : p.d = 14) {v : Nat} (hv : v < 2 ^ 14) : domT0 p (valT0 p v).toNat := by
  obtain ⟨-, -, hq, -⟩ := wf.wf1
  unfold domT0 valT0
  rw [hd]
  omega

theorem domEta_value_iff (wf : p.WF) {v : Nat} (hv : v < 2 ^ p.detaBits) :
    domEta p (valEta p v).toNat ↔ v ≤ 2 * p.eta := by
  obtain ⟨-, -, hq, -⟩ := wf.wf1
  have he := two_pow_detaBits_le p
  unfold domEta valEta
  omega

theorem domG1_value_iff (wf : p.WF) {v : Nat} (hv : v < 2 ^ 20) :
    domG1 p (valG1 p v).toNat ↔ v ≤ 2 * p.gamma1 - 2 := by
  obtain ⟨-, -, hq, -⟩ := wf.wf1
  have h5 := wf.wf5
  unfold domG1 valG1
  split <;> omega

/-- The value of a Gamma1 code is its coefficient. -/
theorem valG1_code (wf : p.WF) {c v : Nat} (hc : domG1 p c) (hv : (v : Int) = ((p.gamma1 : Int) - 1 - c) % p.q) :
    valG1 p v = c := by
  obtain ⟨-, -, hq, -⟩ := wf.wf1
  rw [codeG1_eq wf hc] at hv
  unfold domG1 at hc
  unfold valG1
  split at hv <;> split <;> omega

/-- The code of a Gamma1 value is its field. -/
theorem codeG1_value (wf : p.WF) {c v : Nat} (hv : v < 2 ^ 20) (hc : (c : Int) = valG1 p v) :
    ((p.gamma1 : Int) - 1 - c) % p.q = v := by
  obtain ⟨-, -, hq, -⟩ := wf.wf1
  have h5 := wf.wf5
  rw [hc, valG1]
  split
  · rw [sub_sub_cancel, Int.emod_eq_of_lt (by omega) (by omega)]
  · rw [show (p.gamma1 : Int) - 1 - (p.gamma1 - 1 - v + p.q) = v - p.q by ring, Int.sub_emod_right,
      Int.emod_eq_of_lt (by omega) (by omega)]

/-! ## Ranks: how many indices below i satisfy a condition -/

/-- An index that satisfies the condition stands at its rank in the list of those that do. -/
theorem filter_range_rank {P : Nat → Bool} {n i : Nat} (hi : i < n) (h : P i = true) :
    ((List.range n).filter P)[((List.range i).filter P).length]? = some i := by
  obtain ⟨m, rfl⟩ := Nat.exists_eq_add_of_lt hi
  rw [Nat.add_assoc, List.range_add, List.filter_append, List.getElem?_append_right le_rfl, Nat.sub_self,
    List.range_succ_eq_map, List.map_cons, Nat.add_zero, List.filter_cons_of_pos h, List.getElem?_cons_zero]

/-- Every rank below the count is that of an index that satisfies the condition. -/
theorem exists_rank {P : Nat → Bool} {n k : Nat} (hk : k < ((List.range n).filter P).length) :
    ∃ i < n, P i = true ∧ ((List.range i).filter P).length = k := by
  induction n with
  | zero => simp at hk
  | succ n ih =>
    by_cases hlt : k < ((List.range n).filter P).length
    · obtain ⟨i, hi, h⟩ := ih hlt
      exact ⟨i, hi.trans n.lt_succ_self, h⟩
    · rw [List.range_succ, List.filter_append, List.length_append] at hk
      cases hP : P n with
      | true =>
        rw [List.filter_cons_of_pos hP, List.filter_nil, List.length_singleton] at hk
        exact ⟨n, n.lt_succ_self, hP, by omega⟩
      | false =>
        rw [List.filter_cons_of_neg (by simp [hP]), List.filter_nil] at hk
        exact absurd hk hlt

section hints

variable {h : Nat → Nat → Word} {W W' : Nat → Byte}

/-! ## Counting the ones of a VecK (R114) -/

theorem onesBefore_succ (h : Nat → Nat → Word) (i : Nat) : onesBefore h (i + 1) = onesBefore h i + onesBelow h i 256 :=
  List.sum_range_succ _ i

theorem onesBefore_mono (h : Nat → Nat → Word) : Monotone (onesBefore h) :=
  monotone_nat_of_le_succ fun i => by rw [onesBefore_succ]; omega

theorem onesBelow_lt {i j : Nat} (hj : j < 256) (hb : h i j = 1) : onesBelow h i j < onesBelow h i 256 := by
  obtain ⟨hlt, -⟩ := List.getElem?_eq_some_iff.1 (filter_range_rank (P := fun j => h i j = 1) hj (by simpa using hb))
  exact hlt

theorem hintIndices_map_range (n : Nat) (c : Nat → Word) :
    hintIndices ((List.range n).map c) = (List.range n).filter fun j => c j = 1 := by
  rw [hintIndices, zipIdx_map_range, List.filter_map, List.map_map]
  exact List.map_id _

/-- The elements of a VecK, as the lists that PKHINT reads and UPKHINT writes. -/
def vecElements (k : Nat) (h : Nat → Nat → Word) : List (List Word) :=
  (List.range k).map fun i => (List.range ringDegree).map (h i)

theorem flatMap_hintIndices (k : Nat) (h : Nat → Nat → Word) :
    (vecElements k h).flatMap hintIndices =
      (List.range k).flatMap fun i => (List.range ringDegree).filter fun j => h i j = 1 := by
  simp only [vecElements, List.flatMap_map, hintIndices_map_range]

theorem flatMap_hintIndices_length (k : Nat) (h : Nat → Nat → Word) :
    ((vecElements k h).flatMap hintIndices).length = onesBefore h k := by
  rw [flatMap_hintIndices, List.length_flatMap]
  rfl

theorem validHint_iff (p : Params) (h : Nat → Nat → Word) :
    validHint p (vecElements p.k h) = true ↔ ValidVec p h := by
  rw [validHint, flatMap_hintIndices_length]
  simp [vecElements, ValidVec]

/-- Entry r of list i of several, counted from the first list on. -/
theorem flatMap_range_getElem? {α : Type} (f : Nat → List α) {k i r : Nat} (hi : i < k) (hr : r < (f i).length) :
    ((List.range k).flatMap f)[((List.range i).map fun x => (f x).length).sum + r]? = (f i)[r]? := by
  obtain ⟨m, rfl⟩ := Nat.exists_eq_add_of_lt hi
  rw [Nat.add_assoc, List.range_add, List.flatMap_append, ← List.length_flatMap,
    List.getElem?_append_right (Nat.le_add_right _ _), Nat.add_sub_cancel_left, List.range_succ_eq_map, List.map_cons,
    Nat.add_zero, List.flatMap_cons, List.getElem?_append_left hr]

theorem switchPoints_map_range (k n : Nat) (g : Nat → List Word) :
    switchPoints k ((List.range n).map g) =
      (List.range n).map fun i => k + ((List.range (i + 1)).map fun x => (hintIndices (g x)).length).sum := by
  induction n generalizing k g with
  | zero => rfl
  | succ n ih =>
    rw [List.range_succ_eq_map, List.map_cons, List.map_map, switchPoints, ih, List.map_cons, List.map_map]
    refine congrArg₂ List.cons (by simp) (List.map_congr_left fun i _ => ?_)
    simp [List.range_succ_eq_map (n := i + 1), Function.comp_def, Nat.add_assoc]

theorem switchPoints_vecElements (n : Nat) (h : Nat → Nat → Word) :
    switchPoints 0 (vecElements n h) = (List.range n).map fun i => onesBefore h (i + 1) := by
  rw [vecElements, switchPoints_map_range]
  simp only [hintIndices_map_range, Nat.zero_add]
  rfl

/-! ## The bytes of a hint window (R114) -/

/-- The bytes of the window are those of R114 for the VecK h. -/
def HintLayout (p : Params) (h : Nat → Nat → Word) (W : Nat → Byte) : Prop :=
  (∀ i < p.k, ∀ j < 256, h i j = 1 → (W (onesBefore h i + onesBelow h i j)).toNat = j) ∧
  (∀ i < p.k, (W (p.omega + i)).toNat = onesBefore h (i + 1)) ∧
  ∀ k, onesBefore h p.k ≤ k → k < p.omega → W k = 0

theorem byte_of_getElem? {L : List Nat} {n : Nat} (hL : L.map (BitVec.ofNat 8) = (List.range n).map W) {x v : Nat}
    (hx : L[x]? = some v) : W x = BitVec.ofNat 8 v := by
  have h := congrArg (·[x]?) hL
  simp only [List.getElem?_map, hx, Option.map_some] at h
  obtain ⟨y, hy, hW⟩ := Option.map_eq_some_iff.1 h.symm
  obtain ⟨hn, rfl⟩ := List.getElem?_eq_some_iff.1 hy
  rw [← hW, List.getElem_range]

/-- The rank of a set bit and the ones before its element say where its index stands. -/
theorem hintLayout_packHint (wf : p.WF) (hv : ValidVec p h)
    (hW : packHint p (vecElements p.k h) = (List.range (hintLen p)).map W) : HintLayout p h W := by
  obtain ⟨-, hcount⟩ := hv
  obtain ⟨-, -, -, homega, -⟩ := wf.wf7
  have hlen := flatMap_hintIndices_length p.k h
  rw [packHint, hlen, switchPoints_vecElements] at hW
  refine ⟨fun i hi j hj hb => ?_, fun i hi => ?_, fun k hlo hhi => ?_⟩
  · have hrank := filter_range_rank (P := fun j => h i j = 1) hj (by simpa using hb)
    have hindex : ((vecElements p.k h).flatMap hintIndices)[onesBefore h i + onesBelow h i j]? = some j := by
      rw [flatMap_hintIndices]
      exact (flatMap_range_getElem? _ hi (onesBelow_lt hj hb)).trans hrank
    obtain ⟨hlt, -⟩ := List.getElem?_eq_some_iff.1 hindex
    rw [byte_of_getElem? hW (v := j), BitVec.toNat_ofNat, Nat.mod_eq_of_lt hj]
    rw [List.append_assoc, List.getElem?_append_left hlt, hindex]
  · have hle : onesBefore h (i + 1) ≤ p.omega := (onesBefore_mono h hi).trans hcount
    rw [byte_of_getElem? hW (v := onesBefore h (i + 1)), BitVec.toNat_ofNat, Nat.mod_eq_of_lt (by omega)]
    rw [List.getElem?_append_right (by simp [hlen]; omega)]
    simp [hlen, Nat.add_sub_cancel' hcount, hi]
  · refine byte_of_getElem? hW (v := 0) ?_
    rw [List.getElem?_append_left (by simp [hlen]; omega), List.getElem?_append_right (by omega), hlen]
    exact List.getElem?_replicate_of_lt (by omega)

/-! ## What UPKHINT makes of a window (R115) -/

theorem strictlyRising_iff : ∀ l : List Nat, strictlyRising l = true ↔ l.IsChain (· < ·)
  | [] => by simp [strictlyRising]
  | [_] => by simp [strictlyRising]
  | a :: b :: rest => by
    rw [strictlyRising, Bool.and_eq_true, decide_eq_true_eq, strictlyRising_iff (b :: rest), List.isChain_cons_cons]

/-- The index bytes of a window, as numbers. -/
def indexBytes (p : Params) (W : Nat → Byte) : List Nat := (List.range p.omega).map fun k => (W k).toNat

/-- The indices listed for element i. -/
def segmentIndices (p : Params) (W : Nat → Byte) (i : Nat) : List Nat :=
  (List.range' (switchBefore p W i) (switchBefore p W (i + 1) - switchBefore p W i)).map fun k => (W k).toNat

/-- The first two checks of R115 for element i. -/
def SegmentAccepted (p : Params) (W : Nat → Byte) (i : Nat) : Prop :=
  switchBefore p W i ≤ switchBefore p W (i + 1) ∧ switchBefore p W (i + 1) ≤ p.omega ∧
    (segmentIndices p W i).IsChain (· < ·)

/-- Coefficient j of element i of what an accepted window decodes to. -/
def hintBit (p : Params) (W : Nat → Byte) (i j : Nat) : Word := if j ∈ segmentIndices p W i then 1 else 0

theorem switchBefore_succ (p : Params) (W : Nat → Byte) (i : Nat) :
    switchBefore p W (i + 1) = (W (p.omega + i)).toNat := rfl

theorem mem_segmentIndices {i j : Nat} : j ∈ segmentIndices p W i ↔ HintListed p W i j := by
  simp only [segmentIndices, HintListed, List.mem_map, List.mem_range'_1, ← switchBefore_succ, and_assoc]
  exact exists_congr fun k => and_congr_right fun hlo => and_congr_left fun _ => by omega

theorem segmentIndices_isChain_iff {i : Nat} :
    (segmentIndices p W i).IsChain (· < ·) ↔
      ∀ k, switchBefore p W i < k → k < switchBefore p W (i + 1) → (W (k - 1)).toNat < (W k).toNat := by
  rw [List.isChain_iff_getElem]
  simp only [segmentIndices, List.length_map, List.length_range', List.getElem_map, List.getElem_range', one_mul]
  constructor
  · intro hchain k hlo hhi
    obtain ⟨r, rfl⟩ := Nat.exists_eq_add_of_lt hlo
    exact hchain r (by omega)
  · intro hrise r hr
    exact hrise (switchBefore p W i + (r + 1)) (by omega) (by omega)

theorem hintAccepted_iff :
    HintAccepted p W ↔
      (∀ i < p.k, SegmentAccepted p W i) ∧ ∀ k, switchBefore p W p.k ≤ k → k < p.omega → W k = 0 := by
  simp only [HintAccepted, SegmentAccepted, segmentIndices_isChain_iff, switchBefore_succ, forall_and, and_assoc]

/-- Which bytes the loop of unpackHint takes for element i. -/
theorem take_drop_indexBytes {i : Nat} (hle : switchBefore p W i ≤ switchBefore p W (i + 1))
    (hlt : switchBefore p W (i + 1) ≤ p.omega) :
    ((indexBytes p W).drop (switchBefore p W i)).take (switchBefore p W (i + 1) - switchBefore p W i) =
      segmentIndices p W i := by
  rw [indexBytes, ← List.map_drop, ← List.map_take, List.range_eq_range', List.drop_range',
    List.take_range'_of_length_ge (by omega), segmentIndices, Nat.zero_add, Nat.mul_one]

/-- The third check of R115. -/
theorem all_drop_indexBytes {n : Nat} :
    ((indexBytes p W).drop n).all (· = 0) = true ↔ ∀ k, n ≤ k → k < p.omega → W k = 0 := by
  rw [indexBytes, ← List.map_drop, List.range_eq_range', List.drop_range', Nat.zero_add, Nat.mul_one]
  simp only [List.all_map, List.all_eq_true, List.mem_range'_1, Function.comp, decide_eq_true_eq, and_imp]
  refine forall₂_congr fun k hlo => ?_
  rw [show k < n + (p.omega - n) ↔ k < p.omega by omega]
  exact imp_congr_right fun _ => BitVec.toNat_inj (y := 0)

/-- The loop over the n switch-over points from element i on: the checks it makes and the elements it gives. -/
theorem unpackElements_eq_some_iff {n i : Nat} {hs : List (List Word)} :
    unpackElements p (indexBytes p W) (switchBefore p W i)
        ((List.range' i n).map fun x => switchBefore p W (x + 1)) = some hs ↔
      ((∀ x ∈ List.range' i n, SegmentAccepted p W x) ∧
        ∀ k, switchBefore p W (i + n) ≤ k → k < p.omega → W k = 0) ∧
      (List.range' i n).map (fun x => elementOf (segmentIndices p W x)) = hs := by
  induction n generalizing i hs with
  | zero =>
    rw [List.range'_zero, List.map_nil, unpackElements, Option.ite_none_right_eq_some, all_drop_indexBytes]
    simp
  | succ n ih =>
    have hcheck : (switchBefore p W i ≤ switchBefore p W (i + 1) ∧ switchBefore p W (i + 1) ≤ p.omega ∧
        strictlyRising (((indexBytes p W).drop (switchBefore p W i)).take
          (switchBefore p W (i + 1) - switchBefore p W i)) = true) ↔ SegmentAccepted p W i :=
      and_congr_right fun hle => and_congr_right fun hlt => by rw [take_drop_indexBytes hle hlt, strictlyRising_iff]
    rw [List.range'_succ, List.map_cons, unpackElements, List.forall_mem_cons, List.map_cons,
      show i + (n + 1) = i + 1 + n by omega]
    by_cases hseg : SegmentAccepted p W i
    · have ⟨hle, hlt, _⟩ := hseg
      rw [if_pos (hcheck.2 hseg), take_drop_indexBytes hle hlt, Option.map_eq_some_iff]
      simp [ih, hseg, and_assoc]
    · rw [if_neg (mt hcheck.1 hseg)]
      simp [hseg]

/-- UPKHINT's decoder accepts a window by the three checks of R115, and then gives the listed bits. -/
theorem unpackHint_eq_some_iff {hs : List (List Word)} :
    unpackHint p ((List.range (hintLen p)).map W) = some hs ↔
      HintAccepted p W ∧ vecElements p.k (hintBit p W) = hs := by
  have hindex : (((List.range (hintLen p)).map W).take p.omega).map BitVec.toNat = indexBytes p W := by
    rw [hintLen, map_range_add, List.take_left' (by simp), List.map_map]
    rfl
  have hswitch : (((List.range (hintLen p)).map W).drop p.omega).map BitVec.toNat =
      (List.range' 0 p.k).map fun x => switchBefore p W (x + 1) := by
    rw [hintLen, map_range_add, List.drop_left' (by simp), List.map_map, List.range_eq_range']
    rfl
  have hloop := unpackElements_eq_some_iff (p := p) (W := W) (n := p.k) (i := 0) (hs := hs)
  rw [← List.range_eq_range', Nat.zero_add] at hloop
  simp only [List.mem_range] at hloop
  rw [unpackHint, hindex, hswitch, hintAccepted_iff, ← List.range_eq_range']
  exact hloop

/-! ## The hint codec is a bijection (R116) -/

theorem HintLayout.switchBefore_eq (hl : HintLayout p h W) {i : Nat} (hi : i ≤ p.k) :
    switchBefore p W i = onesBefore h i := by
  obtain ⟨-, hswitch, -⟩ := hl
  cases i with
  | zero => rfl
  | succ i => rw [switchBefore_succ, hswitch i hi]

/-- The indices that a VecK's window lists are those of its set bits. -/
theorem HintLayout.segmentIndices_eq (hl : HintLayout p h W) {i : Nat} (hi : i < p.k) :
    segmentIndices p W i = (List.range 256).filter fun j => h i j = 1 := by
  have hlo := hl.switchBefore_eq hi.le
  have hhi := hl.switchBefore_eq hi
  obtain ⟨hindex, -, -⟩ := hl
  rw [segmentIndices, hlo, hhi, onesBefore_succ, Nat.add_sub_cancel_left]
  refine List.ext_getElem? fun r => ?_
  by_cases hr : r < onesBelow h i 256
  · obtain ⟨j, hj, hb, rfl⟩ := exists_rank hr
    rw [filter_range_rank hj hb, List.getElem?_map, List.getElem?_range' hr, Option.map_some, one_mul]
    exact congrArg some (hindex i hi j hj (by simpa using hb))
  · rw [List.getElem?_eq_none (by simpa using hr), List.getElem?_eq_none (Nat.not_lt.1 hr)]

theorem HintLayout.accepted (hl : HintLayout p h W) (hcount : onesBefore h p.k ≤ p.omega) : HintAccepted p W := by
  refine hintAccepted_iff.2 ⟨fun i hi => ⟨?_, ?_, ?_⟩, ?_⟩
  · rw [hl.switchBefore_eq hi.le, hl.switchBefore_eq hi]
    exact onesBefore_mono h i.le_succ
  · rw [hl.switchBefore_eq hi]
    exact (onesBefore_mono h hi).trans hcount
  · rw [hl.segmentIndices_eq hi, List.isChain_iff_pairwise]
    exact List.pairwise_lt_range.filter _
  · rw [hl.switchBefore_eq le_rfl]
    exact hl.2.2

/-- The window of a valid VecK decodes to it. -/
theorem HintLayout.hintBit_eq (hl : HintLayout p h W) (hv : ValidVec p h) {i j : Nat} (hi : i < p.k) (hj : j < 256) :
    hintBit p W i j = h i j := by
  rw [hintBit, hl.segmentIndices_eq hi]
  rcases hv.1 i hi j hj with h0 | h1
  · simp [h0]
  · simp [h1, hj]

theorem hintBit_eq_one_iff {i j : Nat} : hintBit p W i j = 1 ↔ j ∈ segmentIndices p W i := by
  unfold hintBit
  split <;> simp_all

/-- A listed index is a byte. -/
theorem segmentIndices_lt {i : Nat} : ∀ j ∈ segmentIndices p W i, j < 256 :=
  List.forall_mem_map.2 fun k _ => (W k).isLt

/-- An accepted element's set bits are the listed indices, in the same order. -/
theorem SegmentAccepted.filter_hintBit {i : Nat} (hs : SegmentAccepted p W i) :
    ((List.range 256).filter fun j => hintBit p W i j = 1) = segmentIndices p W i := by
  obtain ⟨-, -, hchain⟩ := hs
  refine (List.pairwise_lt_range.filter _).eq_of_mem_iff (List.isChain_iff_pairwise.1 hchain) fun j => ?_
  rw [List.mem_filter, List.mem_range, decide_eq_true_eq, hintBit_eq_one_iff]
  exact and_iff_right_of_imp (segmentIndices_lt j)

theorem SegmentAccepted.onesBelow_eq {i : Nat} (hs : SegmentAccepted p W i) :
    onesBelow (hintBit p W) i 256 = switchBefore p W (i + 1) - switchBefore p W i := by
  rw [onesBelow, hs.filter_hintBit, segmentIndices, List.length_map, List.length_range']

theorem onesBefore_hintBit (h : HintAccepted p W) {i : Nat} (hi : i ≤ p.k) :
    onesBefore (hintBit p W) i = switchBefore p W i := by
  obtain ⟨hseg, -⟩ := hintAccepted_iff.1 h
  induction i with
  | zero => rfl
  | succ i ih =>
    have hs := hseg i hi
    rw [onesBefore_succ, ih (Nat.le_of_succ_le hi), hs.onesBelow_eq, Nat.add_sub_cancel' hs.1]

/-- An accepted window is laid out as its decoded VecK. -/
theorem hintLayout_hintBit (h : HintAccepted p W) : HintLayout p (hintBit p W) W := by
  obtain ⟨hseg, hpad⟩ := hintAccepted_iff.1 h
  refine ⟨fun i hi j hj hb => ?_, fun i hi => (onesBefore_hintBit h hi).symm, ?_⟩
  · have hrank : (segmentIndices p W i)[onesBelow (hintBit p W) i j]? = some j := by
      rw [← (hseg i hi).filter_hintBit]
      exact filter_range_rank hj (by simpa using hb)
    have hlt := (onesBelow_lt hj hb).trans_eq (hseg i hi).onesBelow_eq
    rw [segmentIndices, List.getElem?_map, List.getElem?_range' hlt, Option.map_some,
      one_mul] at hrank
    rw [onesBefore_hintBit h hi.le]
    exact Option.some.inj hrank
  · rw [onesBefore_hintBit h le_rfl]
    exact hpad

theorem switchBefore_le_of_accepted (h : HintAccepted p W) {i : Nat} (hi : i ≤ p.k) :
    switchBefore p W i ≤ p.omega := by
  obtain ⟨hbounds, -⟩ := h
  cases i with
  | zero => exact Nat.zero_le _
  | succ i => exact (hbounds i hi).2

theorem validVec_hintBit (h : HintAccepted p W) : ValidVec p (hintBit p W) := by
  refine ⟨fun i _ j _ => ?_, (onesBefore_hintBit h le_rfl).trans_le (switchBefore_le_of_accepted h le_rfl)⟩
  unfold hintBit
  split
  · exact .inr rfl
  · exact .inl rfl

/-- A number below the last of several growing bounds lies between two neighbours. -/
theorem exists_segment {f : Nat → Nat} (h0 : f 0 = 0) {n k : Nat} (hk : k < f n) :
    ∃ i < n, f i ≤ k ∧ k < f (i + 1) := by
  induction n with
  | zero => omega
  | succ n ih =>
    by_cases hlt : k < f n
    · obtain ⟨i, hi, h⟩ := ih hlt
      exact ⟨i, hi.trans n.lt_succ_self, h⟩
    · exact ⟨n, n.lt_succ_self, Nat.not_lt.1 hlt, hk⟩

/-- Two windows of one VecK are equal: every index byte is that of a set bit or padding. -/
theorem HintLayout.bytes_eq (hl : HintLayout p h W) (hl' : HintLayout p h W') : ∀ k < hintLen p, W k = W' k := by
  obtain ⟨hindex, hswitch, hpad⟩ := hl
  obtain ⟨hindex', hswitch', hpad'⟩ := hl'
  intro k hk
  by_cases hones : k < onesBefore h p.k
  · obtain ⟨i, hi, hlo, hhi⟩ := exists_segment (f := onesBefore h) rfl hones
    obtain ⟨r, rfl⟩ := Nat.exists_eq_add_of_le hlo
    rw [onesBefore_succ] at hhi
    obtain ⟨j, hj, hb, rfl⟩ := exists_rank (Nat.lt_of_add_lt_add_left hhi)
    have hb : h i j = 1 := by simpa using hb
    exact BitVec.eq_of_toNat_eq ((hindex i hi j hj hb).trans (hindex' i hi j hj hb).symm)
  · by_cases hlt : k < p.omega
    · rw [hpad k (Nat.not_lt.1 hones) hlt, hpad' k (Nat.not_lt.1 hones) hlt]
    · obtain ⟨i, rfl⟩ := Nat.exists_eq_add_of_le (Nat.not_lt.1 hlt)
      have hi : i < p.k := Nat.lt_of_add_lt_add_left hk
      exact BitVec.eq_of_toNat_eq ((hswitch i hi).trans (hswitch' i hi).symm)

/-! ## PKHINT and UPKHINT -/

/-- Coefficient j of slot n + i of a VecK that was written from slot n on. -/
theorem readCoeff_writeCoeffs_vec {m : Memory} (hm : m.wf) (n : Nat) {k i j : Nat} {cs : List Word}
    (hl : cs.length = k * ringDegree) (hi : i < k) (hj : j < ringDegree) :
    readCoeff (writeCoeffs m n cs) (n + i) j = cs[ringDegree * i + j]? := by
  rw [readCoeff, coeffAddr_slot_add]
  refine readCoeff_writeCoeffs hm n _ cs ?_
  rw [hl]
  simp only [ringDegree] at hj ⊢
  omega

theorem vecElements_flatten_length (k : Nat) (h : Nat → Nat → Word) :
    (vecElements k h).flatten.length = k * ringDegree := by
  rw [flatten_length (n := ringDegree) (by simp [vecElements])]
  simp [vecElements]

/-- The VecK written from slot n on is what its slots hold. -/
theorem holdsSlot_writeCoeffs_vec {m : Memory} (hm : m.wf) (n : Nat) {k i : Nat} (hi : i < k)
    (h : Nat → Nat → Word) : HoldsSlot (writeCoeffs m n (vecElements k h).flatten) (n + i) (h i) := by
  intro j hj
  have hget := flatMap_range_getElem? (fun i => (List.range ringDegree).map (h i)) hi (r := j) (by simpa using hj)
  simp only [List.length_map, List.length_range, List.map_const', List.sum_replicate, smul_eq_mul,
    Nat.mul_comm i] at hget
  rw [readCoeff_writeCoeffs_vec hm n (vecElements_flatten_length k h) hi hj, vecElements, ← List.flatMap_def, hget]
  simp [hj]

/-- What a command leaves that wrote the K slots from slot n on. -/
theorem wroteSlots_vec (s : State) (n : Nat) {cs : List Word} (hl : cs.length = s.params.k * ringDegree)
    (dfail : Bool) :
    WroteSlots s (complete { s with mem := writeCoeffs s.mem n cs } .ok dfail) (vecSlots s.params n) dfail := by
  have hw : WritesOnly ((vecSlots s.params n).map .slot) s { s with mem := writeCoeffs s.mem n cs } := by
    rw [vecSlots, List.map_map]
    exact writesOnly_slots n s.params.k hl
  exact hw.wroteSlots rfl dfail

/-- PKHINT of a valid VecK lays it out in the window. -/
theorem exec_pkhint (hs : Ready s) (hm : s.mem.wf) (hb : b.toNat + s.params.k ≤ s.params.npoly)
    (ho : s.off + hintLen s.params ≤ s.params.bufBytes)
    (hh : ∀ i < s.params.k, HoldsSlot s.mem (b.toNat + i) (h i)) :
    ∃ t W, exec (.pkhint b) s = .next t ∧ WroteWindow s t (hintLen s.params) ∧
      HoldsWindow t.mem s.off (hintLen s.params) W ∧ (ValidVec s.params h → HintLayout s.params h W) := by
  have hrun := execPkhint_runs hs.1 hs.2 hb ho (readSlots_of_coeffs hm hh)
  rw [← vecElements] at hrun
  by_cases hv : ValidVec s.params h
  · have hvalid := (validHint_iff s.params h).2 hv
    have hlen := packHint_length hvalid (by simp [vecElements])
    obtain ⟨W, hW⟩ := exists_stream hlen
    rw [if_pos hvalid, hW] at hrun
    exact ⟨_, W, hrun, (writesOnly_window s.off (by simp)).wroteWindow rfl, holdsWindow_memWrite _ _ _ _,
      fun _ => hintLayout_packHint s.chip.wf hv hW⟩
  · obtain ⟨W, hW⟩ := exists_stream (anyWindow_length s.draws s.off (hintLen s.params))
    rw [if_neg (mt (validHint_iff s.params h).1 hv), hW] at hrun
    exact ⟨_, W, hrun, (writesOnly_window s.off (by simp)).wroteWindow rfl, holdsWindow_memWrite _ _ _ _,
      fun hv' => absurd hv' hv⟩

section unpack

variable (hs : Ready s) (hm : s.mem.wf) (ha : a.toNat + s.params.k ≤ s.params.npoly)
  (ho : s.off + hintLen s.params ≤ s.params.bufBytes) (hW : HoldsWindow s.mem s.off (hintLen s.params) W)
include hs hm ha ho hW

theorem exec_upkhint_accepted (hacc : HintAccepted s.params W) :
    ∃ t, exec (.upkhint a) s = .next t ∧ WroteSlots s t (vecSlots s.params a.toNat) false ∧
      ∀ i < s.params.k, HoldsSlot t.mem (a.toNat + i) (hintBit s.params W i) := by
  have hrun := execUpkhint_runs hs.1 hs.2 ha ho (memRead_of_holdsWindow hm hW)
  rw [unpackHint_eq_some_iff.2 ⟨hacc, rfl⟩] at hrun
  exact ⟨_, hrun, wroteSlots_vec s _ (vecElements_flatten_length _ _) false,
    fun i hi => holdsSlot_writeCoeffs_vec hm _ hi _⟩

theorem exec_upkhint_rejected (hrej : ¬ HintAccepted s.params W) :
    ∃ t, exec (.upkhint a) s = .next t ∧ WroteSlots s t (vecSlots s.params a.toNat) true ∧
      ∀ i < s.params.k, HoldsSlot t.mem (a.toNat + i) fun _ => 0 := by
  have hrun := execUpkhint_runs hs.1 hs.2 ha ho (memRead_of_holdsWindow hm hW)
  have hnone : unpackHint s.params ((List.range (hintLen s.params)).map W) = none :=
    Option.eq_none_iff_forall_not_mem.2 fun _ h => hrej (unpackHint_eq_some_iff.1 h).1
  rw [hnone] at hrun
  refine ⟨_, hrun, wroteSlots_vec s _ List.length_replicate true, fun i hi j hj => ?_⟩
  have hlt : ringDegree * i + j < s.params.k * ringDegree := by simp only [ringDegree] at hj ⊢; omega
  exact (readCoeff_writeCoeffs_vec hm _ List.length_replicate hi hj).trans (List.getElem?_replicate_of_lt hlt)

/-- Only an accepted window leaves DFAIL = 0. -/
theorem hintAccepted_of_dfail (ht : exec (.upkhint a) s = .next t) (hdfail : t.dfail = false) :
    HintAccepted s.params W := by
  by_contra hrej
  obtain ⟨t', ht', ⟨⟨-, -, -, htrue⟩, -⟩, -⟩ := exec_upkhint_rejected hs hm ha ho hW hrej
  obtain rfl : t = t' := Host.Outcome.next.inj (ht.symm.trans ht')
  exact absurd (hdfail.symm.trans htrue) nofun

end unpack

end hints

/-! ## The bits of a challenge window (R117) -/

/-- The bits of the window are those of R117 for the coefficients c. -/
def ChallengeLayout (p : Params) (c : Nat → Word) (W : Nat → Byte) : Prop :=
  (∀ i < 256, bitAt W i = if c i = 0 then 0 else 1) ∧
  (∀ i < 256, c i ≠ 0 → bitAt W (256 + nonzeroBelow c i) = if c i = u32 (p.q - 1) then 1 else 0) ∧
  ∀ k, 60 ≤ k → k < 64 → bitAt W (256 + k) = 0

theorem bitAt_lt (B : Nat → Byte) (j : Nat) : bitAt B j < 2 := Nat.mod_lt _ two_pos

theorem fld_one (B : Nat → Byte) (j : Nat) : fld B 1 j = bitAt B j := by simp [fld]

/-- The bits of a stream from byte n on. -/
theorem bitAt_drop (B : Nat → Byte) (n j : Nat) : bitAt (fun k => B (n + k)) j = bitAt B (8 * n + j) := by
  rw [bitAt, bitAt, Nat.mul_add_div (by decide), Nat.mul_add_mod]

/-- The bits of a stream whose bytes are those of a number given by its bits. -/
theorem bitAt_of_ofDigits {B : Nat → Byte} {n : Nat} {bs : List Nat} (hbs : ∀ v ∈ bs, v < 2 ^ 1)
    (hl : bs.length ≤ 8 * n) (hB : bytesOfNum n (ofDigits 1 bs) = (List.range n).map B) {j : Nat} (hj : j < 8 * n) :
    bitAt B j = bs.getD j 0 := by
  have hlt : ofDigits 1 bs < 2 ^ (8 * n) :=
    (ofDigits_lt 1 bs hbs).trans_le (Nat.pow_le_pow_right two_pos (by simpa using hl))
  rw [← numOfBytes_stream_bit B hj, ← hB, numOfBytes_bytesOfNum n _ hlt]
  simpa using ofDigits_div 1 bs hbs j

theorem validChal_iff (p : Params) (c : Nat → Word) :
    validChal p ((List.range ringDegree).map c) = true ↔ ValidChallenge p c := by
  simp [validChal, ValidChallenge, nonzeroBelow, List.filter_map, Function.comp_def, or_assoc]

/-- The nonzero coefficients of a challenge, in order, as the indices they stand at. -/
theorem filter_nonzero (c : Nat → Word) (n : Nat) :
    ((List.range n).map c).filter (· ≠ 0) = ((List.range n).filter fun i => c i ≠ 0).map c := List.filter_map

theorem indicator_lt (b : Prop) [Decidable b] : (if b then 1 else 0) < 2 ^ 1 := by split <;> decide

theorem bitAt_packChal_mask {c : Nat → Word} {W : Nat → Byte}
    (hW : packChal p ((List.range ringDegree).map c) = (List.range chalLen).map W) {i : Nat} (hi : i < 256) :
    bitAt W i = if c i = 0 then 0 else 1 := by
  rw [packChal, show chalLen = 32 + 8 from rfl, map_range_add] at hW
  obtain ⟨hmask, -⟩ := List.append_inj hW (by simp)
  rw [bitAt_of_ofDigits (List.forall_mem_map.2 fun _ _ => indicator_lt _) (by simp) hmask hi]
  simp [hi]

/-- Sign bit k is whether the k-th nonzero coefficient is Q − 1, and 0 where there is none. -/
theorem bitAt_packChal_sign {c : Nat → Word} {W : Nat → Byte} (hc : nonzeroBelow c 256 = 60)
    (hW : packChal p ((List.range ringDegree).map c) = (List.range chalLen).map W) {k : Nat} (hk : k < 64) :
    bitAt W (256 + k) =
      (((List.range 256).filter fun i => c i ≠ 0)[k]?.map fun i => if c i = u32 (p.q - 1) then 1 else 0).getD 0 := by
  rw [packChal, show chalLen = 32 + 8 from rfl, map_range_add] at hW
  obtain ⟨-, hsigns⟩ := List.append_inj hW (by simp)
  rw [filter_nonzero, List.map_map] at hsigns
  have hlen : nonzeroBelow c 256 ≤ 8 * 8 := by omega
  rw [← bitAt_drop W 32, bitAt_of_ofDigits (List.forall_mem_map.2 fun _ _ => indicator_lt _)
    (by rwa [List.length_map]) hsigns hk, List.getD_eq_getElem?_getD, List.getElem?_map]

theorem nonzeroBelow_lt {c : Nat → Word} (hc : nonzeroBelow c 256 = 60) {i : Nat} (hi : i < 256) (h0 : c i ≠ 0) :
    nonzeroBelow c i < 60 := by
  obtain ⟨hlt, -⟩ := List.getElem?_eq_some_iff.1 (filter_range_rank (P := fun i => c i ≠ 0) hi (by simpa using h0))
  exact hlt.trans_eq hc

/-- A nonzero coefficient's sign stands at its rank among the nonzero ones. -/
theorem challengeLayout_packChal {c : Nat → Word} {W : Nat → Byte} (hc : ValidChallenge p c)
    (hW : packChal p ((List.range ringDegree).map c) = (List.range chalLen).map W) : ChallengeLayout p c W := by
  obtain ⟨hcount, -⟩ := hc
  refine ⟨fun i hi => bitAt_packChal_mask hW hi, fun i hi h0 => ?_, fun k hlo hhi => ?_⟩
  · have hlt := nonzeroBelow_lt hcount hi h0
    rw [bitAt_packChal_sign hcount hW (by omega), nonzeroBelow, filter_range_rank hi (by simpa using h0)]
    rfl
  · rw [bitAt_packChal_sign hcount hW hhi, List.getElem?_eq_none (hcount.trans_le hlo)]
    rfl

/-! ## What UPKCHAL makes of a window (R118) -/

theorem maskBelow_succ (W : Nat → Byte) (i : Nat) : maskBelow W (i + 1) = maskBelow W i + bitAt W i := by
  simp [maskBelow, List.range_succ]

theorem maskBelow_mono (W : Nat → Byte) : Monotone (maskBelow W) :=
  monotone_nat_of_le_succ fun i => by rw [maskBelow_succ]; omega

theorem nonzeroBelow_succ (c : Nat → Word) (i : Nat) :
    nonzeroBelow c (i + 1) = nonzeroBelow c i + if c i = 0 then 0 else 1 := by
  rw [nonzeroBelow, List.range_succ, List.filter_append, List.length_append]
  by_cases h : c i = 0#32 <;> simp [nonzeroBelow, h]

theorem maskBelow_eq_nonzeroBelow {W : Nat → Byte} {c : Nat → Word} {n : Nat}
    (h : ∀ i < n, bitAt W i = if c i = 0 then 0 else 1) {i : Nat} (hi : i ≤ n) : maskBelow W i = nonzeroBelow c i := by
  induction i with
  | zero => rfl
  | succ i ih => rw [maskBelow_succ, nonzeroBelow_succ, ih (by omega), h i hi]

/-- The number that the window's sign bytes are. -/
def chalSigns (W : Nat → Byte) : Nat := numOfBytes ((List.range 8).map fun k => W (32 + k))

theorem chalSigns_bit (W : Nat → Byte) {k : Nat} (hk : k < 64) : chalSigns W / 2 ^ k % 2 = bitAt W (256 + k) := by
  rw [chalSigns, numOfBytes_stream_bit _ hk, bitAt_drop]

/-- The first check of R118, bit by bit. -/
theorem chalSigns_high_eq_zero_iff (W : Nat → Byte) :
    chalSigns W / 2 ^ 60 = 0 ↔ ∀ k, 60 ≤ k → k < 64 → bitAt W (256 + k) = 0 := by
  have hlt : chalSigns W < 2 ^ 64 := by
    simpa [chalSigns] using numOfBytes_lt ((List.range 8).map fun k => W (32 + k))
  constructor
  · intro h k hlo hhi
    obtain ⟨r, rfl⟩ := Nat.exists_eq_add_of_le hlo
    rw [← chalSigns_bit W hhi, pow_add, ← Nat.div_div_eq_div_mul, h, Nat.zero_div]
  · intro h
    have h60 := (chalSigns_bit W (by decide)).trans (h 60 (by decide) (by decide))
    have h61 := (chalSigns_bit W (by decide)).trans (h 61 (by decide) (by decide))
    have h62 := (chalSigns_bit W (by decide)).trans (h 62 (by decide) (by decide))
    have h63 := (chalSigns_bit W (by decide)).trans (h 63 (by decide) (by decide))
    omega

/-- Coefficient i takes the sign bit whose number is how many mask bits are set below i. -/
theorem chalCoeffs_map_range (q n signs : Nat) {m : Nat → Nat} (hm : ∀ i, m i < 2) :
    chalCoeffs q ((List.range n).map m) signs = (List.range n).map fun i =>
      if m i = 1 then (if signs / 2 ^ ((List.range i).map m).sum % 2 = 1 then u32 (q - 1) else 1) else 0 := by
  induction n generalizing m signs with
  | zero => rfl
  | succ n ih =>
    have hsum (i : Nat) : ((List.range (i + 1)).map m).sum = m 0 + ((List.range i).map (m ∘ Nat.succ)).sum := by
      rw [List.range_succ_eq_map, List.map_cons, List.map_map, List.sum_cons]
    have hrest (signs : Nat) := ih signs (m := m ∘ Nat.succ) fun i => hm (i + 1)
    have h0 := hm 0
    rw [List.range_succ_eq_map, List.map_cons, List.map_cons, List.map_map, List.map_map, chalCoeffs]
    rcases (show m 0 = 0 ∨ m 0 = 1 by omega) with h | h <;>
      simp [h, hrest, hsum, pow_add, Nat.div_div_eq_div_mul]

/-- The coefficient i that an accepted window decodes to. -/
def chalCoeff (q : Nat) (W : Nat → Byte) (i : Nat) : Word :=
  if bitAt W i = 1 then (if bitAt W (256 + maskBelow W i) = 1 then u32 (q - 1) else 1) else 0

/-- UPKCHAL's decoder accepts a window by the two checks of R118, and then gives its coefficients. -/
theorem unpackChal_eq_some_iff {W : Nat → Byte} {cs : List Word} :
    unpackChal p ((List.range chalLen).map W) = some cs ↔
      ChallengeAccepted W ∧ (List.range ringDegree).map (chalCoeff p.q W) = cs := by
  have htake : ((List.range chalLen).map W).take 32 = (List.range 32).map W := by
    rw [← List.map_take, List.take_range]; rfl
  have hdrop : numOfBytes (((List.range chalLen).map W).drop 32) = chalSigns W := by
    rw [show chalLen = 32 + 8 from rfl, map_range_add, List.drop_left' (by simp), chalSigns]
  have hmask : digits 1 256 (numOfBytes ((List.range 32).map W)) = (List.range 256).map (bitAt W) := by
    rw [← funext (fld_one W)]
    exact fields_stream W (by decide)
  have hcoeffs (hacc : ChallengeAccepted W) :
      chalCoeffs p.q ((List.range 256).map (bitAt W)) (chalSigns W) = (List.range 256).map (chalCoeff p.q W) := by
    rw [chalCoeffs_map_range _ _ _ (bitAt_lt W)]
    refine List.map_congr_left fun i hi => ?_
    have hle : maskBelow W i ≤ 60 := (maskBelow_mono W (List.mem_range.1 hi).le).trans_eq hacc.2
    rw [chalCoeff, ← chalSigns_bit W (by omega), maskBelow]
  have hchecks : (chalSigns W / 2 ^ 60 ≠ 0 ∨ maskBelow W 256 ≠ tau) ↔ ¬ ChallengeAccepted W := by
    rw [ChallengeAccepted, ← chalSigns_high_eq_zero_iff, not_and_or]
  rw [unpackChal, htake, hdrop, popcount, hmask]
  by_cases hacc : ChallengeAccepted W
  · rw [if_neg (by rw [← maskBelow, hchecks]; exact not_not_intro hacc), hcoeffs hacc, Option.some.injEq]
    exact (and_iff_right hacc).symm
  · rw [if_pos (by rw [← maskBelow, hchecks]; exact hacc)]
    simp [hacc]

/-! ## The challenge codec is a bijection (R119) -/

/-- Q − 1 is neither 0 nor 1. -/
theorem u32_pred_q_ne (wf : p.WF) : u32 (p.q - 1) ≠ 0 ∧ u32 (p.q - 1) ≠ 1 := by
  obtain ⟨-, -, hq, -⟩ := wf.wf1
  have hlt := wf.two_q_lt
  have h := u32_toNat (show p.q - 1 < 2 ^ 32 by omega)
  constructor <;> intro he <;> rw [he] at h
  · exact absurd (show (0 : Nat) = p.q - 1 from h) (by omega)
  · exact absurd (show (1 : Nat) = p.q - 1 from h) (by omega)

theorem chalCoeff_of_unset {q i : Nat} {W : Nat → Byte} (h : bitAt W i = 0) : chalCoeff q W i = 0 := by
  rw [chalCoeff, h]
  rfl

theorem chalCoeff_of_set {q i : Nat} {W : Nat → Byte} (h : bitAt W i = 1) :
    chalCoeff q W i = if bitAt W (256 + maskBelow W i) = 1 then u32 (q - 1) else 1 := if_pos h

theorem chalCoeff_cases (q : Nat) (W : Nat → Byte) (i : Nat) :
    chalCoeff q W i = 0 ∨ chalCoeff q W i = 1 ∨ chalCoeff q W i = u32 (q - 1) := by
  unfold chalCoeff
  split
  · split
    · exact .inr (.inr rfl)
    · exact .inr (.inl rfl)
  · exact .inl rfl

theorem chalCoeff_eq_zero_iff (wf : p.WF) (W : Nat → Byte) (i : Nat) : chalCoeff p.q W i = 0 ↔ bitAt W i = 0 := by
  obtain ⟨hne, -⟩ := u32_pred_q_ne wf
  refine ⟨fun h => ?_, chalCoeff_of_unset⟩
  by_contra h0
  have hlt := bitAt_lt W i
  rw [chalCoeff_of_set (by omega)] at h
  split at h
  · exact hne h
  · exact absurd h (by decide)

theorem ChallengeLayout.accepted {c : Nat → Word} {W : Nat → Byte} (h : ChallengeLayout p c W)
    (hc : nonzeroBelow c 256 = 60) : ChallengeAccepted W := by
  obtain ⟨hmask, -, hhigh⟩ := h
  exact ⟨hhigh, (maskBelow_eq_nonzeroBelow hmask le_rfl).trans hc⟩

/-- The window of a challenge decodes to it. -/
theorem ChallengeLayout.chalCoeff_eq {c : Nat → Word} {W : Nat → Byte} (h : ChallengeLayout p c W) (wf : p.WF)
    (hc : ValidChallenge p c) {i : Nat} (hi : i < 256) : chalCoeff p.q W i = c i := by
  obtain ⟨hmask, hsign, -⟩ := h
  obtain ⟨-, hne⟩ := u32_pred_q_ne wf
  by_cases h0 : c i = 0
  · rw [chalCoeff_of_unset (by rw [hmask i hi, if_pos h0]), h0]
  · rw [chalCoeff_of_set (by rw [hmask i hi, if_neg h0]), maskBelow_eq_nonzeroBelow hmask hi.le, hsign i hi h0]
    rcases (hc.2 i hi).resolve_left h0 with h1 | hq
    · rw [h1, if_neg hne.symm, if_neg (by decide)]
    · rw [hq, if_pos rfl, if_pos rfl]

/-- An accepted window is laid out as its decoded coefficients. -/
theorem challengeLayout_chalCoeff (wf : p.WF) {W : Nat → Byte} (h : ChallengeAccepted W) :
    ChallengeLayout p (chalCoeff p.q W) W := by
  obtain ⟨hhigh, -⟩ := h
  obtain ⟨-, hne⟩ := u32_pred_q_ne wf
  have hmask (i : Nat) : bitAt W i = if chalCoeff p.q W i = 0 then 0 else 1 := by
    have hlt := bitAt_lt W i
    split
    · next h0 => exact (chalCoeff_eq_zero_iff wf W i).1 h0
    · next h0 =>
      have hne := mt (chalCoeff_eq_zero_iff wf W i).2 h0
      omega
  refine ⟨fun i _ => hmask i, fun i hi h0 => ?_, hhigh⟩
  have hlt := bitAt_lt W (256 + maskBelow W i)
  rw [← maskBelow_eq_nonzeroBelow (fun i _ => hmask i) le_rfl, chalCoeff_of_set (by rw [hmask, if_neg h0])]
  split
  · next h1 => rw [if_pos rfl, h1]
  · rw [if_neg hne.symm]
    omega

theorem validChallenge_chalCoeff (wf : p.WF) {W : Nat → Byte} (h : ChallengeAccepted W) :
    ValidChallenge p (chalCoeff p.q W) := by
  obtain ⟨hmask, -⟩ := challengeLayout_chalCoeff wf h
  exact ⟨(maskBelow_eq_nonzeroBelow hmask le_rfl).symm.trans h.2, fun i _ => chalCoeff_cases _ _ i⟩

/-- Two windows of one challenge are equal: every sign bit below 60 is that of a nonzero coefficient. -/
theorem ChallengeLayout.bytes_eq {c : Nat → Word} {W W' : Nat → Byte} (h : ChallengeLayout p c W)
    (h' : ChallengeLayout p c W') (hc : nonzeroBelow c 256 = 60) : ∀ k < 40, W k = W' k := by
  obtain ⟨hmask, hsign, hhigh⟩ := h
  obtain ⟨hmask', hsign', hhigh'⟩ := h'
  refine bytes_eq_of_fld_eq (w := 1) (m := 320) rfl fun j hj => ?_
  rw [fld_one, fld_one]
  by_cases hj256 : j < 256
  · rw [hmask j hj256, hmask' j hj256]
  · obtain ⟨k, rfl⟩ := Nat.exists_eq_add_of_le (Nat.not_lt.1 hj256)
    by_cases hk : k < 60
    · obtain ⟨i, hi, h0, rfl⟩ := exists_rank (P := fun i => c i ≠ 0) (n := 256) (hk.trans_eq hc.symm)
      have h0 : c i ≠ 0 := by simpa using h0
      exact (hsign i hi h0).trans (hsign' i hi h0).symm
    · rw [hhigh k (by omega) (by omega), hhigh' k (by omega) (by omega)]

section unpack

variable (hs : Ready s) (hm : s.mem.wf) (ha : a.toNat < s.params.npoly) (ho : s.off + chalLen ≤ s.params.bufBytes)
  {W : Nat → Byte} (hW : HoldsWindow s.mem s.off chalLen W)
include hs hm ha ho hW

theorem exec_upkchal_accepted (hacc : ChallengeAccepted W) :
    ∃ t, exec (.upkchal a) s = .next t ∧ WroteSlots s t [a.toNat] false ∧
      HoldsSlot t.mem a.toNat (chalCoeff s.params.q W) := by
  have hrun := execUpkchal_runs hs.1 hs.2 ha ho (memRead_of_holdsWindow hm hW)
  rw [unpackChal_eq_some_iff.2 ⟨hacc, rfl⟩] at hrun
  exact ⟨_, hrun, (writesOnly_slot (s := s) a.toNat (by simp)).wroteSlots (slots := [a.toNat]) rfl false,
    holdsSlot_writeCoeffs hm _ _⟩

theorem exec_upkchal_rejected (hrej : ¬ ChallengeAccepted W) :
    ∃ t, exec (.upkchal a) s = .next t ∧ WroteSlots s t [a.toNat] true ∧ HoldsSlot t.mem a.toNat fun _ => 0 := by
  have hrun := execUpkchal_runs hs.1 hs.2 ha ho (memRead_of_holdsWindow hm hW)
  have hnone : unpackChal s.params ((List.range chalLen).map W) = none :=
    Option.eq_none_iff_forall_not_mem.2 fun _ h => hrej (unpackChal_eq_some_iff.1 h).1
  rw [hnone] at hrun
  refine ⟨_, hrun, (writesOnly_slot (s := s) a.toNat (by simp)).wroteSlots (slots := [a.toNat]) rfl true, ?_⟩
  intro i hi
  exact (readCoeff_writeCoeffs hm _ _ _ (by simpa using hi)).trans (List.getElem?_replicate_of_lt hi)

/-- Only an accepted window leaves DFAIL = 0. -/
theorem challengeAccepted_of_dfail (ht : exec (.upkchal a) s = .next t) (hdfail : t.dfail = false) :
    ChallengeAccepted W := by
  by_contra hrej
  obtain ⟨t', ht', ⟨⟨-, -, -, htrue⟩, -⟩, -⟩ := exec_upkchal_rejected hs hm ha ho hW hrej
  obtain rfl : t = t' := Host.Outcome.next.inj (ht.symm.trans ht')
  exact absurd (hdfail.symm.trans htrue) nofun

end unpack

/-- PKCHAL of a challenge lays it out in the window. -/
theorem exec_pkchal (hs : Ready s) (hm : s.mem.wf) (hb : b.toNat < s.params.npoly)
    (ho : s.off + chalLen ≤ s.params.bufBytes) {c : Nat → Word} (hc : HoldsSlot s.mem b.toNat c) :
    ∃ t W, exec (.pkchal b) s = .next t ∧ WroteWindow s t chalLen ∧ HoldsWindow t.mem s.off chalLen W ∧
      (ValidChallenge s.params c → ChallengeLayout s.params c W) := by
  obtain ⟨t, W, ht, hwrote, hW, hpack⟩ := packSlot_holds hs hm hb ho hc
    (enc := fun cs => if validChal s.params cs then packChal s.params cs else anyWindow s.draws s.off chalLen)
    (by split <;> simp)
  refine ⟨t, W, ht, hwrote, hW, fun hv => challengeLayout_packChal hv ?_⟩
  rw [← hpack, if_pos ((validChal_iff s.params c).2 hv)]

end Sys2Proof.Machine

namespace Sys2Proof.Proofs

open Sys2Proof.Machine Sys2Proof.Claims

/-- Settles O24: each encoder gives a coefficient in its domain its code, which has the codec's width. -/
theorem densePackWritesFields : Obligations.DensePackWritesFields :=
  ⟨pkt1_packs, pkt0_packs, pketa_packs, pkg1_packs⟩

/-- Settles O25: each decoder gives a field its value, which is a word. -/
theorem denseUnpackReadsFields : Obligations.DenseUnpackReadsFields :=
  ⟨upkt1_unpacks, upkt0_unpacks, upketa_unpacks, upkg1_unpacks⟩

/-- Settles O26: only a completion with ERR = 0 has decoded the window, and every field decodes below Q. -/
theorem unpackedGamma1IsNormalized : Obligations.UnpackedGamma1IsNormalized := by
  intro s t a hm ht herr j hj
  have wf : s.params.WF := s.chip.wf
  rcases unpackSlot_next ht with (⟨e, he, rfl⟩ | ⟨-, -, rfl⟩) | ⟨w, hw, rfl⟩
  · obtain rfl : e = .ok := herr
    exact absurd (firstError_code he) (by decide)
  · cases herr
  · obtain ⟨W, hW⟩ := exists_stream (readBytes_length hw)
    obtain ⟨-, hlt⟩ := decG1_spec wf (fld_lt W 20 j)
    have hq := wf.two_q_lt
    rw [hW, denseUnpack_stream]
    exact ⟨_, holdsSlot_writeCoeffs hm a.toNat _ j hj, by rwa [u32_toNat (by omega)]⟩

/-- Settles O27: codes and values of each codec undo each other. -/
theorem densePackThenUnpack : Obligations.DensePackThenUnpack := by
  refine ⟨⟨?_, ?_, ?_, ?_⟩, ⟨?_, ?_, ?_, ?_⟩, fun p wf => ⟨fun _ hv => hv, fun hd _ hv => domT0_value wf hd hv,
    fun _ hv => domEta_value_iff wf hv, fun _ hv => domG1_value_iff wf hv⟩⟩
  · exact roundTrips_of_value_code pkt1_packs upkt1_unpacks fun _ _ _ _ _ hv => hv
  · exact roundTrips_of_value_code pkt0_packs upkt0_unpacks fun p _ c v _ hv => by rw [valT0, hv, sub_sub_cancel]
  · exact roundTrips_of_value_code pketa_packs upketa_unpacks fun p _ c v _ hv => by rw [valEta, hv, sub_sub_cancel]
  · exact roundTrips_of_value_code pkg1_packs upkg1_unpacks fun p wf c v hc hv => valG1_code wf hc hv
  · exact windowRoundTrips_of_code_value pkt1_packs upkt1_unpacks fun _ _ _ _ _ hc => hc
  · exact windowRoundTrips_of_code_value pkt0_packs upkt0_unpacks fun p _ v _ c hc => by rw [hc, valT0, sub_sub_cancel]
  · exact windowRoundTrips_of_code_value pketa_packs upketa_unpacks fun p _ v _ c hc => by
      rw [hc, valEta, sub_sub_cancel]
  · exact windowRoundTrips_of_code_value pkg1_packs upkg1_unpacks fun p wf v hv c hc => codeG1_value wf hv hc

/-- Settles O28, by where each index, each switch-over point and the padding stand in the packed bytes. -/
theorem pkhintLaysOutIndices : Obligations.PkhintLaysOutIndices :=
  fun _ _ _ hs hm hb ho hh => exec_pkhint hs hm hb ho hh

/-- Settles O29, by whether the window passes the three checks. -/
theorem upkhintDecodesOrRejects : Obligations.UpkhintDecodesOrRejects := by
  intro s a W hs hm ha ho hW
  by_cases hacc : HintAccepted s.params W
  · obtain ⟨t, ht, hwrote, hslots⟩ := exec_upkhint_accepted hs hm ha ho hW hacc
    refine ⟨t, ht, fun _ => ⟨hwrote, fun i hi j hj => ?_⟩, fun hrej => absurd hacc hrej⟩
    rw [← mem_segmentIndices, hslots i hi j hj]
    exact ⟨fun hmem => congrArg some (if_pos hmem), fun hmem => congrArg some (if_neg hmem)⟩
  · obtain ⟨t, ht, h⟩ := exec_upkhint_rejected hs hm ha ho hW hacc
    exact ⟨t, ht, fun hacc' => absurd hacc' hacc, fun _ => h⟩

/-- Settles O30: the window of a valid VecK is accepted and decodes to it. -/
theorem hintPackThenUnpack : Obligations.HintPackThenUnpack := by
  intro s t s' a b h hs hm hb ho hh hv ht hs' hchip hmem hoff ha
  have hp : s'.params = s.params := congrArg Chip.params hchip
  obtain ⟨t', W, ht', -, hW, hlayout⟩ := exec_pkhint hs hm hb ho hh
  obtain rfl : t = t' := Host.Outcome.next.inj (ht.symm.trans ht')
  have hlayout := hlayout hv
  obtain ⟨u, hu, ⟨hdone, -⟩, hslots⟩ := exec_upkhint_accepted (W := W) (a := a) hs' (hmem ▸ exec_mem_wf hm ht)
    (by rwa [hp]) (by rwa [hp, hoff]) (by rwa [hp, hmem, hoff]) (by rw [hp]; exact hlayout.accepted hv.2)
  rw [hp] at hslots
  refine ⟨u, hu, hdone, fun i hi j hj => ?_⟩
  rw [hslots i hi j hj, hlayout.hintBit_eq hv hi hj]

/-- Settles O31: the accepted window is one of its decoded VecK, and a VecK has only one. -/
theorem hintUnpackThenPack : Obligations.HintUnpackThenPack := by
  intro s t s' a W hs hm ha ho hW ht hdfail hs' hchip hmem ho'
  have hp : s'.params = s.params := congrArg Chip.params hchip
  have hacc := hintAccepted_of_dfail hs hm ha ho hW ht hdfail
  obtain ⟨t', ht', -, hslots⟩ := exec_upkhint_accepted hs hm ha ho hW hacc
  obtain rfl : t = t' := Host.Outcome.next.inj (ht.symm.trans ht')
  obtain ⟨u, W', hu, -, hW', hlayout⟩ := exec_pkhint (b := a) (h := hintBit s.params W) hs'
    (hmem ▸ exec_mem_wf hm ht) (by rwa [hp]) (by rwa [hp]) (by rwa [hp, hmem])
  rw [hp] at hW' hlayout
  exact ⟨u, hu, hW'.congr ((hlayout (validVec_hintBit hacc)).bytes_eq (hintLayout_hintBit hacc))⟩

/-- Settles O32, by the bits of the two numbers that the window is made of. -/
theorem pkchalWritesMaskAndSigns : Obligations.PkchalWritesMaskAndSigns :=
  fun _ _ _ hs hm hb ho hc => exec_pkchal hs hm hb ho hc

/-- Settles O33, by whether the window passes the two checks. -/
theorem upkchalDecodesOrRejects : Obligations.UpkchalDecodesOrRejects := by
  intro s a W hs hm ha ho hW
  by_cases hacc : ChallengeAccepted W
  · obtain ⟨t, ht, h⟩ := exec_upkchal_accepted hs hm ha ho hW hacc
    exact ⟨t, ht, fun _ => h, fun hrej => absurd hacc hrej⟩
  · obtain ⟨t, ht, h⟩ := exec_upkchal_rejected hs hm ha ho hW hacc
    exact ⟨t, ht, fun hacc' => absurd hacc' hacc, fun _ => h⟩

/-- Settles O34: the window of a challenge is accepted and decodes to it. -/
theorem challengePackThenUnpack : Obligations.ChallengePackThenUnpack := by
  intro s t s' a b c hs hm hb ho hc hv ht hs' hchip hmem hoff ha
  have hp : s'.params = s.params := congrArg Chip.params hchip
  obtain ⟨t', W, ht', -, hW, hlayout⟩ := exec_pkchal hs hm hb ho hc
  obtain rfl : t = t' := Host.Outcome.next.inj (ht.symm.trans ht')
  have hlayout := hlayout hv
  obtain ⟨u, hu, ⟨hdone, -⟩, hslot⟩ := exec_upkchal_accepted hs' (hmem ▸ exec_mem_wf hm ht) (hp ▸ ha)
    (by rwa [hp, hoff]) (by rwa [hmem, hoff]) (hlayout.accepted hv.1)
  refine ⟨u, hu, hdone, fun i hi => ?_⟩
  rw [hslot i hi, hp, hlayout.chalCoeff_eq s.chip.wf hv hi]

/-- Settles O35: the accepted window is one of its decoded challenge, and a challenge has only one. -/
theorem challengeUnpackThenPack : Obligations.ChallengeUnpackThenPack := by
  intro s t s' a W hs hm ha ho hW ht hdfail hs' hchip hmem ho'
  have hp : s'.params = s.params := congrArg Chip.params hchip
  have wf : s.params.WF := s.chip.wf
  have hacc := challengeAccepted_of_dfail hs hm ha ho hW ht hdfail
  obtain ⟨t', ht', -, hslot⟩ := exec_upkchal_accepted hs hm ha ho hW hacc
  obtain rfl : t = t' := Host.Outcome.next.inj (ht.symm.trans ht')
  obtain ⟨u, W', hu, -, hW', hlayout⟩ := exec_pkchal hs' (hmem ▸ exec_mem_wf hm ht) (hp ▸ ha) (by rwa [hp])
    (by rwa [hmem])
  have hv := validChallenge_chalCoeff wf hacc
  rw [hp] at hlayout
  exact ⟨u, hu, hW'.congr ((hlayout hv).bytes_eq (challengeLayout_chalCoeff wf hacc) hv.1)⟩

end Sys2Proof.Proofs
end

section
/-! SUPPORT. 60_exceptions.md: the issue and the completion of a command, FATAL, the pending abort and the interrupt.
A command that passes its checks ends on a pending abort (`exec_aborted`); FATAL comes from a sampler's failed stream
only (`fatalFromXof_exec`) and goes with a reset only (`hostStep_fatal`). -/

namespace Sys2Proof.Machine

open Claims

variable {s t : State} {i : Instr}

/-! ## FATAL and the pending abort end a command (R125, R127, R128) -/

/-- FATAL is checked first, on the first step of every command. -/
theorem exec_fatal (hf : s.fatal = true) (hl : s.loop = none) : exec i s = .next (complete s .fatal false) := by
  obtain ⟨inRange, body, -, h⟩ := exec_first (i := i) hl
  rw [h]
  exact command_error (firstError_fatal hf _ _) _ _

section abort

variable (hf : s.fatal = false) (ha : s.abortPending = true)
include hf ha

theorem command_aborted {legal inRange : Bool} (hl : legal = true) (hr : inRange = true) (ds : List Dest)
    (body : Host.Outcome State Fault Refusal) : command s legal inRange ds body = .next (abortWith s ds) :=
  command_abort (firstError_eq_none_iff.2 ⟨hf, hl, hr⟩) ha ds body

/-- UNIF, on its first step and under way, where the checks are behind it (R121). -/
theorem execUnif_aborted {a : Slot} (hr : slotInRange s.params a.toNat = true) :
    execUnif a s = .next (abortWith s (samplerDests a)) := by
  cases hl : s.loop with
  | none => exact (execUnif_first hl a).trans (command_aborted hf ha rfl hr _ _)
  | some l => rw [execUnif, hl]; exact if_pos ha

/-- A pending abort ends every command that passes its checks, with `any` in its named destinations. -/
theorem exec_aborted (hi : i.wellFormed = true) (hr : InRange i s) :
    exec i s = .next (abortWith s (namedDests s i)) := by
  have hslots (n : Slot) (hn : n ∈ i.operands) : slotInRange s.params n.toNat = true := hr.slot hn
  have heta : some (32 * s.params.detaBits) = some (denseLen s.params.detaBits) := by rw [denseLen_eq]
  cases i with
  | nop | rfull | rpart | p2r | decomp | mkhint | usehint => exact command_aborted hf ha rfl rfl _ _
  | vrfull | vrpart | vmkhint | vusehint =>
    exact command_aborted hf ha rfl (by simpa [Instr.operands, and_assoc] using hslots) _ _
  | vp2r | vdecomp =>
    exact command_aborted hf ha (by simpa [Instr.wellFormed] using hi)
      (by simpa [Instr.operands, and_assoc, and_comm] using hslots) _ _
  | cbd2 a | cbd3 a => exact command_aborted hf ha rfl (hr.slot (List.mem_singleton_self a)) _ _
  | unif a => exact execUnif_aborted hf ha (hr.slot (List.mem_singleton_self a))
  | pkt1 n | upkt1 n | pkt0 n | upkt0 n | pkg1 n | upkg1 n | pkchal n | upkchal n =>
    exact command_aborted hf ha rfl
      (Bool.and_eq_true_iff.2 ⟨hr.slot (List.mem_singleton_self n), hr.window rfl⟩) _ _
  | pketa n =>
    rw [namedDests_pketa]
    exact command_aborted hf ha rfl
      (Bool.and_eq_true_iff.2 ⟨hr.slot (List.mem_singleton_self n), hr.window heta⟩) _ _
  | upketa n =>
    exact command_aborted hf ha rfl
      (Bool.and_eq_true_iff.2 ⟨hr.slot (List.mem_singleton_self n), hr.window heta⟩) _ _
  | pkhint n => exact command_aborted hf ha rfl ((hint_inRange_iff (.inl rfl)).2 hr) _ _
  | upkhint n =>
    rw [namedDests_upkhint]
    exact command_aborted hf ha rfl ((hint_inRange_iff (.inr rfl)).2 hr) _ _

end abort

/-! ## How a command's step leaves the engine (R121, R122) -/

theorem completed_or_continues (h : Ends i s t) :
    (t.engine = .idle ∧ t.done = true) ∨
    (t.busy = true ∧ (∃ a, i = .unif a) ∧ t.mem = s.mem ∧ ResultsKept s t ∧ t.done = s.done ∧ t.err = s.err ∧
      t.dfail = s.dfail) := by
  cases h with
  | refused | aborted | xofFailed | executed | rejected => exact .inl ⟨rfl, rfl⟩
  | @continues a l hi => exact .inr (by simp [State.busy, ResultsKept, hi])

/-! ## FATAL (R127) -/

/-- FATAL is as it was, or a sampler's failed stream has set it. -/
def FatalFromXof (i : Instr) (s t : State) : Prop :=
  t.fatal = s.fatal ∨ (t.fatal = true ∧ t.err = .xofFail ∧ namesXcnt i = true)

theorem fatalFromXof_command {legal inRange : Bool} {ds : List Dest} {body : Host.Outcome State Fault Refusal}
    (h : Answers (FatalFromXof i s) body) : Answers (FatalFromXof i s) (command s legal inRange ds body) :=
  answers_command (fun _ => .inl rfl) (.inl (anyAll_fatal s ds)) h

theorem fatalFromXof_unlessXofFails {ds : List Dest} {body : Host.Outcome State Fault Refusal} (hi : namesXcnt i = true)
    (h : Answers (FatalFromXof i s) body) : Answers (FatalFromXof i s) (unlessXofFails s ds body) :=
  answers_unlessXofFails (.inr ⟨rfl, rfl, hi⟩) h

@[simp] theorem deliver_fatal (s : State) (n count : Nat) (r : Option (List Word)) :
    (deliver s n count r).fatal = s.fatal := by
  cases r <;> rfl

@[simp] theorem unifStep_fatal (s : State) (a : Slot) (l : UnifLoop) : (unifStep s a l).fatal = s.fatal := by
  rcases unifStep_cases s a l with ⟨-, h⟩ | ⟨-, h⟩ <;> rw [h]
  · exact schedule_fatal _
  · rfl

/-- UNIF, on its first step and on a later one. -/
theorem fatalFromXof_execUnif (a : Slot) (s : State) : Answers (FatalFromXof (.unif a) s) (execUnif a s) := by
  unfold execUnif
  split
  · exact fatalFromXof_command (answers_withRead fun _ => fatalFromXof_unlessXofFails rfl (.inl (unifStep_fatal s a _)))
  · split
    · exact .inl (anyAll_fatal s _)
    · exact fatalFromXof_unlessXofFails rfl (.inl (unifStep_fatal s a _))

/-- Of all commands only a sampler draws a failure, and no other end of a command touches FATAL. -/
theorem fatalFromXof_exec (i : Instr) (s : State) : Answers (FatalFromXof i s) (exec i s) := by
  cases i with
  | nop | rfull | rpart | p2r | decomp | mkhint | usehint => exact fatalFromXof_command (.inl rfl)
  | vrfull | vrpart | vp2r | vdecomp | pkt1 | pkt0 | pketa | pkg1 | pkchal | upkt1 | upkt0 | upketa | upkg1 | pkhint =>
    exact fatalFromXof_command (answers_withRead fun _ => .inl rfl)
  | vmkhint | vusehint => exact fatalFromXof_command (answers_withRead fun _ => answers_withRead fun _ => .inl rfl)
  | cbd2 | cbd3 => exact fatalFromXof_command (answers_withRead fun _ => fatalFromXof_unlessXofFails rfl (.inl rfl))
  | unif a => exact fatalFromXof_execUnif a s
  | upkhint | upkchal => exact fatalFromXof_command (answers_withRead fun _ => .inl (deliver_fatal s _ _ _))

theorem namesXcnt_iff : namesXcnt i = true ↔ ∃ a, i = .cbd2 a ∨ i = .cbd3 a ∨ i = .unif a := by
  cases i <;> simp [namesXcnt]

/-- An engine step keeps FATAL, or the latched command is a sampler whose stream failed. -/
theorem engineStep_fatal (h : engineStep s = .next t) :
    t.fatal = s.fatal ∨ (t.fatal = true ∧ t.err = .xofFail ∧
      ∃ a, decode s.latched.word = .ok (.cbd2 a) ∨ decode s.latched.word = .ok (.cbd3 a) ∨
        decode s.latched.word = .ok (.unif a)) := by
  rcases engineStep_next h with ⟨i, hd, hx⟩ | ⟨_, -, rfl⟩
  · rcases (fatalFromXof_exec i s).of_next hx with hf | ⟨hf, he, hi⟩
    · exact .inl hf
    · obtain ⟨a, hi⟩ := namesXcnt_iff.1 hi
      exact .inr ⟨hf, he, a, by simpa [hd] using hi⟩
  · exact .inl rfl

/-- The two resets of R138 and R139: the reset input and a CTRL write with SRST. -/
def IsResetOp (op : HostOp) : Prop := op = .hardReset ∨ ∃ v : Word, op = .wr .word 0x028 v ∧ v.getLsbD 2 = true

theorem portWrite_fatal (s : State) (off : BitVec 15) (v : Word) :
    (portWrite s off v).fatal = s.fatal ∨
    (off = 0x028 ∧ v.getLsbD 2 = true ∧ (portWrite s off v).fatal = false) := by
  rcases portWrite_cases s off v with h | ⟨-, h⟩ | ⟨-, -, h⟩ | ⟨-, h⟩ | ⟨ho, h⟩ | ⟨-, -, h⟩ | ⟨-, -, h⟩ | ⟨-, -, h⟩ <;>
    rw [h]
  case inr.inr.inl => exact .inl (schedule_fatal s)
  case inr.inr.inr.inr.inl =>
    cases hv : v.getLsbD 2 with
    | true => exact .inr ⟨ho, rfl, by rw [writeCtrl_srst hv]; rfl⟩
    | false => exact .inl (by rw [writeCtrl_word hv])
  all_goals exact .inl rfl

/-- A host step keeps FATAL, or it is a reset and clears it. -/
theorem hostStep_fatal {op : HostOp} (h : hostStep s op = .next t) :
    t.fatal = s.fatal ∨ (IsResetOp op ∧ t.fatal = false) := by
  rcases hostStep_next h with ⟨size, off, v, rfl, hw, rfl⟩ | ⟨_, _, rfl, -⟩ | ⟨-, _, rfl⟩ | ⟨rfl, rfl⟩
  · obtain ⟨rfl, -⟩ : size = .word ∧ off.toNat % 4 = 0 := by simpa [wholeWord] using hw
    exact (portWrite_fatal s off v).imp id fun ⟨ho, hv, hf⟩ => ⟨.inr ⟨v, by rw [ho], hv⟩, hf⟩
  · exact .inl rfl
  · exact .inl rfl
  · exact .inr ⟨.inl rfl, rfl⟩

/-! ## The issue (R120) -/

/-- The OP field is the low six bits of the word (30_encoding.md R56). -/
theorem fieldsOf_op_toNat (w : Word) : (fieldsOf w).op.toNat = w.toNat % 64 := by
  simp [fieldsOf, BitVec.extractLsb'_toNat]

theorem isSamplerWord_iff {w : Word} :
    isSamplerWord w = true ↔ w.toNat % 64 = 0x20 ∨ w.toNat % 64 = 0x21 ∨ w.toNat % 64 = 0x22 := by
  simp [isSamplerWord, ← fieldsOf_op_toNat, BitVec.toNat_eq, or_assoc]

/-- A write of CMD while IDLE is the issue of the word (10_state.md R27). -/
theorem step_of_issue {w : Word} {rest : List HostOp} (hb : s.busy = false)
    (h : HostDoes s (.wr .word 0x020 w) rest) : step s = .next (issue (taken s rest) w) := by
  rw [step_of_write rfl h, portWrite_cmd]
  exact congrArg _ (dropIfBusy_idle (s := taken s rest) hb _)

/-! ## The interrupt (R129) -/

/-- A step that leaves the engine IDLE has completed its command, and IE is not touched. -/
theorem irq_of_ends (h : Ends i s t) (hb : t.busy = false) : t.irq = s.ie := by
  obtain ⟨-, -, -, hie, -⟩ := keepsUnnamed_of_ends h
  rcases completed_or_continues h with ⟨-, hd⟩ | ⟨hr, -⟩
  · rw [State.irq, hd, hie, Bool.true_and]
  · exact absurd (hr.symm.trans hb) nofun

end Sys2Proof.Machine

namespace Sys2Proof.Proofs

open Sys2Proof.Machine Sys2Proof.Claims

/-- Settles O36: the check for FATAL stands before every other. -/
theorem fatalRefusesEveryCommand : Obligations.FatalRefusesEveryCommand :=
  fun _ s hf hl => ⟨_, exec_fatal hf hl, onlyReports_complete s .fatal⟩

/-- Settles O38: the abort writes `any` to the named destinations, and nothing else. -/
theorem abortEndsEveryCommand : Obligations.AbortEndsEveryCommand := by
  intro i s hf hi hr ha
  have hw := (writesOnly_anyAll s (namedDests s i)).completed .aborted false
  obtain ⟨-, -, -, -, -, -, -, -, hframe⟩ := hw.keepsUnnamed
  exact ⟨_, exec_aborted hf ha hi hr, ⟨rfl, rfl, rfl, rfl⟩, hw.kept, (anyAll_fatal s _).trans hf, hframe⟩

/-- Settles O40: of all the ends of a command's step only UNIF's next chunk is no completion. -/
theorem onlyUnifStaysRunning : Obligations.OnlyUnifStaysRunning :=
  fun _ _ _ h => completed_or_continues (ends_of_exec h)

/-- Settles O42, by whose turn it is: the engine never clears FATAL, the host never sets it. -/
theorem fatalStaysUntilReset : Obligations.FatalStaysUntilReset := by
  intro s t h
  by_cases hk : t.fatal = s.fatal
  · cases hs : s.fatal <;> simp [hk, hs]
  rcases step_next h with ⟨-, h⟩ | ⟨op, rest, ht, h⟩ | ⟨-, rfl⟩
  · obtain ⟨hf, hx⟩ := (engineStep_fatal h).resolve_left hk
    exact ⟨fun _ hn => absurd (hf.symm.trans hn) nofun, fun _ _ => hx⟩
  · obtain ⟨hop, hf⟩ := (hostStep_fatal h).resolve_left hk
    exact ⟨fun _ _ => ⟨op, rest, turn_eq_host_iff.1 ht, hop⟩, fun _ hn => absurd (hf.symm.trans hn) nofun⟩
  · exact absurd rfl hk

/-- Settles O55: DONE and IE by who writes them, the command's step, the issue, STATUS and CTRL. -/
theorem interruptFollowsDoneAndEnable : Obligations.InterruptFollowsDoneAndEnable := by
  refine ⟨fun _ _ _ h hb => irq_of_ends (ends_of_exec h) hb, fun s t w rest hb hd h => ?issue,
    fun s t v rest hd h hv => ?status, fun s t v rest hd h hv => ?ctrl⟩
  case issue =>
    obtain rfl := Host.Outcome.next.inj ((step_of_issue hb hd).symm.trans h)
    rfl
  case status =>
    obtain rfl := Host.Outcome.next.inj ((step_of_write rfl hd).symm.trans h)
    rw [portWrite_status]
    simp [writeStatus, State.irq, hv]
  case ctrl =>
    obtain rfl := Host.Outcome.next.inj ((step_of_write rfl hd).symm.trans h)
    rw [portWrite_ctrl, writeCtrl_word hv]
    rfl

/-- Settles O6: on the engine's turn the step is the engine's, and it runs what the latched word decodes to. -/
theorem stepRunsLatchedCommand : Obligations.StepRunsLatchedCommand := by
  intro s i hs hd
  rw [step_of_engineDoes hs, engineStep, hd]

/-- Settles O7, by the other two turns. -/
theorem stepTakesHostStep : Obligations.StepTakesHostStep :=
  ⟨fun _ _ _ => step_of_hostDoes, fun _ hh hb => step_of_nobody (turn_eq_nobody_iff.2 ⟨hh, hb⟩)⟩

/-- Settles O43: the issue latches the word on the state that the schedule has fixed. -/
theorem issueLatchesCommand : Obligations.IssueLatchesCommand := by
  intro s w rest hb hd
  refine ⟨_, step_of_issue hb hd, ?_⟩
  simp [issue, taken, isSamplerWord_iff]

end Sys2Proof.Proofs
end

section
/-! SUPPORT. 70_reset_and_hazards.md: the host's writes while a command runs, and the two resets. -/

namespace Sys2Proof.Machine

open Claims

variable {s : State}

/-! ## Writes while BUSY (R143) -/

/-- The writes that R143 drops are those to CMD, ARG0, ARG1 and the bytes the chip has. -/
theorem guarded_iff {p : Params} {off : BitVec 15} :
    Guarded p off ↔ off = 0x020 ∨ off = 0x030 ∨ off = 0x034 ∨ Mapped p off.toNat := Iff.rfl

theorem portWrite_guarded_busy (hb : s.busy = true) {off : BitVec 15} (h : Guarded s.params off) (v : Word) :
    portWrite s off v = { s with werr := true } := by
  rcases guarded_iff.1 h with rfl | rfl | rfl | hm
  · rw [portWrite_cmd, dropIfBusy_busy hb]
  · rw [portWrite_arg0, dropIfBusy_busy hb]
  · rw [portWrite_arg1, dropIfBusy_busy hb]
  · rw [portWrite_mapped hm, dropIfBusy_busy hb]

/-! ## The two resets (R138, R139, R140) -/

theorem isReset_resetEngine (s : State) : IsReset s (resetEngine s) :=
  ⟨rfl, rfl, rfl, rfl, rfl, rfl, rfl, rfl, rfl, rfl, rfl, rfl, rfl, rfl, rfl, readByte_nil⟩

/-- Either reset is `resetEngine` on the state whose host step is taken, BUSY or not. -/
theorem step_of_resetOp {op : HostOp} {rest : List HostOp} (hop : IsResetOp op) (hd : HostDoes s op rest) :
    step s = .next (resetEngine (taken s rest)) := by
  rcases hop with rfl | ⟨v, rfl, hv⟩
  · rw [step_of_hostDoes hd, hostStep]
  · rw [step_of_write rfl hd, portWrite_ctrl, writeCtrl_srst hv]

/-- A reset leaves the reset values, and of the host it keeps the remaining steps and the variables. -/
theorem step_of_resetOp_isReset {op : HostOp} {rest : List HostOp} (hop : IsResetOp op) (hd : HostDoes s op rest) :
    ∃ t, step s = .next t ∧ IsReset s t ∧ t.host = rest ∧ t.vars = s.vars :=
  ⟨_, step_of_resetOp hop hd, isReset_resetEngine (taken s rest), rfl, rfl⟩

end Sys2Proof.Machine

namespace Sys2Proof.Proofs

open Sys2Proof.Machine Sys2Proof.Claims

/-- Settles O44: every place that R143 guards drops the write while a command runs. -/
theorem busyWritesAreDropped : Obligations.BusyWritesAreDropped := by
  intro s off v rest hb hd h4 hg
  rw [step_of_write h4 hd, portWrite_guarded_busy (s := taken s rest) hb hg]

/-- Settles O52: SRST and the reset input are the same reset. -/
theorem resetsLeaveResetValues : Obligations.ResetsLeaveResetValues :=
  fun _ _ => ⟨fun v hv => step_of_resetOp_isReset (.inr ⟨v, rfl, hv⟩), step_of_resetOp_isReset (.inl rfl)⟩

end Sys2Proof.Proofs
end
